-- ==== Sys2Proof/Word.lean ====
section
/-! DEFINITION. The words of the hardware: a byte, an image dimension, a slot number, and the pixel of four bytes.
-/

namespace Sys2Proof

/-- A byte, 8 bits, bit 7 the most significant (00_scope.md R10). -/
abbrev Byte := BitVec 8

/-- `width` or `height`, 32 bits (00_scope.md R9, `DIM_WIDTH`). -/
abbrev Dim := BitVec 32

/-- The number of a slot of the running index, 6 bits (00_scope.md R9, `HASH_WIDTH`). -/
abbrev Slot := BitVec 6

/-- A pixel: four 8-bit unsigned lanes (10_state.md R20, 40_pixel_hash_index.md R110, R119). Its derived
equality compares all four lanes, which is the pixel equality of R112. -/
@[ext] structure Pixel where
  r : Byte
  g : Byte
  b : Byte
  a : Byte
deriving DecidableEq, Repr

end Sys2Proof
end

