-- ==== Sys2Proof/Config.lean ====
section
/-! DEFINITION. What an implementation fixes (the three parameters of 00_scope.md R9), the constants of the format, and
the free value behind the one content the spec leaves unspecified.
-/

namespace Sys2Proof

/-- `RGB_ALPHA_POLICY` (00_scope.md R9, 41_chunk_decode.md R143). -/
inductive AlphaPolicy
  | force255
  | carry
deriving DecidableEq, Repr

/-- The parameters of an instance, fixed for its life (00_scope.md R9, 70_reset_and_hazards.md R293). A state carries
them in its read-only field `cfg`, so that a statement about every state is one about every value (log 1). -/
structure Config where
  /-- `PIXEL_LIMIT`, the largest legal `width * height`. -/
  pixelLimit : Nat
  /-- `ZERO_DIM_ACCEPT`, whether a zero dimension is accepted. -/
  zeroDimAccept : Bool
  /-- `RGB_ALPHA_POLICY`, what the decoder does with alpha in a 3-channel stream. -/
  rgbAlphaPolicy : AlphaPolicy
deriving DecidableEq, Repr

/-- The defaults of 00_scope.md R9 (the 400,000,000 is the spec's own G1). -/
def Config.defaults : Config := ⟨400000000, false, .force255⟩

/-- What 00_scope.md R9 requires of the parameters: `PIXEL_LIMIT >= 400,000,000` and `PIXEL_LIMIT < 2^64`. -/
def Config.legal (c : Config) : Bool := decide (400000000 ≤ c.pixelLimit) && decide (c.pixelLimit < 2 ^ 64)

/-- A free value: the `n`-th byte that stands where the spec says "any value" (44_oneshot.md R222, 93 U4; log 7).
Nothing can be proved about it. -/
opaque Config.freeByte : Nat → Byte

/-- `RUN_MAX`, the longest run one RUN chunk carries (00_scope.md R9). -/
abbrev runMax : Nat := 62

/-- `HEADER_LEN` (00_scope.md R9). -/
abbrev headerLen : Nat := 14

/-- `END_LEN` (00_scope.md R9). -/
abbrev endLen : Nat := 8

end Sys2Proof
end

