-- ==== Sys2Proof/Syntax.lean ====
section
/-! DEFINITION. The instructions: the eight records of a QOI stream, one constructor for each row of
spec/opcode_table.json, with the fields of 30_encoding.md R81 as they stand in the record (biased, not signed).
-/

namespace Sys2Proof

/-- A record of the byte stream (30_encoding.md R80, R81). -/
inductive Instr
  /-- HEADER, 14 bytes; the magic is constant, the four fields may hold any value (R195 judges them). -/
  | header (width height : Dim) (channels colorspace : Byte)
  /-- INDEX, `00ssssss`. -/
  | index (slot : Slot)
  /-- DIFF, `01rrggbb`, each field the delta plus 2. -/
  | diff (fr fg fb : BitVec 2)
  /-- LUMA, `10gggggg rrrrbbbb`, green delta plus 32, the two relative deltas plus 8. -/
  | luma (fg6 : BitVec 6) (frg fbg : BitVec 4)
  /-- RUN, `11xxxxxx`, the run length minus 1. -/
  | run (runm1 : BitVec 6)
  /-- RGB, `11111110` and three literal bytes. -/
  | rgb (r g b : Byte)
  /-- RGBA, `11111111` and four literal bytes. -/
  | rgba (r g b a : Byte)
  /-- END, the eight bytes of the end marker. -/
  | endMarker
deriving DecidableEq, Repr

/-- Where in the stream a record stands, which decides the table's rows that can match (the `context` key of
spec/opcode_table.json, 30_encoding.md R89). -/
inductive Context
  /-- Stream bytes 0..13, phase D_HEADER. -/
  | header
  /-- The chunk region, phase D_CHUNKS. -/
  | chunk
  /-- The 8 bytes after the last pixel's chunk, phase D_TRAILER. -/
  | trailer
deriving DecidableEq, Repr

/-- The context of a record (30_encoding.md R89). -/
def Instr.context : Instr → Context
  | .header _ _ _ _ => .header
  | .index _ => .chunk
  | .diff _ _ _ => .chunk
  | .luma _ _ _ => .chunk
  | .run _ => .chunk
  | .rgb _ _ _ => .chunk
  | .rgba _ _ _ _ => .chunk
  | .endMarker => .trailer

end Sys2Proof
end

