-- ==== Sys2Proof/WellFormed.lean ====
section
/-! DEFINITION. Which records are well-formed. `encodable` is what the encoding admits; `wf` adds the legal header
fields of 43_framer.md R194 and the operand ranges of 30_encoding.md R94.
-/

namespace Sys2Proof

/-- Whether a record has an encoding: a RUN field is 0..61, since 62 and 63 are the RGB and RGBA tags
(30_encoding.md R91). Every other field value of every record is encodable (R90). -/
def Instr.encodable : Instr → Bool
  | .header _ _ _ _ => true
  | .index _ => true
  | .diff _ _ _ => true
  | .luma _ _ _ => true
  | .run runm1 => decide (runm1.toNat ≤ 61)
  | .rgb _ _ _ => true
  | .rgba _ _ _ _ => true
  | .endMarker => true

/-- The legal values of the two single-byte header fields (10_state.md R32, 30_encoding.md R92). -/
def legalFormat (channels colorspace : Byte) : Bool :=
  (decide (channels = 3) || decide (channels = 4)) && (decide (colorspace = 0) || decide (colorspace = 1))

/-- A well-formed record: encodable, and a header with legal `channels` and `colorspace` (30_encoding.md R94).
A decoded header need not be well-formed: executing it then raises `MalformedHeader`. -/
def Instr.wf : Instr → Bool
  | .header _ _ channels colorspace => legalFormat channels colorspace
  | .index _ => true
  | .diff _ _ _ => true
  | .luma _ _ _ => true
  | .run runm1 => decide (runm1.toNat ≤ 61)
  | .rgb _ _ _ => true
  | .rgba _ _ _ _ => true
  | .endMarker => true

end Sys2Proof
end

