-- ==== Sys2Proof/Decode.lean ====
section
/-! DEFINITION. The decoder of the three contexts, total on any bytes and rejecting by name, and the encoder, both
written from 30_encoding.md R81 to R88.
-/

namespace Sys2Proof

/-- Why bytes are no record of a context. -/
inductive Reject
  /-- Fewer bytes than the record has. -/
  | short
  /-- Header bytes 0..3 are not `71 6F 69 66` (43_framer.md R195). -/
  | badMagic
  /-- The trailer bytes are not the end marker (43_framer.md R198). -/
  | badEndMarker
deriving DecidableEq, Repr

/-- The six chunk opcodes (30_encoding.md R82). -/
inductive Opcode
  | index
  | diff
  | luma
  | run
  | rgb
  | rgba
deriving DecidableEq, Repr

/-- `be32`: four bytes read big-endian (00_scope.md R10, 20_memory.md R54). -/
def be32 (b0 b1 b2 b3 : Byte) : Dim := b0 ++ b1 ++ b2 ++ b3

/-- `be32_bytes`, the inverse of `be32` (00_scope.md R10). -/
def be32Bytes (v : Dim) : List Byte :=
  [v.extractLsb' 24 8, v.extractLsb' 16 8, v.extractLsb' 8 8, v.extractLsb' 0 8]

/-- The opcode of a chunk from its first byte: the 8-bit tags first, then the top two bits (30_encoding.md R82). -/
def opcode (b0 : Byte) : Opcode :=
  if b0 = 0xFE then .rgb
  else if b0 = 0xFF then .rgba
  else if b0.extractLsb' 6 2 = 0 then .index
  else if b0.extractLsb' 6 2 = 1 then .diff
  else if b0.extractLsb' 6 2 = 2 then .luma
  else .run

/-- The length of a chunk from its first byte alone (30_encoding.md R83). -/
def chunkLen (b0 : Byte) : Nat :=
  if b0 = 0xFE then 4
  else if b0 = 0xFF then 5
  else if b0.extractLsb' 6 2 = 2 then 2
  else 1

/-- The chunk at the head of the bytes and the bytes after it (30_encoding.md R81, R84, R87). -/
def decodeChunk : List Byte → Except Reject (Instr × List Byte)
  | [] => .error .short
  | b0 :: rest =>
    match opcode b0 with
    | .index => .ok (.index (b0.extractLsb' 0 6), rest)
    | .diff => .ok (.diff (b0.extractLsb' 4 2) (b0.extractLsb' 2 2) (b0.extractLsb' 0 2), rest)
    | .run => .ok (.run (b0.extractLsb' 0 6), rest)
    | .luma =>
      match rest with
      | b1 :: rest' => .ok (.luma (b0.extractLsb' 0 6) (b1.extractLsb' 4 4) (b1.extractLsb' 0 4), rest')
      | [] => .error .short
    | .rgb =>
      match rest with
      | r :: g :: b :: rest' => .ok (.rgb r g b, rest')
      | _ => .error .short
    | .rgba =>
      match rest with
      | r :: g :: b :: a :: rest' => .ok (.rgba r g b a, rest')
      | _ => .error .short

/-- The four ASCII bytes `qoif` (30_encoding.md R81, G2). -/
def magic : List Byte := [0x71, 0x6F, 0x69, 0x66]

/-- The end marker (30_encoding.md R81). -/
def endMarkerBytes : List Byte := [0, 0, 0, 0, 0, 0, 0, 1]

/-- The header at the head of the bytes: the magic is compared, the four fields are read and not judged
(43_framer.md R195; the judging of the fields is R194's, in the meaning). -/
def decodeHeader : List Byte → Except Reject (Instr × List Byte)
  | m0 :: m1 :: m2 :: m3 :: w0 :: w1 :: w2 :: w3 :: h0 :: h1 :: h2 :: h3 :: c :: cs :: rest =>
    if [m0, m1, m2, m3] = magic then .ok (.header (be32 w0 w1 w2 w3) (be32 h0 h1 h2 h3) c cs, rest)
    else .error .badMagic
  | _ => .error .short

/-- The end marker at the head of the bytes (43_framer.md R198). -/
def decodeTrailer (bytes : List Byte) : Except Reject (Instr × List Byte) :=
  if bytes.length < endLen then .error .short
  else if bytes.take endLen = endMarkerBytes then .ok (.endMarker, bytes.drop endLen)
  else .error .badEndMarker

/-- The record of a context at the head of the bytes, and the bytes after it (30_encoding.md R89). -/
def decode (ctx : Context) (bytes : List Byte) : Except Reject (Instr × List Byte) :=
  match ctx with
  | .header => decodeHeader bytes
  | .chunk => decodeChunk bytes
  | .trailer => decodeTrailer bytes

/-- The bytes of a record (30_encoding.md R81, R86, R88; 43_framer.md R190, R197). -/
def encode : Instr → List Byte
  | .header w h c cs => magic ++ be32Bytes w ++ be32Bytes h ++ [c, cs]
  | .index slot => [0b00#2 ++ slot]
  | .diff fr fg fb => [0b01#2 ++ fr ++ fg ++ fb]
  | .luma fg6 frg fbg => [0b10#2 ++ fg6, frg ++ fbg]
  | .run runm1 => [0b11#2 ++ runm1]
  | .rgb r g b => [0xFE, r, g, b]
  | .rgba r g b a => [0xFF, r, g, b, a]
  | .endMarker => endMarkerBytes

/-- The bytes of a record whose bits are `w`, bit 0 the least significant bit of the first byte, laid out in stream
order; the bits from `nbits` up are 0. Fourteen bytes, the longest record. -/
def bytesOfWord (nbits w : Nat) : List Byte :=
  (List.range headerLen).map fun i => BitVec.ofNat 8 ((w % 2 ^ nbits) / 2 ^ (8 * i))

/-- The context a table row's width stands for: only HEADER has 14 bytes and only END has 8 (log 13). -/
def contextOfWidth (nbits : Nat) : Context :=
  if nbits = 8 * headerLen then .header else if nbits = 8 * endLen then .trailer else .chunk

/-- The instruction the decoder reads from the table's word `w` of `nbits` bits. The spec finds HEADER and END by
position and never by dispatch (30_encoding.md R89), so the width chooses the context (log 13). -/
def decodeTableWord (nbits w : Nat) : Option Instr :=
  match decode (contextOfWidth nbits) (bytesOfWord nbits w) with
  | .ok (i, _) => some i
  | .error _ => none

/-- Exactly the bytes of the record that `decodeTableWord` reads, with nothing after it. -/
def recordBytes (nbits w : Nat) : List Byte :=
  match contextOfWidth nbits with
  | .header => (bytesOfWord nbits w).take headerLen
  | .trailer => (bytesOfWord nbits w).take endLen
  | .chunk => (bytesOfWord nbits w).take (chunkLen ((bytesOfWord nbits w).headD 0))

end Sys2Proof
end

