-- ==== Sys2Proof/Machine/State.lean ====
section
/-! DEFINITION. The state of one codec instance as plain data (10_state.md), the host's two byte spaces, the commands the
host issues and the results it gets, and the reasons a step can stop.
-/

namespace Sys2Proof.Machine

/-- A byte space of the host: (address, byte) pairs, addresses strictly rising. An address that is not listed holds
no byte the model knows (log 6). -/
abbrev Memory := List Host.Cell

/-- The two byte spaces (20_memory.md R50, R51). -/
inductive Space
  | pix
  | stream
deriving DecidableEq, Repr

/-- The phase register (10_state.md R26). -/
inductive Phase
  /-- Reset state, no stream begun. -/
  | idle
  /-- Encoder: header emitted, pixels being accepted. -/
  | eBody
  /-- Encoder: end marker emitted. -/
  | eDone
  /-- Decoder: fewer than 14 header bytes received. -/
  | dHeader
  /-- Decoder: header valid, fewer than `total` pixels produced. -/
  | dChunks
  /-- Decoder: `total` pixels produced, fewer than 8 end-marker bytes received. -/
  | dTrailer
  /-- Decoder: end marker seen. -/
  | dDone
  /-- An error was raised, `err` holds it. -/
  | failed
deriving DecidableEq, Repr

/-- The error kinds, `none` being the reset value of `err` (60_exceptions.md R260). -/
inductive ErrKind
  | none
  | malformedHeader
  | dimensionsOverflow
  | outputBufferTooSmall
  | truncated
  | missingEndMarker
deriving DecidableEq, Repr

/-- The sub-causes of `MalformedHeader`, `none` for every other kind (60_exceptions.md R261). -/
inductive SubCause
  | none
  | badMagic
  | badChannels
  | badColorspace
  | zeroDimension
deriving DecidableEq, Repr

/-- The error latch (10_state.md R31). -/
structure ErrReg where
  kind : ErrKind
  sub : SubCause
deriving DecidableEq, Repr

/-- The decoded header as a value, the header event of 45_streaming.md R239. -/
structure Header where
  width : Dim
  height : Dim
  channels : Byte
  colorspace : Byte
deriving DecidableEq, Repr

/-- The commands of the host with their arguments (00_scope.md R8). A pixel of `encPush` is what the host hands over
for one pixel: with `channels = 3` its alpha lane is no part of the `3` bytes and is not used (45_streaming.md R233,
log 10). -/
inductive Command
  | reset
  | encBegin (width height : Dim) (channels colorspace : Byte)
  | encPush (pixels : List Pixel)
  | encFinish
  | decBegin
  | decPush (frag : List Byte)
  | decFinish
  | encode (width height : Dim) (channels colorspace : Byte) (plen cap : Nat)
  | decode (slen cap : Nat)
deriving DecidableEq, Repr

/-- The reasons of a refused command (60_exceptions.md R272). -/
inductive RefuseReason
  | badPhase
  | badPixelBufferLength
  | tooManyPixels
  | pixelCountShort
deriving DecidableEq, Repr

/-- The result of a command (00_scope.md R8, 10_state.md R34). -/
inductive Result
  /-- RESET returns nothing (70_reset_and_hazards.md R290). -/
  | nothing
  /-- `Ok` of DEC_BEGIN and DEC_FINISH. -/
  | ok
  /-- `Ok(bytes)` of ENC_BEGIN, ENC_PUSH and ENC_FINISH. -/
  | bytes (stream : List Byte)
  /-- `Ok(header_event, pixels, consumed)` of DEC_PUSH. -/
  | pushed (event : Option Header) (pixels : List Byte) (consumed : Nat)
  /-- `Ok(n)` of ENCODE. -/
  | encoded (n : Nat)
  /-- `Ok(header, m)` of DECODE. -/
  | decoded (header : Header) (m : Nat)
  /-- `Error(kind, sub)` (60_exceptions.md R270). -/
  | error (kind : ErrKind) (sub : SubCause)
  /-- `Refused(reason)` (60_exceptions.md R272). -/
  | refused (reason : RefuseReason)
deriving DecidableEq, Repr

/-- The shape of the command in progress (00_scope.md R1, part 5): a streaming command returns its output by value,
a one-shot command writes it to the host's space. `op` is the output cursor of ENCODE, local to the command
(10_state.md R28, 44_oneshot.md R212). -/
inductive Walker
  | byValue
  | inSpaces (op : Nat)
deriving DecidableEq, Repr

/-- Why the machine stops with a fault. -/
inductive Fault
  /-- ENCODE or DECODE reads an address of a space at which the host has provided no byte, although it said the byte
  is valid (44_oneshot.md R210, R215; log 6). Safe: the model stops where the hardware would read something. -/
  | unprovidedByte (space : Space) (address : Nat)
  /-- A header register or `total` is read while `hdr_valid = 0`: by a chunk, ENC_PUSH or ENC_FINISH in a state no run
  reaches. The spec itself says it is a fault (10_state.md R30: "reading one is a fault of the model, not a zero";
  93_implementation_defined.md U13; 92_eei_decisions.md D23). Safe: no legal state meets it. -/
  | headerValueless
deriving DecidableEq, Repr

/-- Why the machine has no step. -/
inductive Refusal
  /-- An instruction that has no meaning yet: raised by `exec` only. Safe. -/
  | notModelled (mnemonic : String)
  /-- A record is executed in a phase in which its row of the opcode table is never matched (30_encoding.md R89,
  41_chunk_decode.md R130). Safe: no legal state meets it (log 11). -/
  | recordOutOfPhase
  /-- A chunk is executed although `px_count < total` does not hold (41_chunk_decode.md R130, R142). Safe: no legal
  state meets it (log 11). -/
  | noPixelDue
  /-- The decoder is given fewer bytes than a record has, which the byte counts of 45_streaming.md R241 to R243
  exclude. Safe: no state meets it. -/
  | shortRecord
deriving DecidableEq, Repr

/-- The state of one instance (10_state.md), the host's spaces (20_memory.md), the parameters, and the model's own
fields for what passes between host and instance. -/
@[ext]
structure State where
  /-- The parameters, written by nothing (00_scope.md R9; log 1). -/
  cfg : Config
  /-- The previous pixel (10_state.md R20). -/
  prev : Pixel
  /-- The run length, 0..61 between commands (R21; log 9). -/
  run : Nat
  /-- The running index (R23). -/
  index : Vector Pixel 64
  /-- Where the instance is (R26). -/
  phase : Phase
  /-- Pixels consumed or produced (R27; log 9). -/
  pxCount : Nat
  /-- Whether the header registers hold an accepted header (R30). -/
  hdrValid : Bool
  /-- The error latch (R31). -/
  err : ErrReg
  /-- Header register (R32). -/
  width : Dim
  /-- Header register (R32). -/
  height : Dim
  /-- Header register (R32). -/
  channels : Byte
  /-- Header register (R32). -/
  colorspace : Byte
  /-- `width * height` (R33; log 9). -/
  total : Nat
  /-- The decoder's chunk assembly buffer (R36). -/
  carry : List Byte
  /-- The decoder's frame accumulator (R37). -/
  facc : List Byte
  /-- The pixel space `PIX` of the host (20_memory.md R50). -/
  pix : Memory
  /-- The stream space `STREAM` of the host (20_memory.md R51). -/
  stream : Memory
  /-- Model's own: the commands issued and not yet performed, oldest first (log 3). -/
  cmds : List Command
  /-- Model's own: the result of the last command performed (log 4). -/
  reply : Option Result
  /-- Model's own: the output bytes of the command in progress (log 4). -/
  out : List Byte
  /-- Model's own: the header event of the command in progress (log 4). -/
  hdrEvent : Option Header
  /-- Model's own: the shape of the command in progress (log 4). -/
  walker : Walker
  /-- Model's own: how many free values have been drawn (log 7). -/
  freeCount : Nat
deriving DecidableEq, Repr

/-- The reset value of `prev` (10_state.md R41). -/
def resetPixel : Pixel := ⟨0, 0, 0, 255⟩

/-- The reset value of every slot of the index (10_state.md R41). -/
def zeroPixel : Pixel := ⟨0, 0, 0, 0⟩

/-- The state at power-on, which the spec treats as after RESET (10_state.md R41, 70_reset_and_hazards.md R290).
The header registers hold no value in the spec; here they hold 0 and `hdrValid` is false (log 2). -/
def State.reset : State where
  cfg := Config.defaults
  prev := resetPixel
  run := 0
  index := Vector.replicate 64 zeroPixel
  phase := .idle
  pxCount := 0
  hdrValid := false
  err := ⟨.none, .none⟩
  width := 0
  height := 0
  channels := 0
  colorspace := 0
  total := 0
  carry := []
  facc := []
  pix := []
  stream := []
  cmds := []
  reply := none
  out := []
  hdrEvent := none
  walker := .byValue
  freeCount := 0

/-- The accepted header, or nothing while `hdr_valid = 0` and the header registers hold no value (10_state.md R30). -/
def State.header? (s : State) : Option Header :=
  if s.hdrValid then some ⟨s.width, s.height, s.channels, s.colorspace⟩ else none

end Sys2Proof.Machine
end

