-- ==== Sys2Proof/Machine/Operands.lean ====
section
/-! DEFINITION. The operand forms: the two narrowing functions of 00_scope.md R10, pixels from and to buffer bytes, the hash,
the value each chunk gives its pixel, and the biased fields each pixel gives its chunk.
-/

namespace Sys2Proof.Machine

/-- `u8(v)`, the integer modulo 256 (00_scope.md R10, 41_chunk_decode.md R133). -/
def u8 (v : Int) : Byte := BitVec.ofInt 8 v

/-- `sext_8`, a byte read as a signed number, -128..127 (00_scope.md R10). -/
def sext8 (b : Byte) : Int := if b.toNat < 128 then b.toNat else (b.toNat : Int) - 256

/-- An unsigned field as an integer. -/
def fld {n : Nat} (v : BitVec n) : Int := v.toNat

/-- `pixel_from_bytes` (40_pixel_hash_index.md R110): with 3 channels alpha is 255. -/
def pixelFromBytes (c : Byte) (bytes : List Byte) : Pixel :=
  if c = 4 then ⟨bytes.getD 0 0, bytes.getD 1 0, bytes.getD 2 0, bytes.getD 3 0⟩
  else ⟨bytes.getD 0 0, bytes.getD 1 0, bytes.getD 2 0, 255⟩

/-- `pixel_to_bytes` (40_pixel_hash_index.md R111). -/
def pixelToBytes (c : Byte) (p : Pixel) : List Byte :=
  if c = 4 then [p.r, p.g, p.b, p.a] else [p.r, p.g, p.b]

/-- The pixel of R110 that the bytes of one pixel of an ENC_PUSH fragment make (45_streaming.md R233; log 10). -/
def pushedPixel (c : Byte) (p : Pixel) : Pixel := pixelFromBytes c (pixelToBytes c p)

/-- The pixel hash (40_pixel_hash_index.md R113). -/
def hash (p : Pixel) : Slot :=
  BitVec.ofNat 6 ((p.r.toNat * 3 + p.g.toNat * 5 + p.b.toNat * 7 + p.a.toNat * 11) % 64)

/-- `get`: the pixel in a slot of the running index (40_pixel_hash_index.md R115). -/
def State.indexGet (s : State) (k : Slot) : Pixel := s.index[k.toNat]'k.isLt

/-- `alpha_fix` (41_chunk_decode.md R143). -/
def alphaFix (s : State) (p : Pixel) : Pixel :=
  if s.channels = 4 then p
  else
    match s.cfg.rgbAlphaPolicy with
    | .force255 => ⟨p.r, p.g, p.b, 255⟩
    | .carry => p

/-- `value(INDEX)` (41_chunk_decode.md R132). -/
def valueIndex (slot : Slot) (s : State) : Pixel := s.indexGet slot

/-- `value(DIFF)` (41_chunk_decode.md R134). -/
def valueDiff (fr fg fb : BitVec 2) (s : State) : Pixel :=
  ⟨u8 (fld s.prev.r + fld fr - 2), u8 (fld s.prev.g + fld fg - 2), u8 (fld s.prev.b + fld fb - 2), s.prev.a⟩

/-- `value(LUMA)` (41_chunk_decode.md R135). -/
def valueLuma (fg6 : BitVec 6) (frg fbg : BitVec 4) (s : State) : Pixel :=
  let dg := fld fg6 - 32
  let drg := fld frg - 8
  let dbg := fld fbg - 8
  ⟨u8 (fld s.prev.r + dg + drg), u8 (fld s.prev.g + dg), u8 (fld s.prev.b + dg + dbg), s.prev.a⟩

/-- `value(RGB)` (41_chunk_decode.md R136). -/
def valueRgb (r g b : Byte) (s : State) : Pixel := ⟨r, g, b, s.prev.a⟩

/-- `value(RGBA)` (41_chunk_decode.md R138). -/
def valueRgba (r g b a : Byte) : Pixel := ⟨r, g, b, a⟩

/-- A channel delta, the wrapping difference read as a signed byte (42_chunk_encode.md R165). -/
def delta (x y : Byte) : Int := sext8 (u8 (fld x - fld y))

/-- The second difference `drg` or `dbg` (42_chunk_encode.md R165). -/
def delta2 (d dg : Int) : Int := sext8 (u8 (d - dg))

/-- A signed delta stored biased in a field of `n` bits (30_encoding.md R85, R86). -/
def biased (n : Nat) (d bias : Int) : BitVec n := BitVec.ofInt n (d + bias)

/-- Whether the DIFF condition on the deltas holds (42_chunk_encode.md R166). -/
def fitsDiff (dr dg db : Int) : Bool :=
  decide (-2 ≤ dr) && decide (dr ≤ 1) && decide (-2 ≤ dg) && decide (dg ≤ 1) && decide (-2 ≤ db) && decide (db ≤ 1)

/-- Whether the LUMA condition on the deltas holds (42_chunk_encode.md R167). -/
def fitsLuma (dg drg dbg : Int) : Bool :=
  decide (-32 ≤ dg) && decide (dg ≤ 31) && decide (-8 ≤ drg) && decide (drg ≤ 7) && decide (-8 ≤ dbg) && decide (dbg ≤ 7)

end Sys2Proof.Machine
end

