-- ==== Sys2Proof/Machine/Ops.lean ====
section
/-! DEFINITION. The named operations over the spaces and the registers: reading and writing bytes, the index, the outputs of a
command, failing a command (`raise`) and recovering from it (`RESET`), and the opening and closing of a command.
-/

namespace Sys2Proof.Machine

/-! ### The byte spaces (20_memory.md R52) -/

/-- The canonical form of a space: addresses strictly rising (log 6). -/
abbrev Memory.wf (m : Memory) : Prop := m.Pairwise fun x y => x.1 < y.1

/-- The byte at an address, or nothing where the host has provided none (log 6). -/
def Memory.read : Memory → Nat → Option Byte
  | [], _ => none
  | (k, v) :: m, a => if a < k then none else if a = k then some v else Memory.read m a

/-- One byte stored, keeping the canonical form. -/
def Memory.write : Memory → Nat → Byte → Memory
  | [], a, b => [(a, b)]
  | (k, v) :: m, a, b =>
    if a < k then (a, b) :: (k, v) :: m else if a = k then (a, b) :: m else (k, v) :: Memory.write m a b

/-- `MemWrite(space, addr, n, v)`: the bytes of `v` at `addr`, `addr + 1`, ... (20_memory.md R52). -/
def Memory.writeBytes : Memory → Nat → List Byte → Memory
  | m, _, [] => m
  | m, a, b :: bs => Memory.writeBytes (m.write a b) (a + 1) bs

/-- `MemRead(space, addr, n)`: the `n` bytes from `addr` up, or the first address that holds none
(20_memory.md R52). -/
def Memory.readBytes (m : Memory) (a : Nat) : Nat → Except Nat (List Byte)
  | 0 => .ok []
  | n + 1 =>
    match m.read a with
    | none => .error a
    | some b =>
      match Memory.readBytes m (a + 1) n with
      | .error e => .error e
      | .ok bs => .ok (b :: bs)

/-! ### The running index -/

/-- `set`: a pixel stored in a slot, last writer wins (40_pixel_hash_index.md R116). -/
def State.indexSet (k : Slot) (p : Pixel) (s : State) : State := { s with index := s.index.set k.toNat p k.isLt }

/-- The write-back after a non-RUN chunk, on both sides (41_chunk_decode.md R140, 42_chunk_encode.md R172). -/
def writeBack (p : Pixel) (s : State) : State := { s.indexSet (hash p) p with prev := p }

/-! ### The header registers -/

/-- What follows reads a header register or `total`. The spec itself says that such a read is a fault while
`hdr_valid = 0`: "While it is 0 the header registers hold no value: a model must not read them (reading one is a fault of
the model, not a zero)" (10_state.md R30); "Valueless: reading one is a `fault` of the model" and "No command reads them
in that state" (93_implementation_defined.md U13); 92_eei_decisions.md D23. The
spec tells `fault` from `any value` (93, opening; U4, U6), so no free value stands here. -/
def readingHeader (s : State) (k : Host.Outcome State Fault Refusal) : Host.Outcome State Fault Refusal :=
  if s.hdrValid = false then .fault .headerValueless else k

/-! ### The outputs of a command (00_scope.md R11) -/

/-- `emit(bytes)`: by value in a streaming command, `MemWrite(STREAM, op, ...)` in ENCODE (44_oneshot.md R212). -/
def emit (bytes : List Byte) (s : State) : State :=
  match s.walker with
  | .byValue => { s with out := s.out ++ bytes }
  | .inSpaces op => { s with stream := s.stream.writeBytes op bytes, walker := .inSpaces (op + bytes.length) }

/-- `out_pixel(p)`: by value in DEC_PUSH (41_chunk_decode.md R141), into `PIX` in DECODE (44_oneshot.md R218). -/
def outPixel (p : Pixel) (s : State) : State :=
  match s.walker with
  | .byValue => { s with out := s.out ++ pixelToBytes s.channels p, pxCount := s.pxCount + 1 }
  | .inSpaces _ =>
    { s with
      pix := s.pix.writeBytes (s.pxCount * s.channels.toNat) (pixelToBytes s.channels p)
      pxCount := s.pxCount + 1 }

/-- `out_pixel(p)` repeated `n` times (41_chunk_decode.md R137). -/
def outPixels : Nat → Pixel → State → State
  | 0, _, s => s
  | n + 1, p, s => outPixels n p (outPixel p s)

/-- The cursor `op` of ENCODE, the number of bytes it has written (44_oneshot.md R212). -/
def State.cursor (s : State) : Nat :=
  match s.walker with
  | .byValue => 0
  | .inSpaces op => op

/-! ### Failing and recovering -/

/-- `raise K(sub)`, the taking of an exception: the latch is written if it is clear, the phase becomes FAILED,
everything else stays as it is (60_exceptions.md R270). -/
def raise (kind : ErrKind) (sub : SubCause) (s : State) : State :=
  { s with
    err := if s.err.kind = .none then ⟨kind, sub⟩ else s.err
    phase := .failed }

/-- `RESET`, the only way out of FAILED (60_exceptions.md R273, 70_reset_and_hazards.md R290): every piece of state of
the instance takes its reset value. The parameters, the host's spaces and what the host has still to see or to have
done are not the instance's state and stay (R293; log 16). -/
def resetInstance (s : State) : State :=
  { State.reset with
    cfg := s.cfg
    pix := s.pix
    stream := s.stream
    cmds := s.cmds
    reply := s.reply
    freeCount := s.freeCount }

/-! ### Opening and closing a command -/

/-- A command begins with an empty output and no header event (45_streaming.md R233, R239). -/
def openCommand (walker : Walker) (s : State) : State := { s with out := [], hdrEvent := none, walker := walker }

/-- A command returns its result by value, and nothing of the command's own is left (00_scope.md R8). -/
def closeCommand (r : Result) (s : State) : State :=
  { s with out := [], hdrEvent := none, walker := .byValue, reply := some r }

/-- A failed command returns the error and nothing else (60_exceptions.md R270, R271). -/
def closeFailed (s : State) : State := closeCommand (.error s.err.kind s.err.sub) s

/-- A refused command changes no state: only the host sees the reason (60_exceptions.md R272; log 5). -/
def refuse (r : RefuseReason) (s : State) : State := { s with reply := some (.refused r) }

/-- What a failed DECODE leaves in `PIX[0..cap]`: any value, drawn anew for each byte (44_oneshot.md R222, 93 U4;
log 7). -/
def unspecifiedPix (cap : Nat) (s : State) : State :=
  { s with
    pix := s.pix.writeBytes 0 ((List.range cap).map fun i => Config.freeByte (s.freeCount + i))
    freeCount := s.freeCount + cap }

end Sys2Proof.Machine
end

