-- ==== Sys2Proof/Machine/Flags.lean ====
section
/-! DEFINITION. The flag computations. No chunk writes a flag (10_state.md R29, 41_chunk_decode.md R144, 42_chunk_encode.md R177); the two
flag-like registers are `hdr_valid`, set by the field checks below, and `err`, written by `raise`. The numbers of the
kinds, sub-causes and phases' legal commands stand here too.
-/

namespace Sys2Proof.Machine

/-- The code of an error kind (60_exceptions.md R260). -/
def ErrKind.code : ErrKind → Nat
  | .none => 0
  | .malformedHeader => 1
  | .dimensionsOverflow => 2
  | .outputBufferTooSmall => 3
  | .truncated => 4
  | .missingEndMarker => 5

/-- The number of a sub-cause (60_exceptions.md R261). -/
def SubCause.number : SubCause → Nat
  | .none => 0
  | .badMagic => 1
  | .badChannels => 2
  | .badColorspace => 3
  | .zeroDimension => 4

/-- `check_fields(w, h, c, cs)`: the first check that fails decides the error; on success the header registers,
`total` and `hdr_valid` are written (43_framer.md R194, R192, R193). -/
def checkFields (w h : Dim) (c cs : Byte) (s : State) : State :=
  if c ≠ 3 ∧ c ≠ 4 then raise .malformedHeader .badChannels s
  else if cs ≠ 0 ∧ cs ≠ 1 then raise .malformedHeader .badColorspace s
  else if (w = 0 ∨ h = 0) ∧ s.cfg.zeroDimAccept = false then raise .malformedHeader .zeroDimension s
  else if w.toNat * h.toNat > s.cfg.pixelLimit then raise .dimensionsOverflow .none s
  else
    { s with
      width := w
      height := h
      channels := c
      colorspace := cs
      total := w.toNat * h.toNat
      hdrValid := true }

/-- The phase an accepted image starts its body in, on the decode side (45_streaming.md R241). -/
def bodyPhase (total : Nat) : Phase := if total = 0 then .dTrailer else .dChunks

/-- The table of legal commands (10_state.md R26). It is followed in D_DONE after DECODE too: DEC_PUSH and DEC_FINISH
stay legal there and change nothing, although 44_oneshot.md R221 says that only RESET is accepted after a successful
DECODE (log 19). -/
def Phase.accepts : Phase → Command → Bool
  | _, .reset => true
  | p, .encBegin _ _ _ _ => decide (p = .idle)
  | p, .decBegin => decide (p = .idle)
  | p, .encode _ _ _ _ _ _ => decide (p = .idle)
  | p, .decode _ _ => decide (p = .idle)
  | p, .encPush _ => decide (p = .eBody)
  | p, .encFinish => decide (p = .eBody)
  | p, .decPush _ => decide (p = .dHeader) || decide (p = .dChunks) || decide (p = .dTrailer) || decide (p = .dDone)
  | p, .decFinish => decide (p = .dHeader) || decide (p = .dChunks) || decide (p = .dTrailer) || decide (p = .dDone)

end Sys2Proof.Machine
end

