-- ==== Sys2Proof/Machine/Chunks.lean ====
section
/-! DEFINITION. The meanings of the six chunks: `exec_chunk` of 41_chunk_decode.md R131.
-/

namespace Sys2Proof.Machine

/-- The precondition of `exec_chunk` (41_chunk_decode.md R130): phase D_CHUNKS, which in a legal state implies a valid
header and a pixel still due (R142). Every chunk reads `channels` or `total`, so R30's
fault comes first (`readingHeader`); the two refusals are log 11. -/
def guardChunk (s t : State) : Host.Outcome State Fault Refusal :=
  if s.phase ≠ .dChunks then .refused .recordOutOfPhase
  else readingHeader s (if s.total ≤ s.pxCount then .refused .noPixelDue else .next t)

/-- What every non-RUN chunk does with its value: `alpha_fix`, write-back, output (41_chunk_decode.md R131, R140,
R141). -/
def deliver (p : Pixel) (s : State) : State := outPixel (alphaFix s p) (writeBack (alphaFix s p) s)

/-- INDEX (41_chunk_decode.md R132). -/
def execIndex (slot : Slot) (s : State) : Host.Outcome State Fault Refusal :=
  guardChunk s (deliver (valueIndex slot s) s)

/-- DIFF (41_chunk_decode.md R134). -/
def execDiff (fr fg fb : BitVec 2) (s : State) : Host.Outcome State Fault Refusal :=
  guardChunk s (deliver (valueDiff fr fg fb s) s)

/-- LUMA (41_chunk_decode.md R135). -/
def execLuma (fg6 : BitVec 6) (frg fbg : BitVec 4) (s : State) : Host.Outcome State Fault Refusal :=
  guardChunk s (deliver (valueLuma fg6 frg fbg s) s)

/-- RUN: the previous pixel, as often as the chunk says or as pixels remain; `prev` and the index are untouched
(41_chunk_decode.md R137). -/
def execRun (runm1 : BitVec 6) (s : State) : Host.Outcome State Fault Refusal :=
  guardChunk s (outPixels (min (runm1.toNat + 1) (s.total - s.pxCount)) s.prev s)

/-- RGB (41_chunk_decode.md R136). -/
def execRgb (r g b : Byte) (s : State) : Host.Outcome State Fault Refusal :=
  guardChunk s (deliver (valueRgb r g b s) s)

/-- RGBA (41_chunk_decode.md R138). -/
def execRgba (r g b a : Byte) (s : State) : Host.Outcome State Fault Refusal :=
  guardChunk s (deliver (valueRgba r g b a) s)

end Sys2Proof.Machine
end

