-- ==== Sys2Proof/Machine/Framer.lean ====
section
/-! DEFINITION. The meanings of the two framing records, HEADER and END (43_framer.md, 45_streaming.md R241 and R243).
-/

namespace Sys2Proof.Machine

/-- A complete header with the right magic: the field checks, and when they pass the header event and the phase of
the body (43_framer.md R195, 45_streaming.md R241). -/
def acceptHeader (w h : Dim) (c cs : Byte) (s : State) : State :=
  let t := checkFields w h c cs s
  if t.phase = .failed then t
  else { t with hdrEvent := some ⟨w, h, c, cs⟩, phase := bodyPhase t.total }

/-- HEADER (43_framer.md R195, R194; 45_streaming.md R241). A header record stands at stream bytes 0..13 only, in
phase D_HEADER (30_encoding.md R89). -/
def execHeader (w h : Dim) (c cs : Byte) (s : State) : Host.Outcome State Fault Refusal :=
  if s.phase = .dHeader then .next (acceptHeader w h c cs s) else .refused .recordOutOfPhase

/-- END (43_framer.md R198, 45_streaming.md R243): the end marker is seen. The record stands after the last pixel's
chunk only, in phase D_TRAILER (30_encoding.md R89). -/
def execEndMarker (s : State) : Host.Outcome State Fault Refusal :=
  if s.phase = .dTrailer then .next { s with phase := .dDone } else .refused .recordOutOfPhase

end Sys2Proof.Machine
end

