-- ==== Sys2Proof/Machine/Dispatch.lean ====
section
/-! DEFINITION. The dispatch: one arm for each record (41_chunk_decode.md R131, R139).
-/

namespace Sys2Proof.Machine

/-- The decode-side meaning of a record. -/
def exec (i : Instr) (s : State) : Host.Outcome State Fault Refusal :=
  match i with
  | .header w h c cs => Sys2Proof.Machine.execHeader w h c cs s
  | .index slot => Sys2Proof.Machine.execIndex slot s
  | .diff fr fg fb => Sys2Proof.Machine.execDiff fr fg fb s
  | .luma fg6 frg fbg => Sys2Proof.Machine.execLuma fg6 frg fbg s
  | .run runm1 => Sys2Proof.Machine.execRun runm1 s
  | .rgb r g b => Sys2Proof.Machine.execRgb r g b s
  | .rgba r g b a => Sys2Proof.Machine.execRgba r g b a s
  | .endMarker => Sys2Proof.Machine.execEndMarker s

end Sys2Proof.Machine
end

