-- ==== Sys2Proof/Machine/Decoder.lean ====
section
/-! DEFINITION. The decoder's serial machine `DecByte` (45_streaming.md R240 to R243): how the bytes of a record are gathered,
decoded and executed.
-/

namespace Sys2Proof.Machine

/-- A complete record: it is decoded and executed. Bytes that are no header or no end marker raise the error the spec
gives (43_framer.md R195, R198; log 14). -/
def runRecord (ctx : Context) (bytes : List Byte) (s : State) : Host.Outcome State Fault Refusal :=
  match decode ctx bytes with
  | .ok (i, _) => exec i s
  | .error .badMagic => .next (raise .malformedHeader .badMagic s)
  | .error .badEndMarker => .next (raise .missingEndMarker .none s)
  | .error .short => .refused .shortRecord

/-- After every chunk: the last pixel's chunk ends the chunk region (45_streaming.md R242). -/
def endChunk (s : State) : State := if s.pxCount = s.total then { s with phase := .dTrailer } else s

/-- `DecByte(b)` in D_HEADER (45_streaming.md R241). -/
def decByteHeader (b : Byte) (s : State) : Host.Outcome State Fault Refusal :=
  if (s.facc ++ [b]).length = headerLen then runRecord .header (s.facc ++ [b]) { s with facc := [] }
  else .next { s with facc := s.facc ++ [b] }

/-- `DecByte(b)` in D_CHUNKS (45_streaming.md R242). -/
def decByteChunks (b : Byte) (s : State) : Host.Outcome State Fault Refusal :=
  if (s.carry ++ [b]).length = chunkLen ((s.carry ++ [b]).headD 0) then
    match runRecord .chunk (s.carry ++ [b]) { s with carry := [] } with
    | .next t => .next (endChunk t)
    | .fault f => .fault f
    | .refused r => .refused r
  else .next { s with carry := s.carry ++ [b] }

/-- `DecByte(b)` in D_TRAILER (45_streaming.md R243). -/
def decByteTrailer (b : Byte) (s : State) : Host.Outcome State Fault Refusal :=
  if (s.facc ++ [b]).length = endLen then runRecord .trailer (s.facc ++ [b]) { s with facc := [] }
  else .next { s with facc := s.facc ++ [b] }

/-- `DecByte(b)`: one stream byte, by the phase alone (45_streaming.md R240). The walkers call it in the three phases
of the rule only. -/
def decByte (b : Byte) (s : State) : Host.Outcome State Fault Refusal :=
  match s.phase with
  | .dHeader => decByteHeader b s
  | .dChunks => decByteChunks b s
  | .dTrailer => decByteTrailer b s
  | .idle => .refused .recordOutOfPhase
  | .eBody => .refused .recordOutOfPhase
  | .eDone => .refused .recordOutOfPhase
  | .dDone => .refused .recordOutOfPhase
  | .failed => .refused .recordOutOfPhase

/-- Whether the decoder takes no further byte of the command: the end marker is seen, or the command has failed
(45_streaming.md R239, 44_oneshot.md R217). -/
def State.stopped (s : State) : Bool := decide (s.phase = .dDone) || decide (s.phase = .failed)

/-- The loop of DEC_PUSH, a fold of `DecByte` over the fragment (45_streaming.md R239, R247): how many bytes were taken,
and the state after them. -/
def pushBytes : List Byte → Nat → State → Host.Outcome (Nat × State) Fault Refusal
  | [], k, s => .next (k, s)
  | b :: bs, k, s =>
    if s.stopped then .next (k, s)
    else
      match decByte b s with
      | .next t => pushBytes bs (k + 1) t
      | .fault f => .fault f
      | .refused r => .refused r

/-- The loop of DECODE, the same fold of `DecByte` over the bytes of `STREAM` (44_oneshot.md R217, 45_streaming.md R247):
`n` bytes remain from `ip` up. -/
def decodeWalk : Nat → Nat → State → Host.Outcome State Fault Refusal
  | 0, _, s => if s.stopped then .next s else .next (raise .truncated .none s)
  | n + 1, ip, s =>
    if s.stopped then .next s
    else
      match s.stream.read ip with
      | none => .fault (.unprovidedByte .stream ip)
      | some b =>
        match decByte b s with
        | .next t => decodeWalk n (ip + 1) t
        | .fault f => .fault f
        | .refused r => .refused r

end Sys2Proof.Machine
end

