-- ==== Sys2Proof/Machine/Encoder.lean ====
section
/-! DEFINITION. The encoder's serial machine `EncPixel` (42_chunk_encode.md R160 to R172).
-/

namespace Sys2Proof.Machine

/-- `flush_run`: the RUN chunk of the pending run, if there is one (42_chunk_encode.md R163). -/
def flushRun (s : State) : State :=
  if s.run > 0 then { emit (encode (.run (BitVec.ofNat 6 (s.run - 1)))) s with run := 0 } else s

/-- The pixel extends the run, and a run of 62 is flushed at once (42_chunk_encode.md R161, R162). -/
def extendRun (s : State) : State :=
  if s.run + 1 = runMax then { emit (encode (.run 61)) { s with run := s.run + 1 } with run := 0 }
  else { s with run := s.run + 1 }

/-- The chunk of a pixel of equal alpha that is in no slot: DIFF, LUMA or RGB, the first that fits
(42_chunk_encode.md R165 to R168). -/
def selectDelta (p q : Pixel) : Instr :=
  let dr := delta p.r q.r
  let dg := delta p.g q.g
  let db := delta p.b q.b
  let drg := delta2 dr dg
  let dbg := delta2 db dg
  if fitsDiff dr dg db then .diff (biased 2 dr 2) (biased 2 dg 2) (biased 2 db 2)
  else if fitsLuma dg drg dbg then .luma (biased 6 dg 32) (biased 4 drg 8) (biased 4 dbg 8)
  else .rgb p.r p.g p.b

/-- The chunk of a pixel that differs from `prev`: policy steps 3 to 5, the first test that succeeds
(42_chunk_encode.md R160, R164, R169, R171). -/
def selectChunk (p : Pixel) (s : State) : Instr :=
  if s.indexGet (hash p) = p then .index (hash p)
  else if p.a = s.prev.a then selectDelta p s.prev
  else .rgba p.r p.g p.b p.a

/-- `EncPixel(p)` (42_chunk_encode.md R160). The commands call it in phase E_BODY with `px_count < total` only. -/
def encPixel (p : Pixel) (s : State) : State :=
  if p = s.prev then extendRun { s with pxCount := s.pxCount + 1 }
  else
    let t := flushRun { s with pxCount := s.pxCount + 1 }
    writeBack p (emit (encode (selectChunk p t)) t)

/-- A fragment is a grouping of `EncPixel` calls, so its cut plays no part (45_streaming.md R233, R247). -/
def encPixels : List Pixel → State → State
  | [], s => s
  | p :: ps, s => encPixels ps (encPixel p s)

/-- The loop of ENCODE, the same fold of `EncPixel` over the pixels of `PIX` (44_oneshot.md R212, 45_streaming.md R247):
`n` pixels remain from number `i` up. -/
def encodeWalk : Nat → Nat → State → Host.Outcome State Fault Refusal
  | 0, _, s => .next s
  | n + 1, i, s =>
    match s.pix.readBytes (i * s.channels.toNat) s.channels.toNat with
    | .error a => .fault (.unprovidedByte .pix a)
    | .ok bytes => encodeWalk n (i + 1) (encPixel (pixelFromBytes s.channels bytes) s)

/-- The end of an image: the pending run, then the end marker (45_streaming.md R236, 44_oneshot.md R213). -/
def finishImage (s : State) : State := { emit (encode .endMarker) (flushRun s) with phase := .eDone }

end Sys2Proof.Machine
end

