-- ==== Sys2Proof/Machine/Commands.lean ====
section
/-! DEFINITION. The nine commands of the host (00_scope.md R8), each one atomic transition.
-/

namespace Sys2Proof.Machine

/-- RESET (70_reset_and_hazards.md R290): legal in every phase, returns nothing. -/
def cmdReset (s : State) : Host.Outcome State Fault Refusal :=
  .next { resetInstance s with reply := some .nothing }

/-- ENC_BEGIN (45_streaming.md R231). -/
def cmdEncBegin (w h : Dim) (c cs : Byte) (s : State) : Host.Outcome State Fault Refusal :=
  if s.phase ≠ .idle then .next (refuse .badPhase s)
  else
    let t := checkFields w h c cs (openCommand .byValue s)
    if t.phase = .failed then .next (closeFailed t)
    else .next (closeCommand (.bytes (encode (.header w h c cs))) { t with phase := .eBody })

/-- ENC_PUSH (45_streaming.md R233, R234); it reads `total` and `channels`. -/
def cmdEncPush (pixels : List Pixel) (s : State) : Host.Outcome State Fault Refusal :=
  if s.phase ≠ .eBody then .next (refuse .badPhase s)
  else
    readingHeader s
      (if s.pxCount + pixels.length > s.total then .next (refuse .tooManyPixels s)
      else
        let t := encPixels (pixels.map (pushedPixel s.channels)) (openCommand .byValue s)
        .next (closeCommand (.bytes t.out) t))

/-- ENC_FINISH (45_streaming.md R236, R237); it reads `total`. -/
def cmdEncFinish (s : State) : Host.Outcome State Fault Refusal :=
  if s.phase ≠ .eBody then .next (refuse .badPhase s)
  else
    readingHeader s
      (if s.pxCount ≠ s.total then .next (refuse .pixelCountShort s)
      else
        let t := finishImage (openCommand .byValue s)
        .next (closeCommand (.bytes t.out) t))

/-- DEC_BEGIN (45_streaming.md R238). -/
def cmdDecBegin (s : State) : Host.Outcome State Fault Refusal :=
  if s.phase ≠ .idle then .next (refuse .badPhase s)
  else .next (closeCommand .ok { s with phase := .dHeader })

/-- DEC_PUSH (45_streaming.md R239, R244). -/
def cmdDecPush (frag : List Byte) (s : State) : Host.Outcome State Fault Refusal :=
  if s.phase.accepts (.decPush frag) = false then .next (refuse .badPhase s)
  else
    match pushBytes frag 0 (openCommand .byValue s) with
    | .next (k, t) =>
      if t.phase = .failed then .next (closeFailed t)
      else .next (closeCommand (.pushed t.hdrEvent t.out k) t)
    | .fault f => .fault f
    | .refused r => .refused r

/-- DEC_FINISH (45_streaming.md R245). -/
def cmdDecFinish (s : State) : Host.Outcome State Fault Refusal :=
  if s.phase = .dDone then .next (closeCommand .ok s)
  else if s.phase.accepts .decFinish then .next (closeFailed (raise .truncated .none s))
  else .next (refuse .badPhase s)

/-- The worst-case stream length ENCODE demands (44_oneshot.md R211, 20_memory.md R62). -/
def worstCase (total : Nat) (c : Byte) : Nat := headerLen + total * (c.toNat + 1) + endLen

/-- ENCODE once its fields are accepted: the capacity check, the header, the walk, the end (44_oneshot.md R211, R212,
R213). -/
def encodeBody (hdr : Instr) (c : Byte) (cap : Nat) (s : State) : Host.Outcome State Fault Refusal :=
  if cap < worstCase s.total c then .next (closeFailed (raise .outputBufferTooSmall .none s))
  else
    match encodeWalk s.total 0 (emit (encode hdr) { s with phase := .eBody }) with
    | .next t => .next (closeCommand (.encoded (finishImage t).cursor) (finishImage t))
    | .fault f => .fault f
    | .refused r => .refused r

/-- ENCODE (44_oneshot.md R210 to R213). -/
def cmdEncode (w h : Dim) (c cs : Byte) (plen cap : Nat) (s : State) : Host.Outcome State Fault Refusal :=
  if s.phase ≠ .idle then .next (refuse .badPhase s)
  else if (c = 3 ∨ c = 4) ∧ plen ≠ w.toNat * h.toNat * c.toNat then .next (refuse .badPixelBufferLength s)
  else
    let t := checkFields w h c cs (openCommand (.inSpaces 0) s)
    if t.phase = .failed then .next (closeFailed t) else encodeBody (.header w h c cs) c cap t

/-- A failed DECODE (44_oneshot.md R222; log 7). -/
def failDecode (cap : Nat) (s : State) : State := closeFailed (unspecifiedPix cap s)

/-- DECODE once its header is accepted: the capacity check, then the walk (44_oneshot.md R216, R217). -/
def decodeBody (slen cap : Nat) (s : State) : Host.Outcome State Fault Refusal :=
  if cap < s.total * s.channels.toNat then .next (failDecode cap (raise .outputBufferTooSmall .none s))
  else
    match decodeWalk (slen - headerLen) headerLen s with
    | .next t =>
      if t.phase = .failed then .next (failDecode cap t)
      else .next (closeCommand (.decoded ⟨t.width, t.height, t.channels, t.colorspace⟩ (t.total * t.channels.toNat)) t)
    | .fault f => .fault f
    | .refused r => .refused r

/-- DECODE (44_oneshot.md R215 to R218). Its header is executed as the record it is, so the command passes through
D_HEADER inside its one transition (log 15). -/
def cmdDecode (slen cap : Nat) (s : State) : Host.Outcome State Fault Refusal :=
  if s.phase ≠ .idle then .next (refuse .badPhase s)
  else if slen < headerLen then .next (failDecode cap (raise .truncated .none s))
  else
    match s.stream.readBytes 0 headerLen with
    | .error a => .fault (.unprovidedByte .stream a)
    | .ok hb =>
      match runRecord .header hb { openCommand (.inSpaces 0) s with phase := .dHeader } with
      | .next t => if t.phase = .failed then .next (failDecode cap t) else decodeBody slen cap t
      | .fault f => .fault f
      | .refused r => .refused r

/-- One command of the host (00_scope.md R7, R8). -/
def command (c : Command) (s : State) : Host.Outcome State Fault Refusal :=
  match c with
  | .reset => cmdReset s
  | .encBegin w h c cs => cmdEncBegin w h c cs s
  | .encPush pixels => cmdEncPush pixels s
  | .encFinish => cmdEncFinish s
  | .decBegin => cmdDecBegin s
  | .decPush frag => cmdDecPush frag s
  | .decFinish => cmdDecFinish s
  | .encode w h c cs plen cap => cmdEncode w h c cs plen cap s
  | .decode slen cap => cmdDecode slen cap s

/-- An image of 64 by 1 pixels of 4 channels whose header has just been accepted (log 12). -/
def openImage (s : State) : State :=
  { s with
    hdrValid := true
    width := 64
    height := 1
    channels := 4
    colorspace := 0
    total := 64
    pxCount := 0 }

/-- The state with the decoder at the start of a record of the context: the phase is that of the context, the record
buffers are empty, and the header registers are those of an accepted header where the context needs one and the state
has none (log 12). -/
def State.atContext (ctx : Context) (s : State) : State :=
  match ctx with
  | .header => { s with phase := .dHeader, carry := [], facc := [] }
  | .chunk =>
    let t := if s.hdrValid = true ∧ s.pxCount < s.total then s else openImage s
    { t with phase := .dChunks, carry := [], facc := [] }
  | .trailer =>
    let t := if s.hdrValid = true then s else openImage s
    { t with pxCount := t.total, phase := .dTrailer, carry := [], facc := [] }

end Sys2Proof.Machine
end

