-- ==== Sys2Proof/Machine/Step.lean ====
section
/-! DEFINITION. The step: the oldest command the host has issued, performed whole (00_scope.md R7, R8). The bytes of a DEC_PUSH
or of DECODE's STREAM are the instruction stream: `decByte` gathers a record from them, decodes and executes it.
-/

namespace Sys2Proof.Machine

/-- One step. With no command issued the instance holds its state (70_reset_and_hazards.md R292, 60_exceptions.md
R279; log 3). -/
def step (s : State) : Host.Outcome State Fault Refusal :=
  match s.cmds with
  | [] => .next s
  | c :: rest => command c { s with cmds := rest }

/-- The table's instruction put where the next step fetches: the decoder stands at the start of a record of its
context and the host's next command is a DEC_PUSH of exactly the record's bytes (log 12). -/
def State.withFetchWord (s : State) (nbits w : Nat) : State :=
  { s.atContext (contextOfWidth nbits) with cmds := [.decPush (recordBytes nbits w)] }

end Sys2Proof.Machine
end

