-- ==== Sys2Proof/Safety.lean ====
section
/-! DEFINITION. What counts as a safe run, when an instruction may run, and the invariant of the states between commands.
-/

namespace Sys2Proof.Machine

/-- No error recorded (60_exceptions.md R274). -/
def State.noError (s : State) : Prop := s.err.kind = .none

/-- A stream has been completely and correctly processed (60_exceptions.md R274). -/
def State.completed (s : State) : Prop := s.phase = .eDone ∨ s.phase = .dDone

/-- A chunk may be executed: phase D_CHUNKS with an accepted header and a pixel still due (41_chunk_decode.md R130,
R142). -/
def State.chunkReady (s : State) : Prop :=
  s.phase = .dChunks ∧ s.hdrValid = true ∧ s.pxCount < s.total ∧ (s.channels = 3 ∨ s.channels = 4)

/-- The phase in which a record of the context is executed (30_encoding.md R89). -/
def phaseOf : Context → Phase
  | .header => .dHeader
  | .chunk => .dChunks
  | .trailer => .dTrailer

/-- The header fields the checks accept (43_framer.md R194). -/
def acceptedFields (cfg : Config) (w h : Dim) (c cs : Byte) : Prop :=
  (c = 3 ∨ c = 4) ∧ (cs = 0 ∨ cs = 1) ∧ (cfg.zeroDimAccept = true ∨ (w ≠ 0 ∧ h ≠ 0)) ∧
    w.toNat * h.toNat ≤ cfg.pixelLimit

/-- Where one command other than RESET can take the phase: the table of 45_streaming.md R246 with the events of one
command put together. -/
def Phase.reaches : Phase → Phase → Prop
  | .idle, q => q = .idle ∨ q = .eBody ∨ q = .eDone ∨ q = .dHeader ∨ q = .dDone ∨ q = .failed
  | .eBody, q => q = .eBody ∨ q = .eDone
  | .eDone, q => q = .eDone
  | .dHeader, q => q = .dHeader ∨ q = .dChunks ∨ q = .dTrailer ∨ q = .dDone ∨ q = .failed
  | .dChunks, q => q = .dChunks ∨ q = .dTrailer ∨ q = .dDone ∨ q = .failed
  | .dTrailer, q => q = .dTrailer ∨ q = .dDone ∨ q = .failed
  | .dDone, q => q = .dDone
  | .failed, q => q = .failed

/-! ### The invariant, part by part -/

/-- The registers the format depends on have their reset values (70_reset_and_hazards.md R291), and no pixel is
counted. -/
def State.fresh (s : State) : Prop :=
  s.prev = resetPixel ∧ s.run = 0 ∧ s.index = Vector.replicate 64 zeroPixel ∧ s.pxCount = 0

/-- What the header registers hold once they are valid (10_state.md R32, R33). -/
def State.headerLegal (s : State) : Prop :=
  acceptedFields s.cfg s.width s.height s.channels s.colorspace ∧ s.total = s.width.toNat * s.height.toNat

/-- What each phase says of the header, the counters and the buffers (10_state.md R21, R26, R27, R36, R37;
70_reset_and_hazards.md R297). In FAILED the registers are as they were at the error (60_exceptions.md R270). -/
def State.phaseInv (s : State) : Prop :=
  match s.phase with
  | .idle => s.hdrValid = false ∧ s.fresh ∧ s.carry = [] ∧ s.facc = []
  | .eBody => s.hdrValid = true ∧ s.pxCount ≤ s.total ∧ s.run ≤ 61 ∧ s.carry = [] ∧ s.facc = []
  | .eDone => s.hdrValid = true ∧ s.pxCount = s.total ∧ s.run = 0 ∧ s.carry = [] ∧ s.facc = []
  | .dHeader => s.hdrValid = false ∧ s.fresh ∧ s.carry = [] ∧ s.facc.length ≤ 13
  | .dChunks =>
    s.hdrValid = true ∧ s.pxCount < s.total ∧ s.run = 0 ∧ s.facc = [] ∧
      (s.carry = [] ∨ s.carry.length < chunkLen (s.carry.headD 0))
  | .dTrailer => s.hdrValid = true ∧ s.pxCount = s.total ∧ s.run = 0 ∧ s.carry = [] ∧ s.facc.length ≤ 7
  | .dDone => s.hdrValid = true ∧ s.pxCount = s.total ∧ s.run = 0 ∧ s.carry = [] ∧ s.facc = []
  | .failed =>
    (s.hdrValid = false → s.pxCount = 0) ∧ (s.hdrValid = true → s.pxCount ≤ s.total) ∧ s.run = 0 ∧
      s.carry.length ≤ 4 ∧ s.facc.length ≤ 13

/-- Every slot holds its reset pixel or a pixel whose hash is the slot's number (40_pixel_hash_index.md R116). -/
def State.slotsHashed (s : State) : Prop := ∀ k : Slot, s.indexGet k = zeroPixel ∨ hash (s.indexGet k) = k

/-- The previous pixel stands in its own slot, unless nothing but runs of the reset pixel has been seen
(40_pixel_hash_index.md R118). -/
def State.prevStored (s : State) : Prop := s.prev = resetPixel ∨ s.indexGet (hash s.prev) = s.prev

/-- Alpha is 255 throughout a 3-channel image, in the encoder (42_chunk_encode.md R170) and, under `force255`, in the
decoder (41_chunk_decode.md R143); an unwritten slot still holds the reset pixel. -/
def State.alphaFixed (s : State) : Prop :=
  s.hdrValid = true → s.channels = 3 →
    (s.cfg.rgbAlphaPolicy = .force255 ∨ s.phase = .eBody ∨ s.phase = .eDone) →
      s.prev.a = 255 ∧ ∀ k : Slot, s.indexGet k = zeroPixel ∨ (s.indexGet k).a = 255

/-- The error latch: clear exactly outside FAILED, with a sub-cause exactly for `MalformedHeader` (10_state.md R31,
60_exceptions.md R261, R274). -/
def State.errInv (s : State) : Prop :=
  (s.err.kind = .none ↔ s.phase ≠ .failed) ∧ (s.err.sub = .none ↔ s.err.kind ≠ .malformedHeader)

/-- Nothing of a command is left when it has returned (00_scope.md R7, R8). -/
def State.betweenCommands (s : State) : Prop := s.out = [] ∧ s.hdrEvent = none ∧ s.walker = .byValue

/-- The invariant of the states between commands. -/
structure State.Inv (s : State) : Prop where
  /-- The parameters are ones 00_scope.md R9 allows. -/
  config : s.cfg.legal = true
  /-- Both spaces are in canonical form (log 6). -/
  spaces : s.pix.wf ∧ s.stream.wf
  /-- Valid header registers hold an accepted header. -/
  header : s.hdrValid = true → s.headerLegal
  /-- What the phase says. -/
  phase : s.phaseInv
  /-- The index. -/
  slots : s.slotsHashed
  /-- The previous pixel. -/
  stored : s.prevStored
  /-- Alpha in 3-channel images. -/
  alpha : s.alphaFixed
  /-- The latch. -/
  error : s.errInv
  /-- The command's own fields. -/
  between : s.betweenCommands

end Sys2Proof.Machine
end

