-- ==== Sys2Proof/Certificates/Slice0/Obligations.lean ====
section
/-! DEFINITION. The statements for the provers. Each docstring names the rules of the spec it comes from.
-/

open Sys2Proof Sys2Proof.Machine

/-! ### Encoding (30_encoding.md) -/

/-- R86, R87, R89: for every record the encoding admits, with every operand value, decoding its bytes in its context
gives the record back and leaves what follows. -/
def Obligations.DecodeOfEncodeIsIdentity : Prop :=
  ∀ (i : Instr) (rest : List Byte), i.encodable = true → decode i.context (encode i ++ rest) = .ok (i, rest)

/-- R81, R84, R89: bytes decode to one record only, whose encoding they are; what a context decodes is a record of that
context, and a RUN field is never 62 or 63. -/
def Obligations.EncodeOfDecodeIsIdentity : Prop :=
  ∀ (ctx : Context) (bytes : List Byte) (i : Instr) (rest : List Byte), decode ctx bytes = .ok (i, rest) →
    i.encodable = true ∧ i.context = ctx ∧ encode i ++ rest = bytes

/-- R84: the complete map of first-byte values, with the length and the field values of each range. -/
def Obligations.FirstByteMapCoversEveryByte : Prop :=
  ∀ (b0 b1 b2 b3 b4 : Byte) (rest : List Byte),
    (b0.toNat ≤ 0x3F →
      decode .chunk (b0 :: b1 :: b2 :: b3 :: b4 :: rest) =
        .ok (.index (BitVec.ofNat 6 b0.toNat), b1 :: b2 :: b3 :: b4 :: rest)) ∧
    (0x40 ≤ b0.toNat → b0.toNat ≤ 0x7F →
      decode .chunk (b0 :: b1 :: b2 :: b3 :: b4 :: rest) =
        .ok (.diff (BitVec.ofNat 2 (b0.toNat / 16)) (BitVec.ofNat 2 (b0.toNat / 4)) (BitVec.ofNat 2 b0.toNat),
          b1 :: b2 :: b3 :: b4 :: rest)) ∧
    (0x80 ≤ b0.toNat → b0.toNat ≤ 0xBF →
      decode .chunk (b0 :: b1 :: b2 :: b3 :: b4 :: rest) =
        .ok (.luma (BitVec.ofNat 6 b0.toNat) (BitVec.ofNat 4 (b1.toNat / 16)) (BitVec.ofNat 4 b1.toNat),
          b2 :: b3 :: b4 :: rest)) ∧
    (0xC0 ≤ b0.toNat → b0.toNat ≤ 0xFD →
      decode .chunk (b0 :: b1 :: b2 :: b3 :: b4 :: rest) =
        .ok (.run (BitVec.ofNat 6 b0.toNat), b1 :: b2 :: b3 :: b4 :: rest)) ∧
    (b0.toNat = 0xFE →
      decode .chunk (b0 :: b1 :: b2 :: b3 :: b4 :: rest) = .ok (.rgb b1 b2 b3, b4 :: rest)) ∧
    (b0.toNat = 0xFF →
      decode .chunk (b0 :: b1 :: b2 :: b3 :: b4 :: rest) = .ok (.rgba b1 b2 b3 b4, rest))

/-- R83: the length of a chunk is a function of its first byte alone: with that many bytes present the chunk decodes
and leaves exactly the rest, with fewer it does not. -/
def Obligations.ChunkLengthIsFunctionOfFirstByte : Prop :=
  ∀ (b0 : Byte) (tail : List Byte), ∃ n : Nat,
    ((b0.toNat = 0xFE ∧ n = 4) ∨ (b0.toNat = 0xFF ∧ n = 5) ∨ (0x80 ≤ b0.toNat ∧ b0.toNat ≤ 0xBF ∧ n = 2) ∨
      (b0.toNat < 0x80 ∧ n = 1) ∨ (0xC0 ≤ b0.toNat ∧ b0.toNat ≤ 0xFD ∧ n = 1)) ∧
    chunkLen b0 = n ∧
    (n ≤ (b0 :: tail).length → ∃ i, decode .chunk (b0 :: tail) = .ok (i, (b0 :: tail).drop n)) ∧
    ((b0 :: tail).length < n → decode .chunk (b0 :: tail) = .error .short)

/-- R54, R195: the header's fields are big-endian at their offsets, and the magic is compared byte for byte. -/
def Obligations.HeaderFieldsAreBigEndian : Prop :=
  ∀ (m0 m1 m2 m3 w0 w1 w2 w3 h0 h1 h2 h3 c cs : Byte) (rest : List Byte),
    ([m0, m1, m2, m3] = [0x71, 0x6F, 0x69, 0x66] →
      ∃ w h : Dim,
        decode .header (m0 :: m1 :: m2 :: m3 :: w0 :: w1 :: w2 :: w3 :: h0 :: h1 :: h2 :: h3 :: c :: cs :: rest) =
          .ok (.header w h c cs, rest) ∧
        w.toNat = w0.toNat * 2 ^ 24 + w1.toNat * 2 ^ 16 + w2.toNat * 2 ^ 8 + w3.toNat ∧
        h.toNat = h0.toNat * 2 ^ 24 + h1.toNat * 2 ^ 16 + h2.toNat * 2 ^ 8 + h3.toNat) ∧
    ([m0, m1, m2, m3] ≠ [0x71, 0x6F, 0x69, 0x66] →
      decode .header (m0 :: m1 :: m2 :: m3 :: w0 :: w1 :: w2 :: w3 :: h0 :: h1 :: h2 :: h3 :: c :: cs :: rest) =
        .error .badMagic)

/-- R81, R84, R86 (a sanity statement): words written out from the encodings decode to the records they stand for. -/
def Obligations.SpecWordsDecodeToTheirRecords : Prop :=
  decode .chunk [0b00001001] = .ok (.index 9, []) ∧
  decode .chunk [0b01110100] = .ok (.diff 3 1 0, []) ∧
  decode .chunk [0b10110100, 0b11010101] = .ok (.luma 52 13 5, []) ∧
  decode .chunk [0b11111101] = .ok (.run 61, []) ∧
  decode .chunk [0b11111110, 1, 2, 3] = .ok (.rgb 1 2 3, []) ∧
  decode .chunk [0b11111111, 1, 2, 3, 4] = .ok (.rgba 1 2 3 4, []) ∧
  decode .header [0x71, 0x6F, 0x69, 0x66, 0, 0, 0, 3, 0, 0, 0, 1, 3, 0] = .ok (.header 3 1 3 0, []) ∧
  decode .trailer [0, 0, 0, 0, 0, 0, 0, 1] = .ok (.endMarker, [])

/-! ### The hash and the running index (40_pixel_hash_index.md) -/

/-- R113, R114: the hash is the formula on unbounded integers; the sum fits 13 bits; 16-bit arithmetic and 8-bit
wrapping arithmetic followed by taking the low 6 bits give the same slot. -/
def Obligations.HashIsTheFormulaInAnyWidth : Prop :=
  ∀ p : Pixel,
    (hash p).toNat = (p.r.toNat * 3 + p.g.toNat * 5 + p.b.toNat * 7 + p.a.toNat * 11) % 64 ∧
    p.r.toNat * 3 + p.g.toNat * 5 + p.b.toNat * 7 + p.a.toNat * 11 ≤ 6630 ∧
    hash p = (p.r.setWidth 16 * 3 + p.g.setWidth 16 * 5 + p.b.setWidth 16 * 7 + p.a.setWidth 16 * 11).setWidth 6 ∧
    hash p = (p.r * 3 + p.g * 5 + p.b * 7 + p.a * 11).setWidth 6

/-! ### The chunks, decode side (41_chunk_decode.md) -/

/-- R132: INDEX produces the pixel of its slot, all four channels, with `alpha_fix` (R143) applied. -/
def Obligations.IndexChunkGivesTheSlotsPixel : Prop :=
  ∀ (s : State) (slot : Slot), s.chunkReady →
    decode .chunk [BitVec.ofNat 8 slot.toNat] = .ok (.index slot, []) ∧
    ∃ t, exec (.index slot) s = .next t ∧
      t.prev.r = (s.indexGet slot).r ∧ t.prev.g = (s.indexGet slot).g ∧ t.prev.b = (s.indexGet slot).b ∧
      t.prev.a = if s.channels = 3 ∧ s.cfg.rgbAlphaPolicy = .force255 then 255 else (s.indexGet slot).a

/-- R134, R133: DIFF adds its biased deltas to the previous pixel, each channel modulo 256; alpha is that of `prev`,
with `alpha_fix` (R143) applied. -/
def Obligations.DiffChunkAddsItsDeltas : Prop :=
  ∀ (s : State) (fr fg fb : BitVec 2), s.chunkReady →
    decode .chunk [BitVec.ofNat 8 (64 + 16 * fr.toNat + 4 * fg.toNat + fb.toNat)] = .ok (.diff fr fg fb, []) ∧
    ∃ t, exec (.diff fr fg fb) s = .next t ∧
      (t.prev.r.toNat : Int) = (s.prev.r.toNat + fr.toNat - 2 : Int) % 256 ∧
      (t.prev.g.toNat : Int) = (s.prev.g.toNat + fg.toNat - 2 : Int) % 256 ∧
      (t.prev.b.toNat : Int) = (s.prev.b.toNat + fb.toNat - 2 : Int) % 256 ∧
      t.prev.a = if s.channels = 3 ∧ s.cfg.rgbAlphaPolicy = .force255 then 255 else s.prev.a

/-- R135, R133: LUMA adds `dg + drg`, `dg`, `dg + dbg`, each channel modulo 256; alpha is that of `prev`, with
`alpha_fix` (R143) applied. -/
def Obligations.LumaChunkAddsItsDeltas : Prop :=
  ∀ (s : State) (fg6 : BitVec 6) (frg fbg : BitVec 4), s.chunkReady →
    decode .chunk [BitVec.ofNat 8 (128 + fg6.toNat), BitVec.ofNat 8 (16 * frg.toNat + fbg.toNat)] =
      .ok (.luma fg6 frg fbg, []) ∧
    ∃ t, exec (.luma fg6 frg fbg) s = .next t ∧
      (t.prev.r.toNat : Int) = (s.prev.r.toNat + (fg6.toNat - 32) + (frg.toNat - 8) : Int) % 256 ∧
      (t.prev.g.toNat : Int) = (s.prev.g.toNat + (fg6.toNat - 32) : Int) % 256 ∧
      (t.prev.b.toNat : Int) = (s.prev.b.toNat + (fg6.toNat - 32) + (fbg.toNat - 8) : Int) % 256 ∧
      t.prev.a = if s.channels = 3 ∧ s.cfg.rgbAlphaPolicy = .force255 then 255 else s.prev.a

/-- R136: RGB gives its literal bytes, whatever their value, and the alpha of `prev`, with `alpha_fix` (R143)
applied. -/
def Obligations.RgbChunkIsLiteral : Prop :=
  ∀ (s : State) (r g b : Byte), s.chunkReady →
    decode .chunk [0xFE, r, g, b] = .ok (.rgb r g b, []) ∧
    ∃ t, exec (.rgb r g b) s = .next t ∧
      t.prev = ⟨r, g, b, if s.channels = 3 ∧ s.cfg.rgbAlphaPolicy = .force255 then 255 else s.prev.a⟩

/-- R138: RGBA gives its four literal bytes; in a 3-channel stream `alpha_fix` (R143) decides the alpha. -/
def Obligations.RgbaChunkIsLiteral : Prop :=
  ∀ (s : State) (r g b a : Byte), s.chunkReady →
    decode .chunk [0xFF, r, g, b, a] = .ok (.rgba r g b a, []) ∧
    ∃ t, exec (.rgba r g b a) s = .next t ∧
      t.prev = ⟨r, g, b, if s.channels = 3 ∧ s.cfg.rgbAlphaPolicy = .force255 then 255 else a⟩

/-- R137, R141: RUN outputs the previous pixel `min(runm1 + 1, total - px_count)` times, by value or into `PIX`, and
leaves `prev` and the whole index alone. -/
def Obligations.RunChunkRepeatsThePreviousPixel : Prop :=
  ∀ (s : State) (m : BitVec 6), s.chunkReady → m.toNat ≤ 61 →
    decode .chunk [BitVec.ofNat 8 (192 + m.toNat)] = .ok (.run m, []) ∧
    ∃ (n : Nat) (px : List Byte) (t : State),
      n = min (m.toNat + 1) (s.total - s.pxCount) ∧
      px = (if s.channels = 4 then [s.prev.r, s.prev.g, s.prev.b, s.prev.a] else [s.prev.r, s.prev.g, s.prev.b]) ∧
      exec (.run m) s = .next t ∧ 1 ≤ n ∧ t.pxCount = s.pxCount + n ∧ t.prev = s.prev ∧ t.index = s.index ∧
      (s.walker = .byValue → t.out = s.out ++ (List.replicate n px).flatten ∧ t.pix = s.pix) ∧
      (∀ op, s.walker = .inSpaces op → t.out = s.out ∧
        ∀ a, t.pix.read a =
          if s.pxCount * s.channels.toNat ≤ a ∧ a < (s.pxCount + n) * s.channels.toNat then
            px[(a - s.pxCount * s.channels.toNat) % s.channels.toNat]?
          else s.pix.read a)

/-- R140, R141, R145, R218: every chunk but RUN writes its pixel to the slot of the pixel's hash and to no other slot,
and outputs it once, by value or into `PIX` at `px_count * channels` and nowhere else. -/
def Obligations.OnePixelChunkWritesBackAndOutputs : Prop :=
  ∀ (s : State) (i : Instr), s.chunkReady → i.context = .chunk → (∀ m, i ≠ .run m) →
    ∃ (t : State) (px : List Byte), exec i s = .next t ∧
      px = (if s.channels = 4 then [t.prev.r, t.prev.g, t.prev.b, t.prev.a] else [t.prev.r, t.prev.g, t.prev.b]) ∧
      (∀ k : Slot, t.indexGet k = if k = hash t.prev then t.prev else s.indexGet k) ∧
      t.pxCount = s.pxCount + 1 ∧
      (s.walker = .byValue → t.out = s.out ++ px ∧ t.pix = s.pix) ∧
      (∀ op, s.walker = .inSpaces op → t.out = s.out ∧
        ∀ a, t.pix.read a =
          if s.pxCount * s.channels.toNat ≤ a ∧ a < (s.pxCount + 1) * s.channels.toNat then
            px[a - s.pxCount * s.channels.toNat]?
          else s.pix.read a)

/-- R130, R144: the frame of the six chunks. A chunk that is executed never writes `run`, `carry`, `facc`, `phase`,
`err`, `hdr_valid`, the header registers, `total`, STREAM, the parameters or what the host has issued; and it is
executed in D_CHUNKS only, with a valid header and a pixel due. -/
def Obligations.ChunkFrame : Prop :=
  ∀ (i : Instr) (s t : State), i.context = .chunk → exec i s = .next t →
    t = { s with prev := t.prev, index := t.index, pxCount := t.pxCount, out := t.out, pix := t.pix } ∧
    s.phase = .dChunks ∧ s.hdrValid = true ∧ s.pxCount < s.total

/-- R89, R130, R142, R30: a record runs in the phase of its context only, a chunk only with a valid header and a pixel
due; in every other state it stops, by name. That a header register without a value is a fault is R30's; the two refusals
are the model's, log 11. -/
def Obligations.RecordsRunInTheirPhaseOnly : Prop :=
  ∀ (i : Instr) (s : State),
    (s.phase ≠ phaseOf i.context → exec i s = .refused .recordOutOfPhase) ∧
    (i.context = .chunk → s.phase = .dChunks → s.hdrValid = false → exec i s = .fault .headerValueless) ∧
    (i.context = .chunk → s.phase = .dChunks → s.hdrValid = true → s.total ≤ s.pxCount →
      exec i s = .refused .noPixelDue)

/-! ### The framing records (43_framer.md) -/

/-- R194, R195, R241: a header with legal fields is accepted: the registers, `total` and `hdr_valid` are written, the
header event is set, the phase is that of the body, and nothing else changes. -/
def Obligations.HeaderRecordIsAccepted : Prop :=
  ∀ (s : State) (w h : Dim) (c cs : Byte), s.phase = .dHeader →
    (c = 3 ∨ c = 4) → (cs = 0 ∨ cs = 1) → (s.cfg.zeroDimAccept = true ∨ (w ≠ 0 ∧ h ≠ 0)) →
    w.toNat * h.toNat ≤ s.cfg.pixelLimit →
    exec (.header w h c cs) s = .next
      { s with
        width := w
        height := h
        channels := c
        colorspace := cs
        total := w.toNat * h.toNat
        hdrValid := true
        hdrEvent := some ⟨w, h, c, cs⟩
        phase := if w.toNat * h.toNat = 0 then .dTrailer else .dChunks }

/-- R194, R192, R193, R263, R264, R269, R270: a header with an illegal field raises the first error in the fixed order
channels, colorspace, zero dimension, dimension limit; only `err` and `phase` change. -/
def Obligations.HeaderRecordErrorsInOrder : Prop :=
  ∀ (s : State) (w h : Dim) (c cs : Byte), s.phase = .dHeader → s.err.kind = .none →
    ¬ acceptedFields s.cfg w h c cs →
    exec (.header w h c cs) s = .next
      { s with
        phase := .failed
        err :=
          if ¬ (c = 3 ∨ c = 4) then ⟨.malformedHeader, .badChannels⟩
          else if ¬ (cs = 0 ∨ cs = 1) then ⟨.malformedHeader, .badColorspace⟩
          else if (w = 0 ∨ h = 0) ∧ s.cfg.zeroDimAccept = false then ⟨.malformedHeader, .zeroDimension⟩
          else ⟨.dimensionsOverflow, .none⟩ }

/-- R198, R243: the end marker ends the stream, and changes the phase alone. -/
def Obligations.EndRecordEndsTheStream : Prop :=
  ∀ s : State, s.phase = .dTrailer → exec .endMarker s = .next { s with phase := .dDone }

/-! ### The decoder's stream (45_streaming.md) -/

/-- R7, R239 to R243: a step runs the decoded record. When the next command is a DEC_PUSH whose bytes are the bytes of
a record of the phase's context, the step is `exec` of that record, then the end of the chunk region if the last pixel
is out (R242), then the return of the command's result. -/
def Obligations.StepRunsTheDecodedRecord : Prop :=
  ∀ (s : State) (ctx : Context) (bytes : List Byte) (i : Instr) (rest : List Command),
    s.phase = phaseOf ctx → s.carry = [] → s.facc = [] → s.cmds = .decPush bytes :: rest →
    decode ctx bytes = .ok (i, []) →
    step s =
      match exec i { s with cmds := rest, out := [], hdrEvent := none, walker := .byValue } with
      | .next t =>
        let u := if ctx = .chunk ∧ t.pxCount = t.total then { t with phase := .dTrailer } else t
        .next
          { u with
            out := []
            hdrEvent := none
            walker := .byValue
            reply :=
              if u.phase = .failed then some (.error u.err.kind u.err.sub)
              else some (.pushed u.hdrEvent u.out bytes.length) }
      | .fault f => .fault f
      | .refused r => .refused r

/-- R195, R198, R263, R267, R270: fourteen header bytes with another magic raise `MalformedHeader(BadMagic)`, and eight
trailer bytes that are not the end marker raise `MissingEndMarker`; only `err` and `phase` change. -/
def Obligations.BadFramingBytesRaise : Prop :=
  ∀ (s : State) (bytes : List Byte) (rest : List Command),
    s.err.kind = .none → s.facc = [] → s.cmds = .decPush bytes :: rest →
    (s.phase = .dHeader → bytes.length = 14 → bytes.take 4 ≠ [0x71, 0x6F, 0x69, 0x66] →
      step s = .next
        { s with
          cmds := rest, out := [], hdrEvent := none, walker := .byValue, phase := .failed
          err := ⟨.malformedHeader, .badMagic⟩
          reply := some (.error .malformedHeader .badMagic) }) ∧
    (s.phase = .dTrailer → bytes.length = 8 → bytes ≠ [0, 0, 0, 0, 0, 0, 0, 1] →
      step s = .next
        { s with
          cmds := rest, out := [], hdrEvent := none, walker := .byValue, phase := .failed
          err := ⟨.missingEndMarker, .none⟩
          reply := some (.error .missingEndMarker .none) })

/-- R247, R240: decoding does not depend on how the stream is cut. One DEC_PUSH of `a ++ b` leaves the state that
DEC_PUSH of `a` and then of `b` leave; the pixels are concatenated, the counts added, the header event is that of
whichever push yields it; and an error is the same error, reported by the push that delivers its byte. -/
def Obligations.DecodingIgnoresFragmentation : Prop :=
  ∀ (s t : State) (a b : List Byte),
    (s.phase = .dHeader ∨ s.phase = .dChunks ∨ s.phase = .dTrailer ∨ s.phase = .dDone) →
    step { s with cmds := [.decPush (a ++ b)] } = .next t →
    ∃ u v, step { s with cmds := [.decPush a] } = .next u ∧ step { u with cmds := [.decPush b] } = .next v ∧
      { v with reply := none } = { t with reply := none } ∧
      (∀ ev px k, t.reply = some (.pushed ev px k) →
        ∃ ev1 px1 k1 ev2 px2 k2, u.reply = some (.pushed ev1 px1 k1) ∧ v.reply = some (.pushed ev2 px2 k2) ∧
          px = px1 ++ px2 ∧ k = k1 + k2 ∧ ev = ev2.or ev1) ∧
      (∀ kind sub, t.reply = some (.error kind sub) →
        u.reply = some (.error kind sub) ∨
          ((∃ ev px k, u.reply = some (.pushed ev px k)) ∧ v.reply = some (.error kind sub)))

/-- R239, R199, R244: a DEC_PUSH that succeeds takes every byte of its fragment, unless the end marker completes
inside it; in D_DONE it takes none, returns `Ok(none, [], 0)` and changes nothing (after DECODE too, log 19). -/
def Obligations.PushTakesAllBytesUpToTheEndMarker : Prop :=
  ∀ (s : State) (frag : List Byte) (rest : List Command), s.cmds = .decPush frag :: rest →
    (∀ (t : State) (ev : Option Header) (px : List Byte) (k : Nat), step s = .next t →
      t.reply = some (.pushed ev px k) → k ≤ frag.length ∧ (k < frag.length → t.phase = .dDone)) ∧
    (s.phase = .dDone → s.betweenCommands →
      step s = .next { s with cmds := rest, reply := some (.pushed none [] 0) })

/-- R238: DEC_BEGIN in IDLE opens the stream: the phase is D_HEADER and nothing else of the instance changes; in every
other phase it is refused (with the reply of log 5). In IDLE `facc` and `carry` are empty and `px_count` is 0. -/
def Obligations.DecBeginOpensTheStream : Prop :=
  ∀ (s : State) (rest : List Command), s.Inv → s.cmds = .decBegin :: rest →
    (s.phase = .idle → s.facc = [] ∧ s.carry = [] ∧ s.pxCount = 0 ∧
      step s = .next { s with cmds := rest, phase := .dHeader, reply := some .ok }) ∧
    (s.phase ≠ .idle → step s = .next { s with cmds := rest, reply := some (.refused .badPhase) })

/-- R245, R266, R270: DEC_FINISH answers Ok in D_DONE (after DECODE too, log 19) and changes nothing, raises `Truncated` in the three unfinished
phases, and is refused in every other phase (with the reply of log 5). -/
def Obligations.DecFinishVerifiesTheEnd : Prop :=
  ∀ (s : State) (rest : List Command), s.Inv → s.cmds = .decFinish :: rest →
    step s = .next
      { s with
        cmds := rest
        reply :=
          if s.phase = .dDone then some .ok
          else if s.phase = .dHeader ∨ s.phase = .dChunks ∨ s.phase = .dTrailer then some (.error .truncated .none)
          else some (.refused .badPhase)
        phase := if s.phase = .dHeader ∨ s.phase = .dChunks ∨ s.phase = .dTrailer then .failed else s.phase
        err :=
          if s.phase = .dHeader ∨ s.phase = .dChunks ∨ s.phase = .dTrailer then ⟨.truncated, .none⟩ else s.err }

/-! ### The encoder (42_chunk_encode.md, 45_streaming.md) -/

/-- R161, R162, R303: a pixel equal to `prev` extends the run and emits nothing, unless the run reaches 62: then RUN 62
is emitted and the run is 0 in the same step. `prev` and the index are untouched. -/
def Obligations.EqualPixelExtendsTheRun : Prop :=
  ∀ s : State, s.walker = .byValue → s.run ≤ 61 →
    encPixel s.prev s =
      if s.run = 61 then { s with pxCount := s.pxCount + 1, run := 0, out := s.out ++ [0xFD] }
      else { s with pxCount := s.pxCount + 1, run := s.run + 1 }

/-- R160, R163, R172: a pixel that differs from `prev` first flushes the pending run, then is stored in the slot of its
hash and becomes `prev`; nothing else but `px_count` and the output changes. -/
def Obligations.NewPixelIsStoredAfterTheFlush : Prop :=
  ∀ (s : State) (p : Pixel), s.walker = .byValue → p ≠ s.prev → s.run ≤ 61 →
    ∃ chunk, 1 ≤ chunk.length ∧ chunk.length ≤ 5 ∧
      (encPixel p s).out = s.out ++ (if s.run = 0 then [] else [BitVec.ofNat 8 (192 + (s.run - 1))]) ++ chunk ∧
      (∀ k : Slot, (encPixel p s).indexGet k = if k = hash p then p else s.indexGet k) ∧
      encPixel p s =
        { s with
          pxCount := s.pxCount + 1, run := 0, prev := p
          index := (encPixel p s).index
          out := (encPixel p s).out }

/-- R164: a new pixel that its slot holds is emitted as INDEX, before any other chunk is considered (and after the
pending run, R163). -/
def Obligations.IndexHitIsEmittedAsIndex : Prop :=
  ∀ (s : State) (p : Pixel), s.walker = .byValue → s.run ≤ 61 → p ≠ s.prev → s.indexGet (hash p) = p →
    (encPixel p s).out = s.out ++ (if s.run = 0 then [] else [BitVec.ofNat 8 (192 + (s.run - 1))]) ++
      [BitVec.ofNat 8 (hash p).toNat]

/-- R166, R165: after an index miss with equal alpha, deltas that all lie in -2..1 modulo 256 are emitted as the one
DIFF byte of R86 (after the pending run, R163). -/
def Obligations.SmallDeltasAreEmittedAsDiff : Prop :=
  ∀ (s : State) (p : Pixel) (dr dg db : Int), s.walker = .byValue → s.run ≤ 61 → p ≠ s.prev →
    s.indexGet (hash p) ≠ p → p.a = s.prev.a →
    (s.prev.r.toNat + dr) % 256 = p.r.toNat → (s.prev.g.toNat + dg) % 256 = p.g.toNat →
    (s.prev.b.toNat + db) % 256 = p.b.toNat →
    -2 ≤ dr → dr ≤ 1 → -2 ≤ dg → dg ≤ 1 → -2 ≤ db → db ≤ 1 →
    (encPixel p s).out =
      s.out ++ (if s.run = 0 then [] else [BitVec.ofNat 8 (192 + (s.run - 1))]) ++
        [BitVec.ofNat 8 (64 + 16 * (dr + 2).toNat + 4 * (dg + 2).toNat + (db + 2).toNat)]

/-- R167, R165: after an index miss with equal alpha and no DIFF, a green delta in -32..31 with relative deltas in
-8..7 is emitted as the two LUMA bytes of R86 (after the pending run, R163). -/
def Obligations.MediumDeltasAreEmittedAsLuma : Prop :=
  ∀ (s : State) (p : Pixel) (dg drg dbg : Int), s.walker = .byValue → s.run ≤ 61 → p ≠ s.prev →
    s.indexGet (hash p) ≠ p → p.a = s.prev.a →
    (s.prev.r.toNat + (dg + drg)) % 256 = p.r.toNat → (s.prev.g.toNat + dg) % 256 = p.g.toNat →
    (s.prev.b.toNat + (dg + dbg)) % 256 = p.b.toNat →
    -32 ≤ dg → dg ≤ 31 → -8 ≤ drg → drg ≤ 7 → -8 ≤ dbg → dbg ≤ 7 →
    ¬ (-2 ≤ dg + drg ∧ dg + drg ≤ 1 ∧ -2 ≤ dg ∧ dg ≤ 1 ∧ -2 ≤ dg + dbg ∧ dg + dbg ≤ 1) →
    (encPixel p s).out =
      s.out ++ (if s.run = 0 then [] else [BitVec.ofNat 8 (192 + (s.run - 1))]) ++
        [BitVec.ofNat 8 (128 + (dg + 32).toNat), BitVec.ofNat 8 (16 * (drg + 8).toNat + (dbg + 8).toNat)]

/-- R168: after an index miss with equal alpha, when no deltas fit DIFF or LUMA, the colour is emitted as RGB
(after the pending run, R163). -/
def Obligations.LargeDeltasAreEmittedAsRgb : Prop :=
  ∀ (s : State) (p : Pixel), s.walker = .byValue → s.run ≤ 61 → p ≠ s.prev →
    s.indexGet (hash p) ≠ p → p.a = s.prev.a →
    (¬ ∃ dr dg db : Int, (s.prev.r.toNat + dr) % 256 = p.r.toNat ∧ (s.prev.g.toNat + dg) % 256 = p.g.toNat ∧
      (s.prev.b.toNat + db) % 256 = p.b.toNat ∧ -2 ≤ dr ∧ dr ≤ 1 ∧ -2 ≤ dg ∧ dg ≤ 1 ∧ -2 ≤ db ∧ db ≤ 1) →
    (¬ ∃ dg drg dbg : Int, (s.prev.r.toNat + (dg + drg)) % 256 = p.r.toNat ∧
      (s.prev.g.toNat + dg) % 256 = p.g.toNat ∧ (s.prev.b.toNat + (dg + dbg)) % 256 = p.b.toNat ∧
      -32 ≤ dg ∧ dg ≤ 31 ∧ -8 ≤ drg ∧ drg ≤ 7 ∧ -8 ≤ dbg ∧ dbg ≤ 7) →
    (encPixel p s).out = s.out ++ (if s.run = 0 then [] else [BitVec.ofNat 8 (192 + (s.run - 1))]) ++ [0xFE, p.r, p.g, p.b]

/-- R169: after an index miss a pixel whose alpha differs from that of `prev` is emitted as RGBA, whatever its colour
deltas (after the pending run, R163). -/
def Obligations.AlphaChangeIsEmittedAsRgba : Prop :=
  ∀ (s : State) (p : Pixel), s.walker = .byValue → s.run ≤ 61 → s.indexGet (hash p) ≠ p → p.a ≠ s.prev.a →
    (encPixel p s).out = s.out ++ (if s.run = 0 then [] else [BitVec.ofNat 8 (192 + (s.run - 1))]) ++
      [0xFF, p.r, p.g, p.b, p.a]

/-- R170: in a 3-channel image the encoder chooses RGBA for no pixel, and INDEX for no slot that still holds the reset
pixel. -/
def Obligations.ThreeChannelImagesNeverEmitRgba : Prop :=
  ∀ (s : State) (raw : Pixel), s.Inv → s.phase = .eBody → s.channels = 3 →
    (∀ r g b a, selectChunk (pushedPixel s.channels raw) s ≠ .rgba r g b a) ∧
    (∀ k, selectChunk (pushedPixel s.channels raw) s = .index k → s.indexGet k ≠ zeroPixel)

/-- R231, R190, R194: ENC_BEGIN with legal fields emits the 14 header bytes, big-endian, and opens the body; with
illegal fields it fails with the first error in the fixed order and emits nothing; outside IDLE it is refused
(with the reply of log 5). -/
def Obligations.EncBeginEmitsTheHeader : Prop :=
  ∀ (s : State) (w h : Dim) (c cs : Byte) (rest : List Command), s.Inv → s.cmds = .encBegin w h c cs :: rest →
    (s.phase = .idle → acceptedFields s.cfg w h c cs →
      step s = .next
        { s with
          cmds := rest, phase := .eBody, hdrValid := true, width := w, height := h, channels := c, colorspace := cs
          total := w.toNat * h.toNat
          reply := some (.bytes
            [0x71, 0x6F, 0x69, 0x66,
              BitVec.ofNat 8 (w.toNat / 2 ^ 24), BitVec.ofNat 8 (w.toNat / 2 ^ 16), BitVec.ofNat 8 (w.toNat / 2 ^ 8),
              BitVec.ofNat 8 w.toNat,
              BitVec.ofNat 8 (h.toNat / 2 ^ 24), BitVec.ofNat 8 (h.toNat / 2 ^ 16), BitVec.ofNat 8 (h.toNat / 2 ^ 8),
              BitVec.ofNat 8 h.toNat, c, cs]) }) ∧
    (s.phase = .idle → ¬ acceptedFields s.cfg w h c cs →
      ∃ e : ErrReg,
        e =
          (if ¬ (c = 3 ∨ c = 4) then ⟨.malformedHeader, .badChannels⟩
          else if ¬ (cs = 0 ∨ cs = 1) then ⟨.malformedHeader, .badColorspace⟩
          else if (w = 0 ∨ h = 0) ∧ s.cfg.zeroDimAccept = false then ⟨.malformedHeader, .zeroDimension⟩
          else ⟨.dimensionsOverflow, .none⟩) ∧
        step s = .next { s with cmds := rest, phase := .failed, err := e, reply := some (.error e.kind e.sub) }) ∧
    (s.phase ≠ .idle → step s = .next { s with cmds := rest, reply := some (.refused .badPhase) })

/-- R236, R237: ENC_FINISH returns the pending run's byte, if any, and the end marker; it is refused while pixels are
missing, and outside E_BODY (with the reply of log 5). -/
def Obligations.EncFinishFlushesAndEnds : Prop :=
  ∀ (s : State) (rest : List Command), s.Inv → s.cmds = .encFinish :: rest →
    step s = .next
      (if s.phase ≠ .eBody then { s with cmds := rest, reply := some (.refused .badPhase) }
      else if s.pxCount ≠ s.total then { s with cmds := rest, reply := some (.refused .pixelCountShort) }
      else
        { s with
          cmds := rest, phase := .eDone, run := 0
          reply := some (.bytes
            ((if s.run = 0 then [] else [BitVec.ofNat 8 (192 + (s.run - 1))]) ++ [0, 0, 0, 0, 0, 0, 0, 1])) })

/-- R175, R233, R247: encoding does not depend on how the pixels are grouped. -/
def Obligations.EncodingIgnoresFragmentation : Prop :=
  ∀ (s : State) (a b : List Pixel), s.phase = .eBody → s.hdrValid = true →
    s.pxCount + (a ++ b).length ≤ s.total →
    ∃ t u v x y, step { s with cmds := [.encPush (a ++ b)] } = .next t ∧
      step { s with cmds := [.encPush a] } = .next u ∧ step { u with cmds := [.encPush b] } = .next v ∧
      u.reply = some (.bytes x) ∧ v.reply = some (.bytes y) ∧ t.reply = some (.bytes (x ++ y)) ∧
      { v with reply := none } = { t with reply := none }

/-- R234, R233: a push that would pass `total` is refused whole and changes nothing (but the reply of log 5); any other push in E_BODY is
accepted. -/
def Obligations.ExcessPixelsAreRefusedWhole : Prop :=
  ∀ (s : State) (ps : List Pixel) (rest : List Command), s.phase = .eBody → s.hdrValid = true →
    s.cmds = .encPush ps :: rest →
    (s.total < s.pxCount + ps.length →
      step s = .next { s with cmds := rest, reply := some (.refused .tooManyPixels) }) ∧
    (s.pxCount + ps.length ≤ s.total →
      ∃ t bytes, step s = .next t ∧ t.reply = some (.bytes bytes) ∧ t.pxCount = s.pxCount + ps.length)

/-- R235, R174: one ENC_PUSH returns at most `1 + len(pixels) * (channels + 1)` bytes. -/
def Obligations.PushOutputIsBounded : Prop :=
  ∀ (s t : State) (ps : List Pixel) (rest : List Command) (bytes : List Byte), s.Inv →
    s.cmds = .encPush ps :: rest → step s = .next t → t.reply = some (.bytes bytes) →
    bytes.length ≤ 1 + ps.length * (s.channels.toNat + 1)

/-- R178: `colorspace`, `width` and `height` play no part in a chunk, on either side. -/
def Obligations.ColorspaceAndShapePlayNoPart : Prop :=
  ∀ (s : State) (w h : Dim) (cs : Byte),
    (∀ p, encPixel p { s with width := w, height := h, colorspace := cs } =
      { encPixel p s with width := w, height := h, colorspace := cs }) ∧
    (∀ (i : Instr) (t : State), i.context = .chunk → exec i s = .next t →
      exec i { s with width := w, height := h, colorspace := cs } =
        .next { t with width := w, height := h, colorspace := cs })

/-! ### One-shot commands (44_oneshot.md) -/

/-- R214: ENCODE writes exactly the bytes that ENC_BEGIN, ENC_PUSH and ENC_FINISH return for the same image, and leaves
the instance in the same state. -/
def Obligations.EncodeWritesWhatStreamingReturns : Prop :=
  ∀ (s s1 s2 s3 : State) (w h : Dim) (c cs : Byte) (pixels : List Pixel) (b1 b2 b3 : List Byte) (cap : Nat),
    s.Inv → s.phase = .idle →
    step { s with cmds := [.encBegin w h c cs] } = .next s1 → s1.reply = some (.bytes b1) →
    step { s1 with cmds := [.encPush pixels] } = .next s2 → s2.reply = some (.bytes b2) →
    step { s2 with cmds := [.encFinish] } = .next s3 → s3.reply = some (.bytes b3) →
    s.pix.readBytes 0 (pixels.length * c.toNat) = .ok (pixels.flatMap (pixelToBytes c)) →
    14 + w.toNat * h.toNat * (c.toNat + 1) + 8 ≤ cap →
    ∃ t, step { s with cmds := [.encode w h c cs (pixels.length * c.toNat) cap] } = .next t ∧
      t.reply = some (.encoded (b1 ++ b2 ++ b3).length) ∧
      t.stream.readBytes 0 (b1 ++ b2 ++ b3).length = .ok (b1 ++ b2 ++ b3) ∧
      t = { s3 with stream := t.stream, reply := t.reply }

/-- R211, R194, R265, R269: the checks of ENCODE in their order, up to the walk: the phase, the length of the pixel
buffer, the fields, the capacity (a refusal with the reply of log 5). -/
def Obligations.EncodeChecksInOrder : Prop :=
  ∀ (s : State) (w h : Dim) (c cs : Byte) (plen cap : Nat) (rest : List Command), s.Inv →
    s.cmds = .encode w h c cs plen cap :: rest →
    (s.phase ≠ .idle → step s = .next { s with cmds := rest, reply := some (.refused .badPhase) }) ∧
    (s.phase = .idle → (c = 3 ∨ c = 4) ∧ plen ≠ w.toNat * h.toNat * c.toNat →
      step s = .next { s with cmds := rest, reply := some (.refused .badPixelBufferLength) }) ∧
    (s.phase = .idle → ¬ ((c = 3 ∨ c = 4) ∧ plen ≠ w.toNat * h.toNat * c.toNat) → ¬ acceptedFields s.cfg w h c cs →
      ∃ e : ErrReg,
        e =
          (if ¬ (c = 3 ∨ c = 4) then ⟨.malformedHeader, .badChannels⟩
          else if ¬ (cs = 0 ∨ cs = 1) then ⟨.malformedHeader, .badColorspace⟩
          else if (w = 0 ∨ h = 0) ∧ s.cfg.zeroDimAccept = false then ⟨.malformedHeader, .zeroDimension⟩
          else ⟨.dimensionsOverflow, .none⟩) ∧
        step s = .next { s with cmds := rest, phase := .failed, err := e, reply := some (.error e.kind e.sub) }) ∧
    (s.phase = .idle → acceptedFields s.cfg w h c cs → plen = w.toNat * h.toNat * c.toNat →
      cap < 14 + w.toNat * h.toNat * (c.toNat + 1) + 8 →
      step s = .next
        { s with
          cmds := rest, phase := .failed, err := ⟨.outputBufferTooSmall, .none⟩
          hdrValid := true, width := w, height := h, channels := c, colorspace := cs, total := w.toNat * h.toNat
          reply := some (.error .outputBufferTooSmall .none) })

/-- R213, R222, R174: ENCODE never writes STREAM at or beyond `cap`, writes nothing when it fails, and never writes
`PIX`. -/
def Obligations.EncodeStaysWithinItsCapacity : Prop :=
  ∀ (s t : State) (w h : Dim) (c cs : Byte) (plen cap : Nat) (rest : List Command), s.Inv →
    s.cmds = .encode w h c cs plen cap :: rest → step s = .next t →
    t.pix = s.pix ∧ (∀ a, cap ≤ a → t.stream.read a = s.stream.read a) ∧
    (∀ kind sub, t.reply = some (.error kind sub) → t.stream = s.stream) ∧
    (∀ n, t.reply = some (.encoded n) → n ≤ cap ∧ ∀ a, n ≤ a → t.stream.read a = s.stream.read a)

/-- R220: DECODE gives the header and the pixel bytes that DEC_BEGIN and DEC_PUSH of the whole stream give, and leaves
the instance in the same state. -/
def Obligations.DecodeWritesWhatStreamingReturns : Prop :=
  ∀ (s s1 s2 : State) (bytes : List Byte) (hdr : Header) (px : List Byte) (k cap : Nat),
    s.Inv → s.phase = .idle → s.stream.readBytes 0 bytes.length = .ok bytes →
    step { s with cmds := [.decBegin] } = .next s1 →
    step { s1 with cmds := [.decPush bytes] } = .next s2 → s2.reply = some (.pushed (some hdr) px k) →
    s2.phase = .dDone → px.length ≤ cap →
    ∃ t, step { s with cmds := [.decode bytes.length cap] } = .next t ∧
      t.reply = some (.decoded hdr px.length) ∧
      t.pix.readBytes 0 px.length = .ok px ∧
      (∀ a, px.length ≤ a → t.pix.read a = s.pix.read a) ∧
      t = { s2 with pix := t.pix, reply := t.reply }

/-- R220, R266, R267: DECODE fails with the error that streaming the whole stream and then DEC_FINISH fails with, when
its capacity suffices for an accepted header. -/
def Obligations.DecodeFailsAsStreamingFails : Prop :=
  ∀ (s s1 s2 s3 : State) (bytes : List Byte) (kind : ErrKind) (sub : SubCause) (cap : Nat),
    s.Inv → s.phase = .idle → s.stream.readBytes 0 bytes.length = .ok bytes →
    step { s with cmds := [.decBegin] } = .next s1 →
    step { s1 with cmds := [.decPush bytes] } = .next s2 →
    step { s2 with cmds := [.decFinish] } = .next s3 →
    (s2.reply = some (.error kind sub) ∨ s3.reply = some (.error kind sub)) →
    (s2.hdrValid = true → s2.total * s2.channels.toNat ≤ cap) →
    ∃ t, step { s with cmds := [.decode bytes.length cap] } = .next t ∧ t.reply = some (.error kind sub) ∧
      t.phase = .failed ∧ t.err = ⟨kind, sub⟩

/-- R216, R194, R195, R264, R265, R269: the checks of DECODE in their order, up to the walk: the length of a header, its
magic, its fields, the capacity. -/
def Obligations.DecodeChecksInOrder : Prop :=
  ∀ (s : State) (slen cap : Nat) (rest : List Command) (kind : ErrKind) (sub : SubCause), s.Inv → s.phase = .idle →
    s.cmds = .decode slen cap :: rest →
    ((slen < 14 ∧ kind = .truncated ∧ sub = .none) ∨
      (∃ bytes, 14 ≤ slen ∧ s.stream.readBytes 0 14 = .ok bytes ∧
        ((bytes.take 4 ≠ [0x71, 0x6F, 0x69, 0x66] ∧ kind = .malformedHeader ∧ sub = .badMagic) ∨
          (∃ w h c cs, decode .header bytes = .ok (.header w h c cs, []) ∧
            ((¬ (c = 3 ∨ c = 4) ∧ kind = .malformedHeader ∧ sub = .badChannels) ∨
              ((c = 3 ∨ c = 4) ∧ ¬ (cs = 0 ∨ cs = 1) ∧ kind = .malformedHeader ∧ sub = .badColorspace) ∨
              ((c = 3 ∨ c = 4) ∧ (cs = 0 ∨ cs = 1) ∧ (w = 0 ∨ h = 0) ∧ s.cfg.zeroDimAccept = false ∧
                kind = .malformedHeader ∧ sub = .zeroDimension) ∨
              ((c = 3 ∨ c = 4) ∧ (cs = 0 ∨ cs = 1) ∧ (s.cfg.zeroDimAccept = true ∨ (w ≠ 0 ∧ h ≠ 0)) ∧
                s.cfg.pixelLimit < w.toNat * h.toNat ∧ kind = .dimensionsOverflow ∧ sub = .none) ∨
              (acceptedFields s.cfg w h c cs ∧ cap < w.toNat * h.toNat * c.toNat ∧
                kind = .outputBufferTooSmall ∧ sub = .none)))))) →
    ∃ t, step s = .next t ∧ t.reply = some (.error kind sub) ∧ t.phase = .failed ∧ t.err = ⟨kind, sub⟩

/-- R222, R216, R218: whatever DECODE answers, it writes neither STREAM nor a byte of `PIX` at or beyond `cap`. -/
def Obligations.DecodeStaysWithinItsCapacity : Prop :=
  ∀ (s t : State) (slen cap : Nat) (rest : List Command), s.Inv → s.cmds = .decode slen cap :: rest →
    step s = .next t → t.stream = s.stream ∧ ∀ a, cap ≤ a → t.pix.read a = s.pix.read a

/-- R176, R117: the round trip. The bytes that the streaming encoder returns for an image, given to a fresh decoder,
yield the header and the image's pixel bytes, and leave the same previous pixel and the same index. -/
def Obligations.DecodeOfEncodedImageIsTheImage : Prop :=
  ∀ (s s1 s2 s3 d1 d2 : State) (w h : Dim) (c cs : Byte) (pixels : List Pixel) (b1 b2 b3 : List Byte),
    s.Inv → s.phase = .idle →
    step { s with cmds := [.encBegin w h c cs] } = .next s1 → s1.reply = some (.bytes b1) →
    step { s1 with cmds := [.encPush pixels] } = .next s2 → s2.reply = some (.bytes b2) →
    step { s2 with cmds := [.encFinish] } = .next s3 → s3.reply = some (.bytes b3) →
    step { s with cmds := [.decBegin] } = .next d1 →
    step { d1 with cmds := [.decPush (b1 ++ b2 ++ b3)] } = .next d2 →
    d2.reply = some (.pushed (some ⟨w, h, c, cs⟩) (pixels.flatMap (pixelToBytes c)) (b1 ++ b2 ++ b3).length) ∧
    d2.phase = .dDone ∧ d2.prev = s3.prev ∧ d2.index = s3.index

/-! ### Errors, refusals and reset (60_exceptions.md, 70_reset_and_hazards.md) -/

/-- R270, R271, R31: a command that fails returns the error it latches, leaves the phase FAILED and nothing of its
output. -/
def Obligations.ErrorIsLatchedAndReturned : Prop :=
  ∀ (s t : State) (kind : ErrKind) (sub : SubCause), s.Inv → step s = .next t → s.cmds ≠ [] →
    t.reply = some (.error kind sub) →
    t.phase = .failed ∧ t.err = ⟨kind, sub⟩ ∧ kind ≠ .none ∧ s.err = ⟨.none, .none⟩ ∧ t.out = [] ∧ t.hdrEvent = none

/-- R272: a refused command changes no state at all (that it is a next state with a reply is the model's choice,
log 5). -/
def Obligations.RefusedCommandChangesNothing : Prop :=
  ∀ (s t : State) (c : Command) (rest : List Command) (r : RefuseReason), s.cmds = c :: rest → step s = .next t →
    t.reply = some (.refused r) → t = { s with cmds := rest, reply := some (.refused r) }

/-- R26, R272: the commands of the phase table are accepted in their phases, and every other command is refused with
`BadPhase` (the reply is the model's choice, log 5;
that the table holds in D_DONE after DECODE too is log 19). -/
def Obligations.PhaseDecidesTheLegalCommands : Prop :=
  ∀ (s : State) (c : Command) (rest : List Command), s.Inv → s.cmds = c :: rest →
    (s.phase.accepts c = false → step s = .next { s with cmds := rest, reply := some (.refused .badPhase) }) ∧
    (s.phase.accepts c = true → ∀ t, step s = .next t → t.reply ≠ some (.refused .badPhase))

/-- R221, R246, R272, R273: in FAILED and in E_DONE every command but RESET is refused and the state is unchanged (but for
the reply, the model's choice, log 5). In D_DONE, after streaming and after DECODE alike, no command but RESET changes the
instance either: DEC_PUSH takes nothing, DEC_FINISH answers Ok, every other is refused (that the first two are not refused
after DECODE is log 19). -/
def Obligations.FailedAndDoneAcceptResetOnly : Prop :=
  ∀ (s : State) (c : Command) (rest : List Command), c ≠ .reset → s.cmds = c :: rest →
    ((s.phase = .failed ∨ s.phase = .eDone) →
      step s = .next { s with cmds := rest, reply := some (.refused .badPhase) }) ∧
    (s.phase = .dDone → s.betweenCommands →
      ∃ r, step s = .next { s with cmds := rest, reply := some r } ∧
        (((∃ frag, c = .decPush frag) ∧ r = .pushed none [] 0) ∨ (c = .decFinish ∧ r = .ok) ∨
          ((∀ frag, c ≠ .decPush frag) ∧ c ≠ .decFinish ∧ r = .refused .badPhase)))

/-- R41, R290, R293: RESET is legal in every phase and gives every piece of the instance's state its reset value; the
header registers hold no value; it returns nothing; the parameters and the host's spaces are not touched. -/
def Obligations.ResetGivesTheResetValues : Prop :=
  ∀ (s : State) (rest : List Command), s.cmds = .reset :: rest →
    ∃ t, step s = .next t ∧
      t.prev = ⟨0, 0, 0, 255⟩ ∧ t.run = 0 ∧ (∀ k : Slot, t.indexGet k = ⟨0, 0, 0, 0⟩) ∧ t.phase = .idle ∧
      t.pxCount = 0 ∧ t.hdrValid = false ∧ t.header? = none ∧ t.err = ⟨.none, .none⟩ ∧ t.carry = [] ∧ t.facc = [] ∧
      t.cfg = s.cfg ∧ t.pix = s.pix ∧ t.stream = s.stream ∧ t.cmds = rest ∧ t.reply = some .nothing

/-- R293, R9: no step changes the parameters. -/
def Obligations.ParametersAreFixed : Prop := ∀ s t : State, step s = .next t → t.cfg = s.cfg

/-- R246: a command other than RESET moves the phase forward, along the table. -/
def Obligations.PhaseMovesForward : Prop :=
  ∀ (s t : State) (c : Command) (rest : List Command), s.cmds = c :: rest → c ≠ .reset → step s = .next t →
    s.phase.reaches t.phase

/-- R30, R32, R33: once they hold a header, nothing but RESET changes the header registers, `total` or `hdr_valid`. -/
def Obligations.HeaderRegistersAreReadOnly : Prop :=
  ∀ (s t : State) (c : Command) (rest : List Command), s.Inv → s.hdrValid = true → s.cmds = c :: rest → c ≠ .reset →
    step s = .next t →
    t.hdrValid = true ∧ t.width = s.width ∧ t.height = s.height ∧ t.channels = s.channels ∧
      t.colorspace = s.colorspace ∧ t.total = s.total

/-- R30, U13: while `hdr_valid` is 0 no command reads the header registers: two states that differ only in what stands
in them behave alike, and differ only in them, and only as long as no header is accepted (what stands in them is the
model's own, log 2). -/
def Obligations.ValuelessHeaderRegistersAreNeverRead : Prop :=
  ∀ (s t : State) (w h : Dim) (c cs : Byte) (n : Nat), s.Inv → s.hdrValid = false → step s = .next t →
    ∃ t', step { s with width := w, height := h, channels := c, colorspace := cs, total := n } = .next t' ∧
      (t' = t ∨
        (t.hdrValid = false ∧ t' = { t with width := w, height := h, channels := c, colorspace := cs, total := n }))

/-- R27: `px_count` only ever increases, except by RESET, and never passes `total`. -/
def Obligations.PixelCountOnlyIncreases : Prop :=
  ∀ (s t : State) (c : Command) (rest : List Command), s.Inv → s.cmds = c :: rest → c ≠ .reset → step s = .next t →
    s.pxCount ≤ t.pxCount ∧ (t.hdrValid = true → t.pxCount ≤ t.total)

/-! ### The invariant -/

/-- R41: the state at power-on meets the invariant. -/
def Obligations.ResetMeetsTheInvariant : Prop := State.reset.Inv

/-- R21, R26, R27, R30 to R33, R36, R37, R116, R118, R143, R170, R274: every step keeps the invariant. -/
def Obligations.StepKeepsTheInvariant : Prop := ∀ s t : State, s.Inv → step s = .next t → t.Inv

/-- R144, R177, R52: a state that meets the invariant always has a next step, unless ENCODE or DECODE reads a byte of
a space that the host has not provided (the model's choice, log 6). That
a refused command is a next step, with a reply, is the model's choice too (log 5; R272 advises none). -/
def Obligations.LegalStatesNeverStop : Prop :=
  ∀ s : State, s.Inv →
    (∃ t, step s = .next t) ∨
      ∃ (sp : Space) (a : Nat) (c : Command) (rest : List Command), step s = .fault (.unprovidedByte sp a) ∧
        s.cmds = c :: rest ∧
        ((sp = .pix ∧ s.pix.read a = none ∧ ∃ w h ch cs plen cap, c = .encode w h ch cs plen cap ∧ a < plen) ∨
          (sp = .stream ∧ s.stream.read a = none ∧ ∃ slen cap, c = .decode slen cap ∧ a < slen))
end

