-- ==== Sys2Proof/Laws/Memory.lean ====
section
/-! SUPPORT. The laws of the byte spaces: read after write, the frame of a write, and that every write keeps the canonical form.
-/

namespace Sys2Proof.Machine

theorem Memory.read_write (m : Memory) (a b : Nat) (v : Byte) :
    (m.write a v).read b = if b = a then some v else m.read b := by
  induction m with
  | nil => by_cases h : b < a <;> by_cases h' : b = a <;> simp [Memory.write, Memory.read, h, h']
  | cons c m ih =>
    obtain ⟨k, w⟩ := c
    rcases Nat.lt_trichotomy a k with h | h | h
    · by_cases hb : b < a <;> by_cases he : b = a <;> simp [Memory.write, Memory.read, h, hb, he]; omega
    · subst h
      by_cases hb : b < a <;> by_cases he : b = a <;> simp_all [Memory.write, Memory.read]
    · have h1 : ¬ a < k := by omega
      have h2 : a ≠ k := by omega
      simp only [Memory.write, Memory.read, h1, h2, if_false, ih]
      by_cases hb : b < k <;> by_cases he : b = a <;> by_cases hk : b = k <;> simp_all
      all_goals omega

@[simp] theorem Memory.read_write_same (m : Memory) (a : Nat) (v : Byte) : (m.write a v).read a = some v := by
  simp [Memory.read_write]

theorem Memory.mem_write {m : Memory} {a : Nat} {v : Byte} {c : Host.Cell} (h : c ∈ m.write a v) :
    c = (a, v) ∨ c ∈ m := by
  induction m with
  | nil => simpa [Memory.write] using h
  | cons d m ih =>
    obtain ⟨k, w⟩ := d
    simp only [Memory.write] at h
    split at h
    · simpa using h
    · split at h
      · rcases List.mem_cons.1 h with h | h
        · exact .inl h
        · exact .inr (List.mem_cons_of_mem _ h)
      · rcases List.mem_cons.1 h with h | h
        · exact .inr (by simp [h])
        · rcases ih h with h | h
          · exact .inl h
          · exact .inr (List.mem_cons_of_mem _ h)

/-- A write keeps the canonical form. -/
theorem Memory.wf_write {m : Memory} (h : m.wf) (a : Nat) (v : Byte) : (m.write a v).wf := by
  induction m with
  | nil => simp [Memory.wf, Memory.write]
  | cons c m ih =>
    obtain ⟨k, w⟩ := c
    obtain ⟨h1, h2⟩ := List.pairwise_cons.1 h
    simp only [Memory.write]
    split
    · next ha =>
      refine List.pairwise_cons.2 ⟨fun d hd => ?_, h⟩
      rcases List.mem_cons.1 hd with rfl | hd
      · exact ha
      · exact Nat.lt_trans ha (h1 d hd)
    · split
      · next ha he => exact List.pairwise_cons.2 ⟨fun d hd => he ▸ h1 d hd, h2⟩
      · next ha he =>
        refine List.pairwise_cons.2 ⟨fun d hd => ?_, ih h2⟩
        rcases Memory.mem_write hd with rfl | hd
        · exact Nat.lt_of_le_of_ne (Nat.not_lt.1 ha) (Ne.symm he)
        · exact h1 d hd

/-- `MemWrite` keeps the canonical form. -/
theorem Memory.wf_writeBytes {m : Memory} (h : m.wf) (a : Nat) (v : List Byte) : (m.writeBytes a v).wf := by
  induction v generalizing m a with
  | nil => exact h
  | cons b bs ih => exact ih (Memory.wf_write h a b) (a + 1)

/-- A `MemWrite` leaves every address outside its bytes alone. -/
theorem Memory.read_writeBytes_outside (m : Memory) (a : Nat) (v : List Byte) (b : Nat)
    (h : b < a ∨ a + v.length ≤ b) : (m.writeBytes a v).read b = m.read b := by
  induction v generalizing m a with
  | nil => rfl
  | cons w v ih =>
    simp only [List.length_cons] at h
    rw [Memory.writeBytes, ih (m.write a w) (a + 1) (by omega), Memory.read_write, if_neg (by omega)]

/-- A `MemWrite` stores `v[i]` at `a + i`. -/
theorem Memory.read_writeBytes_inside (m : Memory) (a : Nat) (v : List Byte) (i : Nat) (h : i < v.length) :
    (m.writeBytes a v).read (a + i) = some v[i] := by
  induction v generalizing m a i with
  | nil => simp at h
  | cons w v ih =>
    rw [Memory.writeBytes]
    cases i with
    | zero => rw [Memory.read_writeBytes_outside _ _ _ _ (by omega)]; simp
    | succ i =>
      have h' : i < v.length := by simpa using h
      have := ih (m.write a w) (a + 1) i h'
      rw [show a + (i + 1) = a + 1 + i by omega, this]; simp

/-- Two adjacent writes are one write of the two byte sequences in a row. -/
theorem Memory.writeBytes_append (m : Memory) (a : Nat) (v w : List Byte) :
    m.writeBytes a (v ++ w) = (m.writeBytes a v).writeBytes (a + v.length) w := by
  induction v generalizing m a with
  | nil => simp [Memory.writeBytes]
  | cons b v ih =>
    simp only [List.cons_append, Memory.writeBytes, ih, List.length_cons]
    congr 1
    omega

/-- `MemRead` answers the bytes exactly when each address holds the byte. -/
theorem Memory.readBytes_eq_ok {m : Memory} {a : Nat} {v : List Byte} {n : Nat} :
    m.readBytes a n = .ok v ↔ v.length = n ∧ ∀ i, (h : i < v.length) → m.read (a + i) = some v[i] := by
  induction n generalizing a v with
  | zero =>
    constructor
    · intro h
      obtain rfl : [] = v := by simpa [Memory.readBytes] using h
      simp
    · rintro ⟨h, -⟩
      obtain rfl := List.length_eq_zero_iff.1 h
      rfl
  | succ n ih =>
    rw [Memory.readBytes]
    constructor
    · intro h
      split at h
      · cases h
      · next b hb =>
        split at h
        · cases h
        · next bs hbs =>
          obtain ⟨h1, h2⟩ := ih.1 hbs
          obtain rfl : b :: bs = v := by simpa using h
          refine ⟨by simp [h1], fun i hi => ?_⟩
          cases i with
          | zero => simpa using hb
          | succ i =>
            have := h2 i (by simpa using hi)
            rw [show a + (i + 1) = a + 1 + i by omega, this]; simp
    · rintro ⟨h1, h2⟩
      cases v with
      | nil => simp at h1
      | cons b bs =>
        have hb : m.read a = some b := h2 0 (by simp)
        have hbs : m.readBytes (a + 1) n = .ok bs :=
          ih.2 ⟨by simpa using h1, fun i hi => by
            have := h2 (i + 1) (by simpa using hi)
            rw [show a + 1 + i = a + (i + 1) by omega, this]; simp⟩
        simp [hb, hbs]

/-- `MemRead` after `MemWrite` of the same place gives the bytes written. -/
theorem Memory.readBytes_writeBytes (m : Memory) (a : Nat) (v : List Byte) :
    (m.writeBytes a v).readBytes a v.length = .ok v :=
  Memory.readBytes_eq_ok.2 ⟨rfl, fun i hi => Memory.read_writeBytes_inside m a v i hi⟩

/-- Two adjacent reads are one read of the bytes in a row. -/
theorem Memory.readBytes_append {m : Memory} {a : Nat} {v w : List Byte}
    (h1 : m.readBytes a v.length = .ok v) (h2 : m.readBytes (a + v.length) w.length = .ok w) :
    m.readBytes a (v ++ w).length = .ok (v ++ w) := by
  obtain ⟨-, h1⟩ := Memory.readBytes_eq_ok.1 h1
  obtain ⟨-, h2⟩ := Memory.readBytes_eq_ok.1 h2
  refine Memory.readBytes_eq_ok.2 ⟨rfl, fun i hi => ?_⟩
  by_cases h : i < v.length
  · rw [h1 i h, List.getElem_append_left h]
  · have hw : i - v.length < w.length := by simp at hi; omega
    have := h2 (i - v.length) hw
    rw [show a + v.length + (i - v.length) = a + i by omega] at this
    rw [this, List.getElem_append_right (by omega)]

/-- The bytes of a `MemRead` cut in two. -/
theorem Memory.readBytes_split {m : Memory} {a : Nat} {v w : List Byte}
    (h : m.readBytes a (v ++ w).length = .ok (v ++ w)) :
    m.readBytes a v.length = .ok v ∧ m.readBytes (a + v.length) w.length = .ok w := by
  obtain ⟨-, h⟩ := Memory.readBytes_eq_ok.1 h
  constructor
  · refine Memory.readBytes_eq_ok.2 ⟨rfl, fun i hi => ?_⟩
    rw [h i (by simp; omega), List.getElem_append_left hi]
  · refine Memory.readBytes_eq_ok.2 ⟨rfl, fun i hi => ?_⟩
    have := h (v.length + i) (by simp; omega)
    rw [show a + v.length + i = a + (v.length + i) by omega, this, List.getElem_append_right (by omega)]
    simp

/-- A `MemRead` that fails names an address of its range that holds no byte. -/
theorem Memory.readBytes_error {m : Memory} {a n e : Nat} (h : m.readBytes a n = .error e) :
    m.read e = none ∧ a ≤ e ∧ e < a + n := by
  induction n generalizing a with
  | zero => cases h
  | succ n ih =>
    rw [Memory.readBytes] at h
    split at h
    · next hr => cases h; exact ⟨hr, Nat.le_refl _, by omega⟩
    · split at h
      · next e' he =>
        cases h
        obtain ⟨h1, h2, h3⟩ := ih he
        exact ⟨h1, by omega, by omega⟩
      · cases h

/-- The byte after a `MemWrite`, inside or outside. -/
theorem Memory.read_writeBytes (m : Memory) (a : Nat) (v : List Byte) (b : Nat) :
    (m.writeBytes a v).read b = if a ≤ b ∧ b < a + v.length then v[b - a]? else m.read b := by
  split
  · have := m.read_writeBytes_inside a v (b - a) (by omega)
    rw [show a + (b - a) = b by omega] at this
    rw [this, List.getElem?_eq_getElem]
  · exact m.read_writeBytes_outside a v b (by omega)

end Sys2Proof.Machine
end

