-- ==== Sys2Proof/Laws/State.lean ====
section
/-! SUPPORT. One lemma per field per update: what each named operation leaves alone, and the fields it sets outright.
-/

namespace Sys2Proof.Machine

variable (s : State)

/-! ### `indexSet` -/

@[simp] theorem indexSet_cfg (k : Slot) (p : Pixel) : (s.indexSet k p).cfg = s.cfg := rfl
@[simp] theorem indexSet_prev (k : Slot) (p : Pixel) : (s.indexSet k p).prev = s.prev := rfl
@[simp] theorem indexSet_run (k : Slot) (p : Pixel) : (s.indexSet k p).run = s.run := rfl
@[simp] theorem indexSet_phase (k : Slot) (p : Pixel) : (s.indexSet k p).phase = s.phase := rfl
@[simp] theorem indexSet_pxCount (k : Slot) (p : Pixel) : (s.indexSet k p).pxCount = s.pxCount := rfl
@[simp] theorem indexSet_hdrValid (k : Slot) (p : Pixel) : (s.indexSet k p).hdrValid = s.hdrValid := rfl
@[simp] theorem indexSet_err (k : Slot) (p : Pixel) : (s.indexSet k p).err = s.err := rfl
@[simp] theorem indexSet_width (k : Slot) (p : Pixel) : (s.indexSet k p).width = s.width := rfl
@[simp] theorem indexSet_height (k : Slot) (p : Pixel) : (s.indexSet k p).height = s.height := rfl
@[simp] theorem indexSet_channels (k : Slot) (p : Pixel) : (s.indexSet k p).channels = s.channels := rfl
@[simp] theorem indexSet_colorspace (k : Slot) (p : Pixel) : (s.indexSet k p).colorspace = s.colorspace := rfl
@[simp] theorem indexSet_total (k : Slot) (p : Pixel) : (s.indexSet k p).total = s.total := rfl
@[simp] theorem indexSet_carry (k : Slot) (p : Pixel) : (s.indexSet k p).carry = s.carry := rfl
@[simp] theorem indexSet_facc (k : Slot) (p : Pixel) : (s.indexSet k p).facc = s.facc := rfl
@[simp] theorem indexSet_pix (k : Slot) (p : Pixel) : (s.indexSet k p).pix = s.pix := rfl
@[simp] theorem indexSet_stream (k : Slot) (p : Pixel) : (s.indexSet k p).stream = s.stream := rfl
@[simp] theorem indexSet_cmds (k : Slot) (p : Pixel) : (s.indexSet k p).cmds = s.cmds := rfl
@[simp] theorem indexSet_reply (k : Slot) (p : Pixel) : (s.indexSet k p).reply = s.reply := rfl
@[simp] theorem indexSet_out (k : Slot) (p : Pixel) : (s.indexSet k p).out = s.out := rfl
@[simp] theorem indexSet_hdrEvent (k : Slot) (p : Pixel) : (s.indexSet k p).hdrEvent = s.hdrEvent := rfl
@[simp] theorem indexSet_walker (k : Slot) (p : Pixel) : (s.indexSet k p).walker = s.walker := rfl
@[simp] theorem indexSet_freeCount (k : Slot) (p : Pixel) : (s.indexSet k p).freeCount = s.freeCount := rfl
@[simp] theorem indexSet_index (k : Slot) (p : Pixel) : (s.indexSet k p).index = s.index.set k.toNat p k.isLt := rfl

/-! ### `writeBack` -/

@[simp] theorem writeBack_cfg (p : Pixel) : (writeBack p s).cfg = s.cfg := rfl
@[simp] theorem writeBack_run (p : Pixel) : (writeBack p s).run = s.run := rfl
@[simp] theorem writeBack_phase (p : Pixel) : (writeBack p s).phase = s.phase := rfl
@[simp] theorem writeBack_pxCount (p : Pixel) : (writeBack p s).pxCount = s.pxCount := rfl
@[simp] theorem writeBack_hdrValid (p : Pixel) : (writeBack p s).hdrValid = s.hdrValid := rfl
@[simp] theorem writeBack_err (p : Pixel) : (writeBack p s).err = s.err := rfl
@[simp] theorem writeBack_width (p : Pixel) : (writeBack p s).width = s.width := rfl
@[simp] theorem writeBack_height (p : Pixel) : (writeBack p s).height = s.height := rfl
@[simp] theorem writeBack_channels (p : Pixel) : (writeBack p s).channels = s.channels := rfl
@[simp] theorem writeBack_colorspace (p : Pixel) : (writeBack p s).colorspace = s.colorspace := rfl
@[simp] theorem writeBack_total (p : Pixel) : (writeBack p s).total = s.total := rfl
@[simp] theorem writeBack_carry (p : Pixel) : (writeBack p s).carry = s.carry := rfl
@[simp] theorem writeBack_facc (p : Pixel) : (writeBack p s).facc = s.facc := rfl
@[simp] theorem writeBack_pix (p : Pixel) : (writeBack p s).pix = s.pix := rfl
@[simp] theorem writeBack_stream (p : Pixel) : (writeBack p s).stream = s.stream := rfl
@[simp] theorem writeBack_cmds (p : Pixel) : (writeBack p s).cmds = s.cmds := rfl
@[simp] theorem writeBack_reply (p : Pixel) : (writeBack p s).reply = s.reply := rfl
@[simp] theorem writeBack_out (p : Pixel) : (writeBack p s).out = s.out := rfl
@[simp] theorem writeBack_hdrEvent (p : Pixel) : (writeBack p s).hdrEvent = s.hdrEvent := rfl
@[simp] theorem writeBack_walker (p : Pixel) : (writeBack p s).walker = s.walker := rfl
@[simp] theorem writeBack_freeCount (p : Pixel) : (writeBack p s).freeCount = s.freeCount := rfl
@[simp] theorem writeBack_prev (p : Pixel) : (writeBack p s).prev = p := rfl
@[simp] theorem writeBack_index (p : Pixel) : (writeBack p s).index = s.index.set (hash p).toNat p (hash p).isLt := rfl

/-! ### `emit` -/

@[simp] theorem emit_cfg (bytes : List Byte) : (emit bytes s).cfg = s.cfg := by unfold emit; cases s.walker <;> rfl
@[simp] theorem emit_prev (bytes : List Byte) : (emit bytes s).prev = s.prev := by unfold emit; cases s.walker <;> rfl
@[simp] theorem emit_run (bytes : List Byte) : (emit bytes s).run = s.run := by unfold emit; cases s.walker <;> rfl
@[simp] theorem emit_index (bytes : List Byte) : (emit bytes s).index = s.index := by unfold emit; cases s.walker <;> rfl
@[simp] theorem emit_phase (bytes : List Byte) : (emit bytes s).phase = s.phase := by unfold emit; cases s.walker <;> rfl
@[simp] theorem emit_pxCount (bytes : List Byte) : (emit bytes s).pxCount = s.pxCount := by unfold emit; cases s.walker <;> rfl
@[simp] theorem emit_hdrValid (bytes : List Byte) : (emit bytes s).hdrValid = s.hdrValid := by unfold emit; cases s.walker <;> rfl
@[simp] theorem emit_err (bytes : List Byte) : (emit bytes s).err = s.err := by unfold emit; cases s.walker <;> rfl
@[simp] theorem emit_width (bytes : List Byte) : (emit bytes s).width = s.width := by unfold emit; cases s.walker <;> rfl
@[simp] theorem emit_height (bytes : List Byte) : (emit bytes s).height = s.height := by unfold emit; cases s.walker <;> rfl
@[simp] theorem emit_channels (bytes : List Byte) : (emit bytes s).channels = s.channels := by unfold emit; cases s.walker <;> rfl
@[simp] theorem emit_colorspace (bytes : List Byte) : (emit bytes s).colorspace = s.colorspace := by unfold emit; cases s.walker <;> rfl
@[simp] theorem emit_total (bytes : List Byte) : (emit bytes s).total = s.total := by unfold emit; cases s.walker <;> rfl
@[simp] theorem emit_carry (bytes : List Byte) : (emit bytes s).carry = s.carry := by unfold emit; cases s.walker <;> rfl
@[simp] theorem emit_facc (bytes : List Byte) : (emit bytes s).facc = s.facc := by unfold emit; cases s.walker <;> rfl
@[simp] theorem emit_pix (bytes : List Byte) : (emit bytes s).pix = s.pix := by unfold emit; cases s.walker <;> rfl
@[simp] theorem emit_cmds (bytes : List Byte) : (emit bytes s).cmds = s.cmds := by unfold emit; cases s.walker <;> rfl
@[simp] theorem emit_reply (bytes : List Byte) : (emit bytes s).reply = s.reply := by unfold emit; cases s.walker <;> rfl
@[simp] theorem emit_hdrEvent (bytes : List Byte) : (emit bytes s).hdrEvent = s.hdrEvent := by unfold emit; cases s.walker <;> rfl
@[simp] theorem emit_freeCount (bytes : List Byte) : (emit bytes s).freeCount = s.freeCount := by unfold emit; cases s.walker <;> rfl

/-! ### `outPixel` -/

@[simp] theorem outPixel_cfg (p : Pixel) : (outPixel p s).cfg = s.cfg := by unfold outPixel; cases s.walker <;> rfl
@[simp] theorem outPixel_prev (p : Pixel) : (outPixel p s).prev = s.prev := by unfold outPixel; cases s.walker <;> rfl
@[simp] theorem outPixel_run (p : Pixel) : (outPixel p s).run = s.run := by unfold outPixel; cases s.walker <;> rfl
@[simp] theorem outPixel_index (p : Pixel) : (outPixel p s).index = s.index := by unfold outPixel; cases s.walker <;> rfl
@[simp] theorem outPixel_phase (p : Pixel) : (outPixel p s).phase = s.phase := by unfold outPixel; cases s.walker <;> rfl
@[simp] theorem outPixel_hdrValid (p : Pixel) : (outPixel p s).hdrValid = s.hdrValid := by unfold outPixel; cases s.walker <;> rfl
@[simp] theorem outPixel_err (p : Pixel) : (outPixel p s).err = s.err := by unfold outPixel; cases s.walker <;> rfl
@[simp] theorem outPixel_width (p : Pixel) : (outPixel p s).width = s.width := by unfold outPixel; cases s.walker <;> rfl
@[simp] theorem outPixel_height (p : Pixel) : (outPixel p s).height = s.height := by unfold outPixel; cases s.walker <;> rfl
@[simp] theorem outPixel_channels (p : Pixel) : (outPixel p s).channels = s.channels := by unfold outPixel; cases s.walker <;> rfl
@[simp] theorem outPixel_colorspace (p : Pixel) : (outPixel p s).colorspace = s.colorspace := by unfold outPixel; cases s.walker <;> rfl
@[simp] theorem outPixel_total (p : Pixel) : (outPixel p s).total = s.total := by unfold outPixel; cases s.walker <;> rfl
@[simp] theorem outPixel_carry (p : Pixel) : (outPixel p s).carry = s.carry := by unfold outPixel; cases s.walker <;> rfl
@[simp] theorem outPixel_facc (p : Pixel) : (outPixel p s).facc = s.facc := by unfold outPixel; cases s.walker <;> rfl
@[simp] theorem outPixel_stream (p : Pixel) : (outPixel p s).stream = s.stream := by unfold outPixel; cases s.walker <;> rfl
@[simp] theorem outPixel_cmds (p : Pixel) : (outPixel p s).cmds = s.cmds := by unfold outPixel; cases s.walker <;> rfl
@[simp] theorem outPixel_reply (p : Pixel) : (outPixel p s).reply = s.reply := by unfold outPixel; cases s.walker <;> rfl
@[simp] theorem outPixel_hdrEvent (p : Pixel) : (outPixel p s).hdrEvent = s.hdrEvent := by unfold outPixel; cases s.walker <;> rfl
@[simp] theorem outPixel_walker (p : Pixel) : (outPixel p s).walker = s.walker := by unfold outPixel; cases s.walker <;> rfl
@[simp] theorem outPixel_freeCount (p : Pixel) : (outPixel p s).freeCount = s.freeCount := by unfold outPixel; cases s.walker <;> rfl
@[simp] theorem outPixel_pxCount (p : Pixel) : (outPixel p s).pxCount = s.pxCount + 1 := by unfold outPixel; cases s.walker <;> rfl

/-! ### `outPixels` -/

@[simp] theorem outPixels_cfg (n : Nat) (p : Pixel) : (outPixels n p s).cfg = s.cfg := by induction n generalizing s <;> simp_all [outPixels]
@[simp] theorem outPixels_prev (n : Nat) (p : Pixel) : (outPixels n p s).prev = s.prev := by induction n generalizing s <;> simp_all [outPixels]
@[simp] theorem outPixels_run (n : Nat) (p : Pixel) : (outPixels n p s).run = s.run := by induction n generalizing s <;> simp_all [outPixels]
@[simp] theorem outPixels_index (n : Nat) (p : Pixel) : (outPixels n p s).index = s.index := by induction n generalizing s <;> simp_all [outPixels]
@[simp] theorem outPixels_phase (n : Nat) (p : Pixel) : (outPixels n p s).phase = s.phase := by induction n generalizing s <;> simp_all [outPixels]
@[simp] theorem outPixels_hdrValid (n : Nat) (p : Pixel) : (outPixels n p s).hdrValid = s.hdrValid := by induction n generalizing s <;> simp_all [outPixels]
@[simp] theorem outPixels_err (n : Nat) (p : Pixel) : (outPixels n p s).err = s.err := by induction n generalizing s <;> simp_all [outPixels]
@[simp] theorem outPixels_width (n : Nat) (p : Pixel) : (outPixels n p s).width = s.width := by induction n generalizing s <;> simp_all [outPixels]
@[simp] theorem outPixels_height (n : Nat) (p : Pixel) : (outPixels n p s).height = s.height := by induction n generalizing s <;> simp_all [outPixels]
@[simp] theorem outPixels_channels (n : Nat) (p : Pixel) : (outPixels n p s).channels = s.channels := by induction n generalizing s <;> simp_all [outPixels]
@[simp] theorem outPixels_colorspace (n : Nat) (p : Pixel) : (outPixels n p s).colorspace = s.colorspace := by induction n generalizing s <;> simp_all [outPixels]
@[simp] theorem outPixels_total (n : Nat) (p : Pixel) : (outPixels n p s).total = s.total := by induction n generalizing s <;> simp_all [outPixels]
@[simp] theorem outPixels_carry (n : Nat) (p : Pixel) : (outPixels n p s).carry = s.carry := by induction n generalizing s <;> simp_all [outPixels]
@[simp] theorem outPixels_facc (n : Nat) (p : Pixel) : (outPixels n p s).facc = s.facc := by induction n generalizing s <;> simp_all [outPixels]
@[simp] theorem outPixels_stream (n : Nat) (p : Pixel) : (outPixels n p s).stream = s.stream := by induction n generalizing s <;> simp_all [outPixels]
@[simp] theorem outPixels_cmds (n : Nat) (p : Pixel) : (outPixels n p s).cmds = s.cmds := by induction n generalizing s <;> simp_all [outPixels]
@[simp] theorem outPixels_reply (n : Nat) (p : Pixel) : (outPixels n p s).reply = s.reply := by induction n generalizing s <;> simp_all [outPixels]
@[simp] theorem outPixels_hdrEvent (n : Nat) (p : Pixel) : (outPixels n p s).hdrEvent = s.hdrEvent := by induction n generalizing s <;> simp_all [outPixels]
@[simp] theorem outPixels_walker (n : Nat) (p : Pixel) : (outPixels n p s).walker = s.walker := by induction n generalizing s <;> simp_all [outPixels]
@[simp] theorem outPixels_freeCount (n : Nat) (p : Pixel) : (outPixels n p s).freeCount = s.freeCount := by induction n generalizing s <;> simp_all [outPixels]

/-! ### `raise` -/

@[simp] theorem raise_cfg (kind : ErrKind) (sub : SubCause) : (raise kind sub s).cfg = s.cfg := rfl
@[simp] theorem raise_prev (kind : ErrKind) (sub : SubCause) : (raise kind sub s).prev = s.prev := rfl
@[simp] theorem raise_run (kind : ErrKind) (sub : SubCause) : (raise kind sub s).run = s.run := rfl
@[simp] theorem raise_index (kind : ErrKind) (sub : SubCause) : (raise kind sub s).index = s.index := rfl
@[simp] theorem raise_pxCount (kind : ErrKind) (sub : SubCause) : (raise kind sub s).pxCount = s.pxCount := rfl
@[simp] theorem raise_hdrValid (kind : ErrKind) (sub : SubCause) : (raise kind sub s).hdrValid = s.hdrValid := rfl
@[simp] theorem raise_width (kind : ErrKind) (sub : SubCause) : (raise kind sub s).width = s.width := rfl
@[simp] theorem raise_height (kind : ErrKind) (sub : SubCause) : (raise kind sub s).height = s.height := rfl
@[simp] theorem raise_channels (kind : ErrKind) (sub : SubCause) : (raise kind sub s).channels = s.channels := rfl
@[simp] theorem raise_colorspace (kind : ErrKind) (sub : SubCause) : (raise kind sub s).colorspace = s.colorspace := rfl
@[simp] theorem raise_total (kind : ErrKind) (sub : SubCause) : (raise kind sub s).total = s.total := rfl
@[simp] theorem raise_carry (kind : ErrKind) (sub : SubCause) : (raise kind sub s).carry = s.carry := rfl
@[simp] theorem raise_facc (kind : ErrKind) (sub : SubCause) : (raise kind sub s).facc = s.facc := rfl
@[simp] theorem raise_pix (kind : ErrKind) (sub : SubCause) : (raise kind sub s).pix = s.pix := rfl
@[simp] theorem raise_stream (kind : ErrKind) (sub : SubCause) : (raise kind sub s).stream = s.stream := rfl
@[simp] theorem raise_cmds (kind : ErrKind) (sub : SubCause) : (raise kind sub s).cmds = s.cmds := rfl
@[simp] theorem raise_reply (kind : ErrKind) (sub : SubCause) : (raise kind sub s).reply = s.reply := rfl
@[simp] theorem raise_out (kind : ErrKind) (sub : SubCause) : (raise kind sub s).out = s.out := rfl
@[simp] theorem raise_hdrEvent (kind : ErrKind) (sub : SubCause) : (raise kind sub s).hdrEvent = s.hdrEvent := rfl
@[simp] theorem raise_walker (kind : ErrKind) (sub : SubCause) : (raise kind sub s).walker = s.walker := rfl
@[simp] theorem raise_freeCount (kind : ErrKind) (sub : SubCause) : (raise kind sub s).freeCount = s.freeCount := rfl
@[simp] theorem raise_phase (kind : ErrKind) (sub : SubCause) : (raise kind sub s).phase = .failed := rfl
@[simp] theorem raise_err (kind : ErrKind) (sub : SubCause) : (raise kind sub s).err = if s.err.kind = .none then ⟨kind, sub⟩ else s.err := rfl

/-! ### `openCommand` -/

@[simp] theorem openCommand_cfg (w : Walker) : (openCommand w s).cfg = s.cfg := rfl
@[simp] theorem openCommand_prev (w : Walker) : (openCommand w s).prev = s.prev := rfl
@[simp] theorem openCommand_run (w : Walker) : (openCommand w s).run = s.run := rfl
@[simp] theorem openCommand_index (w : Walker) : (openCommand w s).index = s.index := rfl
@[simp] theorem openCommand_phase (w : Walker) : (openCommand w s).phase = s.phase := rfl
@[simp] theorem openCommand_pxCount (w : Walker) : (openCommand w s).pxCount = s.pxCount := rfl
@[simp] theorem openCommand_hdrValid (w : Walker) : (openCommand w s).hdrValid = s.hdrValid := rfl
@[simp] theorem openCommand_err (w : Walker) : (openCommand w s).err = s.err := rfl
@[simp] theorem openCommand_width (w : Walker) : (openCommand w s).width = s.width := rfl
@[simp] theorem openCommand_height (w : Walker) : (openCommand w s).height = s.height := rfl
@[simp] theorem openCommand_channels (w : Walker) : (openCommand w s).channels = s.channels := rfl
@[simp] theorem openCommand_colorspace (w : Walker) : (openCommand w s).colorspace = s.colorspace := rfl
@[simp] theorem openCommand_total (w : Walker) : (openCommand w s).total = s.total := rfl
@[simp] theorem openCommand_carry (w : Walker) : (openCommand w s).carry = s.carry := rfl
@[simp] theorem openCommand_facc (w : Walker) : (openCommand w s).facc = s.facc := rfl
@[simp] theorem openCommand_pix (w : Walker) : (openCommand w s).pix = s.pix := rfl
@[simp] theorem openCommand_stream (w : Walker) : (openCommand w s).stream = s.stream := rfl
@[simp] theorem openCommand_cmds (w : Walker) : (openCommand w s).cmds = s.cmds := rfl
@[simp] theorem openCommand_reply (w : Walker) : (openCommand w s).reply = s.reply := rfl
@[simp] theorem openCommand_freeCount (w : Walker) : (openCommand w s).freeCount = s.freeCount := rfl
@[simp] theorem openCommand_out (w : Walker) : (openCommand w s).out = [] := rfl
@[simp] theorem openCommand_hdrEvent (w : Walker) : (openCommand w s).hdrEvent = none := rfl
@[simp] theorem openCommand_walker (w : Walker) : (openCommand w s).walker = w := rfl

/-! ### `closeCommand` -/

@[simp] theorem closeCommand_cfg (r : Result) : (closeCommand r s).cfg = s.cfg := rfl
@[simp] theorem closeCommand_prev (r : Result) : (closeCommand r s).prev = s.prev := rfl
@[simp] theorem closeCommand_run (r : Result) : (closeCommand r s).run = s.run := rfl
@[simp] theorem closeCommand_index (r : Result) : (closeCommand r s).index = s.index := rfl
@[simp] theorem closeCommand_phase (r : Result) : (closeCommand r s).phase = s.phase := rfl
@[simp] theorem closeCommand_pxCount (r : Result) : (closeCommand r s).pxCount = s.pxCount := rfl
@[simp] theorem closeCommand_hdrValid (r : Result) : (closeCommand r s).hdrValid = s.hdrValid := rfl
@[simp] theorem closeCommand_err (r : Result) : (closeCommand r s).err = s.err := rfl
@[simp] theorem closeCommand_width (r : Result) : (closeCommand r s).width = s.width := rfl
@[simp] theorem closeCommand_height (r : Result) : (closeCommand r s).height = s.height := rfl
@[simp] theorem closeCommand_channels (r : Result) : (closeCommand r s).channels = s.channels := rfl
@[simp] theorem closeCommand_colorspace (r : Result) : (closeCommand r s).colorspace = s.colorspace := rfl
@[simp] theorem closeCommand_total (r : Result) : (closeCommand r s).total = s.total := rfl
@[simp] theorem closeCommand_carry (r : Result) : (closeCommand r s).carry = s.carry := rfl
@[simp] theorem closeCommand_facc (r : Result) : (closeCommand r s).facc = s.facc := rfl
@[simp] theorem closeCommand_pix (r : Result) : (closeCommand r s).pix = s.pix := rfl
@[simp] theorem closeCommand_stream (r : Result) : (closeCommand r s).stream = s.stream := rfl
@[simp] theorem closeCommand_cmds (r : Result) : (closeCommand r s).cmds = s.cmds := rfl
@[simp] theorem closeCommand_freeCount (r : Result) : (closeCommand r s).freeCount = s.freeCount := rfl
@[simp] theorem closeCommand_out (r : Result) : (closeCommand r s).out = [] := rfl
@[simp] theorem closeCommand_hdrEvent (r : Result) : (closeCommand r s).hdrEvent = none := rfl
@[simp] theorem closeCommand_walker (r : Result) : (closeCommand r s).walker = .byValue := rfl
@[simp] theorem closeCommand_reply (r : Result) : (closeCommand r s).reply = some r := rfl

/-! ### `closeFailed` -/

@[simp] theorem closeFailed_cfg : (closeFailed s).cfg = s.cfg := rfl
@[simp] theorem closeFailed_prev : (closeFailed s).prev = s.prev := rfl
@[simp] theorem closeFailed_run : (closeFailed s).run = s.run := rfl
@[simp] theorem closeFailed_index : (closeFailed s).index = s.index := rfl
@[simp] theorem closeFailed_phase : (closeFailed s).phase = s.phase := rfl
@[simp] theorem closeFailed_pxCount : (closeFailed s).pxCount = s.pxCount := rfl
@[simp] theorem closeFailed_hdrValid : (closeFailed s).hdrValid = s.hdrValid := rfl
@[simp] theorem closeFailed_err : (closeFailed s).err = s.err := rfl
@[simp] theorem closeFailed_width : (closeFailed s).width = s.width := rfl
@[simp] theorem closeFailed_height : (closeFailed s).height = s.height := rfl
@[simp] theorem closeFailed_channels : (closeFailed s).channels = s.channels := rfl
@[simp] theorem closeFailed_colorspace : (closeFailed s).colorspace = s.colorspace := rfl
@[simp] theorem closeFailed_total : (closeFailed s).total = s.total := rfl
@[simp] theorem closeFailed_carry : (closeFailed s).carry = s.carry := rfl
@[simp] theorem closeFailed_facc : (closeFailed s).facc = s.facc := rfl
@[simp] theorem closeFailed_pix : (closeFailed s).pix = s.pix := rfl
@[simp] theorem closeFailed_stream : (closeFailed s).stream = s.stream := rfl
@[simp] theorem closeFailed_cmds : (closeFailed s).cmds = s.cmds := rfl
@[simp] theorem closeFailed_freeCount : (closeFailed s).freeCount = s.freeCount := rfl
@[simp] theorem closeFailed_out : (closeFailed s).out = [] := rfl
@[simp] theorem closeFailed_hdrEvent : (closeFailed s).hdrEvent = none := rfl
@[simp] theorem closeFailed_walker : (closeFailed s).walker = .byValue := rfl
@[simp] theorem closeFailed_reply : (closeFailed s).reply = some (.error s.err.kind s.err.sub) := rfl

/-! ### `refuse` -/

@[simp] theorem refuse_cfg (r : RefuseReason) : (refuse r s).cfg = s.cfg := rfl
@[simp] theorem refuse_prev (r : RefuseReason) : (refuse r s).prev = s.prev := rfl
@[simp] theorem refuse_run (r : RefuseReason) : (refuse r s).run = s.run := rfl
@[simp] theorem refuse_index (r : RefuseReason) : (refuse r s).index = s.index := rfl
@[simp] theorem refuse_phase (r : RefuseReason) : (refuse r s).phase = s.phase := rfl
@[simp] theorem refuse_pxCount (r : RefuseReason) : (refuse r s).pxCount = s.pxCount := rfl
@[simp] theorem refuse_hdrValid (r : RefuseReason) : (refuse r s).hdrValid = s.hdrValid := rfl
@[simp] theorem refuse_err (r : RefuseReason) : (refuse r s).err = s.err := rfl
@[simp] theorem refuse_width (r : RefuseReason) : (refuse r s).width = s.width := rfl
@[simp] theorem refuse_height (r : RefuseReason) : (refuse r s).height = s.height := rfl
@[simp] theorem refuse_channels (r : RefuseReason) : (refuse r s).channels = s.channels := rfl
@[simp] theorem refuse_colorspace (r : RefuseReason) : (refuse r s).colorspace = s.colorspace := rfl
@[simp] theorem refuse_total (r : RefuseReason) : (refuse r s).total = s.total := rfl
@[simp] theorem refuse_carry (r : RefuseReason) : (refuse r s).carry = s.carry := rfl
@[simp] theorem refuse_facc (r : RefuseReason) : (refuse r s).facc = s.facc := rfl
@[simp] theorem refuse_pix (r : RefuseReason) : (refuse r s).pix = s.pix := rfl
@[simp] theorem refuse_stream (r : RefuseReason) : (refuse r s).stream = s.stream := rfl
@[simp] theorem refuse_cmds (r : RefuseReason) : (refuse r s).cmds = s.cmds := rfl
@[simp] theorem refuse_out (r : RefuseReason) : (refuse r s).out = s.out := rfl
@[simp] theorem refuse_hdrEvent (r : RefuseReason) : (refuse r s).hdrEvent = s.hdrEvent := rfl
@[simp] theorem refuse_walker (r : RefuseReason) : (refuse r s).walker = s.walker := rfl
@[simp] theorem refuse_freeCount (r : RefuseReason) : (refuse r s).freeCount = s.freeCount := rfl
@[simp] theorem refuse_reply (r : RefuseReason) : (refuse r s).reply = some (.refused r) := rfl

/-! ### `unspecifiedPix` -/

@[simp] theorem unspecifiedPix_cfg (cap : Nat) : (unspecifiedPix cap s).cfg = s.cfg := rfl
@[simp] theorem unspecifiedPix_prev (cap : Nat) : (unspecifiedPix cap s).prev = s.prev := rfl
@[simp] theorem unspecifiedPix_run (cap : Nat) : (unspecifiedPix cap s).run = s.run := rfl
@[simp] theorem unspecifiedPix_index (cap : Nat) : (unspecifiedPix cap s).index = s.index := rfl
@[simp] theorem unspecifiedPix_phase (cap : Nat) : (unspecifiedPix cap s).phase = s.phase := rfl
@[simp] theorem unspecifiedPix_pxCount (cap : Nat) : (unspecifiedPix cap s).pxCount = s.pxCount := rfl
@[simp] theorem unspecifiedPix_hdrValid (cap : Nat) : (unspecifiedPix cap s).hdrValid = s.hdrValid := rfl
@[simp] theorem unspecifiedPix_err (cap : Nat) : (unspecifiedPix cap s).err = s.err := rfl
@[simp] theorem unspecifiedPix_width (cap : Nat) : (unspecifiedPix cap s).width = s.width := rfl
@[simp] theorem unspecifiedPix_height (cap : Nat) : (unspecifiedPix cap s).height = s.height := rfl
@[simp] theorem unspecifiedPix_channels (cap : Nat) : (unspecifiedPix cap s).channels = s.channels := rfl
@[simp] theorem unspecifiedPix_colorspace (cap : Nat) : (unspecifiedPix cap s).colorspace = s.colorspace := rfl
@[simp] theorem unspecifiedPix_total (cap : Nat) : (unspecifiedPix cap s).total = s.total := rfl
@[simp] theorem unspecifiedPix_carry (cap : Nat) : (unspecifiedPix cap s).carry = s.carry := rfl
@[simp] theorem unspecifiedPix_facc (cap : Nat) : (unspecifiedPix cap s).facc = s.facc := rfl
@[simp] theorem unspecifiedPix_stream (cap : Nat) : (unspecifiedPix cap s).stream = s.stream := rfl
@[simp] theorem unspecifiedPix_cmds (cap : Nat) : (unspecifiedPix cap s).cmds = s.cmds := rfl
@[simp] theorem unspecifiedPix_reply (cap : Nat) : (unspecifiedPix cap s).reply = s.reply := rfl
@[simp] theorem unspecifiedPix_out (cap : Nat) : (unspecifiedPix cap s).out = s.out := rfl
@[simp] theorem unspecifiedPix_hdrEvent (cap : Nat) : (unspecifiedPix cap s).hdrEvent = s.hdrEvent := rfl
@[simp] theorem unspecifiedPix_walker (cap : Nat) : (unspecifiedPix cap s).walker = s.walker := rfl
@[simp] theorem unspecifiedPix_freeCount (cap : Nat) : (unspecifiedPix cap s).freeCount = s.freeCount + cap := rfl

/-! ### `checkFields` -/

@[simp] theorem checkFields_cfg (w h : Dim) (c cs : Byte) : (checkFields w h c cs s).cfg = s.cfg := by unfold checkFields; (repeat' split) <;> rfl
@[simp] theorem checkFields_prev (w h : Dim) (c cs : Byte) : (checkFields w h c cs s).prev = s.prev := by unfold checkFields; (repeat' split) <;> rfl
@[simp] theorem checkFields_run (w h : Dim) (c cs : Byte) : (checkFields w h c cs s).run = s.run := by unfold checkFields; (repeat' split) <;> rfl
@[simp] theorem checkFields_index (w h : Dim) (c cs : Byte) : (checkFields w h c cs s).index = s.index := by unfold checkFields; (repeat' split) <;> rfl
@[simp] theorem checkFields_pxCount (w h : Dim) (c cs : Byte) : (checkFields w h c cs s).pxCount = s.pxCount := by unfold checkFields; (repeat' split) <;> rfl
@[simp] theorem checkFields_carry (w h : Dim) (c cs : Byte) : (checkFields w h c cs s).carry = s.carry := by unfold checkFields; (repeat' split) <;> rfl
@[simp] theorem checkFields_facc (w h : Dim) (c cs : Byte) : (checkFields w h c cs s).facc = s.facc := by unfold checkFields; (repeat' split) <;> rfl
@[simp] theorem checkFields_pix (w h : Dim) (c cs : Byte) : (checkFields w h c cs s).pix = s.pix := by unfold checkFields; (repeat' split) <;> rfl
@[simp] theorem checkFields_stream (w h : Dim) (c cs : Byte) : (checkFields w h c cs s).stream = s.stream := by unfold checkFields; (repeat' split) <;> rfl
@[simp] theorem checkFields_cmds (w h : Dim) (c cs : Byte) : (checkFields w h c cs s).cmds = s.cmds := by unfold checkFields; (repeat' split) <;> rfl
@[simp] theorem checkFields_reply (w h : Dim) (c cs : Byte) : (checkFields w h c cs s).reply = s.reply := by unfold checkFields; (repeat' split) <;> rfl
@[simp] theorem checkFields_out (w h : Dim) (c cs : Byte) : (checkFields w h c cs s).out = s.out := by unfold checkFields; (repeat' split) <;> rfl
@[simp] theorem checkFields_hdrEvent (w h : Dim) (c cs : Byte) : (checkFields w h c cs s).hdrEvent = s.hdrEvent := by unfold checkFields; (repeat' split) <;> rfl
@[simp] theorem checkFields_walker (w h : Dim) (c cs : Byte) : (checkFields w h c cs s).walker = s.walker := by unfold checkFields; (repeat' split) <;> rfl
@[simp] theorem checkFields_freeCount (w h : Dim) (c cs : Byte) : (checkFields w h c cs s).freeCount = s.freeCount := by unfold checkFields; (repeat' split) <;> rfl

/-! ### `deliver` -/

@[simp] theorem deliver_cfg (p : Pixel) : (deliver p s).cfg = s.cfg := by simp [deliver]
@[simp] theorem deliver_run (p : Pixel) : (deliver p s).run = s.run := by simp [deliver]
@[simp] theorem deliver_phase (p : Pixel) : (deliver p s).phase = s.phase := by simp [deliver]
@[simp] theorem deliver_hdrValid (p : Pixel) : (deliver p s).hdrValid = s.hdrValid := by simp [deliver]
@[simp] theorem deliver_err (p : Pixel) : (deliver p s).err = s.err := by simp [deliver]
@[simp] theorem deliver_width (p : Pixel) : (deliver p s).width = s.width := by simp [deliver]
@[simp] theorem deliver_height (p : Pixel) : (deliver p s).height = s.height := by simp [deliver]
@[simp] theorem deliver_channels (p : Pixel) : (deliver p s).channels = s.channels := by simp [deliver]
@[simp] theorem deliver_colorspace (p : Pixel) : (deliver p s).colorspace = s.colorspace := by simp [deliver]
@[simp] theorem deliver_total (p : Pixel) : (deliver p s).total = s.total := by simp [deliver]
@[simp] theorem deliver_carry (p : Pixel) : (deliver p s).carry = s.carry := by simp [deliver]
@[simp] theorem deliver_facc (p : Pixel) : (deliver p s).facc = s.facc := by simp [deliver]
@[simp] theorem deliver_stream (p : Pixel) : (deliver p s).stream = s.stream := by simp [deliver]
@[simp] theorem deliver_cmds (p : Pixel) : (deliver p s).cmds = s.cmds := by simp [deliver]
@[simp] theorem deliver_reply (p : Pixel) : (deliver p s).reply = s.reply := by simp [deliver]
@[simp] theorem deliver_hdrEvent (p : Pixel) : (deliver p s).hdrEvent = s.hdrEvent := by simp [deliver]
@[simp] theorem deliver_walker (p : Pixel) : (deliver p s).walker = s.walker := by simp [deliver]
@[simp] theorem deliver_freeCount (p : Pixel) : (deliver p s).freeCount = s.freeCount := by simp [deliver]
@[simp] theorem deliver_prev (p : Pixel) : (deliver p s).prev = alphaFix s p := by simp [deliver]
@[simp] theorem deliver_index (p : Pixel) : (deliver p s).index = s.index.set (hash (alphaFix s p)).toNat (alphaFix s p) (hash (alphaFix s p)).isLt := by simp [deliver]
@[simp] theorem deliver_pxCount (p : Pixel) : (deliver p s).pxCount = s.pxCount + 1 := by simp [deliver]

/-! ### `endChunk` -/

@[simp] theorem endChunk_cfg : (endChunk s).cfg = s.cfg := by unfold endChunk; split <;> rfl
@[simp] theorem endChunk_prev : (endChunk s).prev = s.prev := by unfold endChunk; split <;> rfl
@[simp] theorem endChunk_run : (endChunk s).run = s.run := by unfold endChunk; split <;> rfl
@[simp] theorem endChunk_index : (endChunk s).index = s.index := by unfold endChunk; split <;> rfl
@[simp] theorem endChunk_pxCount : (endChunk s).pxCount = s.pxCount := by unfold endChunk; split <;> rfl
@[simp] theorem endChunk_hdrValid : (endChunk s).hdrValid = s.hdrValid := by unfold endChunk; split <;> rfl
@[simp] theorem endChunk_err : (endChunk s).err = s.err := by unfold endChunk; split <;> rfl
@[simp] theorem endChunk_width : (endChunk s).width = s.width := by unfold endChunk; split <;> rfl
@[simp] theorem endChunk_height : (endChunk s).height = s.height := by unfold endChunk; split <;> rfl
@[simp] theorem endChunk_channels : (endChunk s).channels = s.channels := by unfold endChunk; split <;> rfl
@[simp] theorem endChunk_colorspace : (endChunk s).colorspace = s.colorspace := by unfold endChunk; split <;> rfl
@[simp] theorem endChunk_total : (endChunk s).total = s.total := by unfold endChunk; split <;> rfl
@[simp] theorem endChunk_carry : (endChunk s).carry = s.carry := by unfold endChunk; split <;> rfl
@[simp] theorem endChunk_facc : (endChunk s).facc = s.facc := by unfold endChunk; split <;> rfl
@[simp] theorem endChunk_pix : (endChunk s).pix = s.pix := by unfold endChunk; split <;> rfl
@[simp] theorem endChunk_stream : (endChunk s).stream = s.stream := by unfold endChunk; split <;> rfl
@[simp] theorem endChunk_cmds : (endChunk s).cmds = s.cmds := by unfold endChunk; split <;> rfl
@[simp] theorem endChunk_reply : (endChunk s).reply = s.reply := by unfold endChunk; split <;> rfl
@[simp] theorem endChunk_out : (endChunk s).out = s.out := by unfold endChunk; split <;> rfl
@[simp] theorem endChunk_hdrEvent : (endChunk s).hdrEvent = s.hdrEvent := by unfold endChunk; split <;> rfl
@[simp] theorem endChunk_walker : (endChunk s).walker = s.walker := by unfold endChunk; split <;> rfl
@[simp] theorem endChunk_freeCount : (endChunk s).freeCount = s.freeCount := by unfold endChunk; split <;> rfl

/-! ### `flushRun` -/

@[simp] theorem flushRun_cfg : (flushRun s).cfg = s.cfg := by unfold flushRun; split <;> simp
@[simp] theorem flushRun_prev : (flushRun s).prev = s.prev := by unfold flushRun; split <;> simp
@[simp] theorem flushRun_index : (flushRun s).index = s.index := by unfold flushRun; split <;> simp
@[simp] theorem flushRun_phase : (flushRun s).phase = s.phase := by unfold flushRun; split <;> simp
@[simp] theorem flushRun_pxCount : (flushRun s).pxCount = s.pxCount := by unfold flushRun; split <;> simp
@[simp] theorem flushRun_hdrValid : (flushRun s).hdrValid = s.hdrValid := by unfold flushRun; split <;> simp
@[simp] theorem flushRun_err : (flushRun s).err = s.err := by unfold flushRun; split <;> simp
@[simp] theorem flushRun_width : (flushRun s).width = s.width := by unfold flushRun; split <;> simp
@[simp] theorem flushRun_height : (flushRun s).height = s.height := by unfold flushRun; split <;> simp
@[simp] theorem flushRun_channels : (flushRun s).channels = s.channels := by unfold flushRun; split <;> simp
@[simp] theorem flushRun_colorspace : (flushRun s).colorspace = s.colorspace := by unfold flushRun; split <;> simp
@[simp] theorem flushRun_total : (flushRun s).total = s.total := by unfold flushRun; split <;> simp
@[simp] theorem flushRun_carry : (flushRun s).carry = s.carry := by unfold flushRun; split <;> simp
@[simp] theorem flushRun_facc : (flushRun s).facc = s.facc := by unfold flushRun; split <;> simp
@[simp] theorem flushRun_pix : (flushRun s).pix = s.pix := by unfold flushRun; split <;> simp
@[simp] theorem flushRun_cmds : (flushRun s).cmds = s.cmds := by unfold flushRun; split <;> simp
@[simp] theorem flushRun_reply : (flushRun s).reply = s.reply := by unfold flushRun; split <;> simp
@[simp] theorem flushRun_hdrEvent : (flushRun s).hdrEvent = s.hdrEvent := by unfold flushRun; split <;> simp
@[simp] theorem flushRun_freeCount : (flushRun s).freeCount = s.freeCount := by unfold flushRun; split <;> simp

/-! ### `extendRun` -/

@[simp] theorem extendRun_cfg : (extendRun s).cfg = s.cfg := by unfold extendRun; split <;> simp
@[simp] theorem extendRun_prev : (extendRun s).prev = s.prev := by unfold extendRun; split <;> simp
@[simp] theorem extendRun_index : (extendRun s).index = s.index := by unfold extendRun; split <;> simp
@[simp] theorem extendRun_phase : (extendRun s).phase = s.phase := by unfold extendRun; split <;> simp
@[simp] theorem extendRun_pxCount : (extendRun s).pxCount = s.pxCount := by unfold extendRun; split <;> simp
@[simp] theorem extendRun_hdrValid : (extendRun s).hdrValid = s.hdrValid := by unfold extendRun; split <;> simp
@[simp] theorem extendRun_err : (extendRun s).err = s.err := by unfold extendRun; split <;> simp
@[simp] theorem extendRun_width : (extendRun s).width = s.width := by unfold extendRun; split <;> simp
@[simp] theorem extendRun_height : (extendRun s).height = s.height := by unfold extendRun; split <;> simp
@[simp] theorem extendRun_channels : (extendRun s).channels = s.channels := by unfold extendRun; split <;> simp
@[simp] theorem extendRun_colorspace : (extendRun s).colorspace = s.colorspace := by unfold extendRun; split <;> simp
@[simp] theorem extendRun_total : (extendRun s).total = s.total := by unfold extendRun; split <;> simp
@[simp] theorem extendRun_carry : (extendRun s).carry = s.carry := by unfold extendRun; split <;> simp
@[simp] theorem extendRun_facc : (extendRun s).facc = s.facc := by unfold extendRun; split <;> simp
@[simp] theorem extendRun_pix : (extendRun s).pix = s.pix := by unfold extendRun; split <;> simp
@[simp] theorem extendRun_cmds : (extendRun s).cmds = s.cmds := by unfold extendRun; split <;> simp
@[simp] theorem extendRun_reply : (extendRun s).reply = s.reply := by unfold extendRun; split <;> simp
@[simp] theorem extendRun_hdrEvent : (extendRun s).hdrEvent = s.hdrEvent := by unfold extendRun; split <;> simp
@[simp] theorem extendRun_freeCount : (extendRun s).freeCount = s.freeCount := by unfold extendRun; split <;> simp

/-! ### `encPixel` -/

@[simp] theorem encPixel_cfg (p : Pixel) : (encPixel p s).cfg = s.cfg := by unfold encPixel; split <;> simp
@[simp] theorem encPixel_phase (p : Pixel) : (encPixel p s).phase = s.phase := by unfold encPixel; split <;> simp
@[simp] theorem encPixel_hdrValid (p : Pixel) : (encPixel p s).hdrValid = s.hdrValid := by unfold encPixel; split <;> simp
@[simp] theorem encPixel_err (p : Pixel) : (encPixel p s).err = s.err := by unfold encPixel; split <;> simp
@[simp] theorem encPixel_width (p : Pixel) : (encPixel p s).width = s.width := by unfold encPixel; split <;> simp
@[simp] theorem encPixel_height (p : Pixel) : (encPixel p s).height = s.height := by unfold encPixel; split <;> simp
@[simp] theorem encPixel_channels (p : Pixel) : (encPixel p s).channels = s.channels := by unfold encPixel; split <;> simp
@[simp] theorem encPixel_colorspace (p : Pixel) : (encPixel p s).colorspace = s.colorspace := by unfold encPixel; split <;> simp
@[simp] theorem encPixel_total (p : Pixel) : (encPixel p s).total = s.total := by unfold encPixel; split <;> simp
@[simp] theorem encPixel_carry (p : Pixel) : (encPixel p s).carry = s.carry := by unfold encPixel; split <;> simp
@[simp] theorem encPixel_facc (p : Pixel) : (encPixel p s).facc = s.facc := by unfold encPixel; split <;> simp
@[simp] theorem encPixel_pix (p : Pixel) : (encPixel p s).pix = s.pix := by unfold encPixel; split <;> simp
@[simp] theorem encPixel_cmds (p : Pixel) : (encPixel p s).cmds = s.cmds := by unfold encPixel; split <;> simp
@[simp] theorem encPixel_reply (p : Pixel) : (encPixel p s).reply = s.reply := by unfold encPixel; split <;> simp
@[simp] theorem encPixel_hdrEvent (p : Pixel) : (encPixel p s).hdrEvent = s.hdrEvent := by unfold encPixel; split <;> simp
@[simp] theorem encPixel_freeCount (p : Pixel) : (encPixel p s).freeCount = s.freeCount := by unfold encPixel; split <;> simp

/-! ### `encPixels` -/

@[simp] theorem encPixels_cfg (ps : List Pixel) : (encPixels ps s).cfg = s.cfg := by induction ps generalizing s <;> simp_all [encPixels]
@[simp] theorem encPixels_phase (ps : List Pixel) : (encPixels ps s).phase = s.phase := by induction ps generalizing s <;> simp_all [encPixels]
@[simp] theorem encPixels_hdrValid (ps : List Pixel) : (encPixels ps s).hdrValid = s.hdrValid := by induction ps generalizing s <;> simp_all [encPixels]
@[simp] theorem encPixels_err (ps : List Pixel) : (encPixels ps s).err = s.err := by induction ps generalizing s <;> simp_all [encPixels]
@[simp] theorem encPixels_width (ps : List Pixel) : (encPixels ps s).width = s.width := by induction ps generalizing s <;> simp_all [encPixels]
@[simp] theorem encPixels_height (ps : List Pixel) : (encPixels ps s).height = s.height := by induction ps generalizing s <;> simp_all [encPixels]
@[simp] theorem encPixels_channels (ps : List Pixel) : (encPixels ps s).channels = s.channels := by induction ps generalizing s <;> simp_all [encPixels]
@[simp] theorem encPixels_colorspace (ps : List Pixel) : (encPixels ps s).colorspace = s.colorspace := by induction ps generalizing s <;> simp_all [encPixels]
@[simp] theorem encPixels_total (ps : List Pixel) : (encPixels ps s).total = s.total := by induction ps generalizing s <;> simp_all [encPixels]
@[simp] theorem encPixels_carry (ps : List Pixel) : (encPixels ps s).carry = s.carry := by induction ps generalizing s <;> simp_all [encPixels]
@[simp] theorem encPixels_facc (ps : List Pixel) : (encPixels ps s).facc = s.facc := by induction ps generalizing s <;> simp_all [encPixels]
@[simp] theorem encPixels_pix (ps : List Pixel) : (encPixels ps s).pix = s.pix := by induction ps generalizing s <;> simp_all [encPixels]
@[simp] theorem encPixels_cmds (ps : List Pixel) : (encPixels ps s).cmds = s.cmds := by induction ps generalizing s <;> simp_all [encPixels]
@[simp] theorem encPixels_reply (ps : List Pixel) : (encPixels ps s).reply = s.reply := by induction ps generalizing s <;> simp_all [encPixels]
@[simp] theorem encPixels_hdrEvent (ps : List Pixel) : (encPixels ps s).hdrEvent = s.hdrEvent := by induction ps generalizing s <;> simp_all [encPixels]
@[simp] theorem encPixels_freeCount (ps : List Pixel) : (encPixels ps s).freeCount = s.freeCount := by induction ps generalizing s <;> simp_all [encPixels]

/-! ### `finishImage` -/

@[simp] theorem finishImage_cfg : (finishImage s).cfg = s.cfg := by simp [finishImage]
@[simp] theorem finishImage_prev : (finishImage s).prev = s.prev := by simp [finishImage]
@[simp] theorem finishImage_index : (finishImage s).index = s.index := by simp [finishImage]
@[simp] theorem finishImage_pxCount : (finishImage s).pxCount = s.pxCount := by simp [finishImage]
@[simp] theorem finishImage_hdrValid : (finishImage s).hdrValid = s.hdrValid := by simp [finishImage]
@[simp] theorem finishImage_err : (finishImage s).err = s.err := by simp [finishImage]
@[simp] theorem finishImage_width : (finishImage s).width = s.width := by simp [finishImage]
@[simp] theorem finishImage_height : (finishImage s).height = s.height := by simp [finishImage]
@[simp] theorem finishImage_channels : (finishImage s).channels = s.channels := by simp [finishImage]
@[simp] theorem finishImage_colorspace : (finishImage s).colorspace = s.colorspace := by simp [finishImage]
@[simp] theorem finishImage_total : (finishImage s).total = s.total := by simp [finishImage]
@[simp] theorem finishImage_carry : (finishImage s).carry = s.carry := by simp [finishImage]
@[simp] theorem finishImage_facc : (finishImage s).facc = s.facc := by simp [finishImage]
@[simp] theorem finishImage_pix : (finishImage s).pix = s.pix := by simp [finishImage]
@[simp] theorem finishImage_cmds : (finishImage s).cmds = s.cmds := by simp [finishImage]
@[simp] theorem finishImage_reply : (finishImage s).reply = s.reply := by simp [finishImage]
@[simp] theorem finishImage_hdrEvent : (finishImage s).hdrEvent = s.hdrEvent := by simp [finishImage]
@[simp] theorem finishImage_freeCount : (finishImage s).freeCount = s.freeCount := by simp [finishImage]
@[simp] theorem finishImage_phase : (finishImage s).phase = .eDone := by simp [finishImage]

end Sys2Proof.Machine
end

