-- ==== Sys2Proof/Laws/Chunks.lean ====
section
/-! SUPPORT. What the operations of the six chunks do: the index, the guard, the values, the output of pixels by value and into
`PIX`, and the two shapes of an executed chunk.
-/

namespace Sys2Proof.Machine

/-- `get` after `set` (40_pixel_hash_index.md R115, R116). -/
theorem indexGet_indexSet (s : State) (k j : Slot) (p : Pixel) :
    (s.indexSet k p).indexGet j = if j = k then p else s.indexGet j := by
  simp only [State.indexSet, State.indexGet, Vector.getElem_set]
  by_cases h : j = k
  · simp [h]
  · rw [if_neg (fun h' => h (BitVec.eq_of_toNat_eq h'.symm)), if_neg h]

/-- `get` after a write-back. -/
theorem indexGet_writeBack (s : State) (p : Pixel) (j : Slot) :
    (writeBack p s).indexGet j = if j = hash p then p else s.indexGet j := indexGet_indexSet s (hash p) j p

/-- `get` reads the index alone. -/
theorem indexGet_congr {s t : State} (h : t.index = s.index) (j : Slot) : t.indexGet j = s.indexGet j := by
  simp [State.indexGet, h]

/-- With a valid header a read of it is no stop (10_state.md R30). -/
@[simp] theorem readingHeader_of_valid {s : State} (h : s.hdrValid = true) (k : Host.Outcome State Fault Refusal) :
    readingHeader s k = k := by simp [readingHeader, h]

/-- What has run after a read of the header had a valid one. -/
theorem readingHeader_next {s t : State} {k : Host.Outcome State Fault Refusal} (h : readingHeader s k = .next t) :
    s.hdrValid = true ∧ k = .next t := by
  unfold readingHeader at h
  split at h
  · cases h
  · next hv => exact ⟨by simpa using hv, h⟩

/-- A chunk that is ready runs. -/
theorem guardChunk_of_ready {s : State} (h : s.chunkReady) (t : State) : guardChunk s t = .next t := by
  obtain ⟨h1, h2, h3, -⟩ := h
  simp [guardChunk, h1, h2, Nat.not_le.2 h3]

/-- A chunk that has run was in its phase, with a valid header and a pixel due. -/
theorem guardChunk_next {s t u : State} (h : guardChunk s t = .next u) :
    s.phase = .dChunks ∧ s.hdrValid = true ∧ s.pxCount < s.total ∧ u = t := by
  unfold guardChunk at h
  split at h
  · cases h
  · next hp =>
    obtain ⟨hv, h⟩ := readingHeader_next h
    split at h
    · cases h
    · next hl => cases h; exact ⟨by simpa using hp, hv, by omega, rfl⟩

/-- The narrowing `u8` (00_scope.md R10). -/
theorem u8_toNat (v : Int) : ((u8 v).toNat : Int) = v % 256 := by
  simp [u8, BitVec.toNat_ofInt]; omega

@[simp] theorem alphaFix_r (s : State) (p : Pixel) : (alphaFix s p).r = p.r := by
  unfold alphaFix; (repeat' split) <;> rfl
@[simp] theorem alphaFix_g (s : State) (p : Pixel) : (alphaFix s p).g = p.g := by
  unfold alphaFix; (repeat' split) <;> rfl
@[simp] theorem alphaFix_b (s : State) (p : Pixel) : (alphaFix s p).b = p.b := by
  unfold alphaFix; (repeat' split) <;> rfl

/-- The alpha that `alpha_fix` gives (41_chunk_decode.md R143). -/
theorem alphaFix_a {s : State} (h : s.channels = 3 ∨ s.channels = 4) (p : Pixel) :
    (alphaFix s p).a = if s.channels = 3 ∧ s.cfg.rgbAlphaPolicy = .force255 then 255 else p.a := by
  unfold alphaFix
  rcases h with h | h
  · cases s.cfg.rgbAlphaPolicy <;> simp [h]
  · simp [h]

/-- A pixel takes `channels` bytes (40_pixel_hash_index.md R111). -/
theorem pixelToBytes_length {c : Byte} (h : c = 3 ∨ c = 4) (p : Pixel) : (pixelToBytes c p).length = c.toNat := by
  rcases h with rfl | rfl <;> rfl

/-- The bytes of several pixels. -/
theorem length_flatMap_pixelToBytes {c : Byte} (h : c = 3 ∨ c = 4) (ps : List Pixel) :
    (ps.flatMap (pixelToBytes c)).length = ps.length * c.toNat := by
  induction ps with
  | nil => simp
  | cons p ps ih => simp [pixelToBytes_length h, Nat.add_mul, Nat.add_comm]

/-! ### Output of pixels -/

@[simp] theorem outPixels_pxCount (n : Nat) (p : Pixel) (s : State) : (outPixels n p s).pxCount = s.pxCount + n := by
  induction n generalizing s with
  | zero => rfl
  | succ n ih => rw [outPixels, ih]; simp; omega

/-- By value, a pixel's bytes join the output and `PIX` is not touched. -/
theorem outPixel_byValue {s : State} (p : Pixel) (h : s.walker = .byValue) :
    (outPixel p s).out = s.out ++ pixelToBytes s.channels p ∧ (outPixel p s).pix = s.pix := by
  simp [outPixel, h]

/-- In DECODE, a pixel's bytes are stored at `px_count * channels`. -/
theorem outPixel_inSpaces {s : State} (p : Pixel) {op : Nat} (h : s.walker = .inSpaces op) :
    (outPixel p s).out = s.out ∧
      (outPixel p s).pix = s.pix.writeBytes (s.pxCount * s.channels.toNat) (pixelToBytes s.channels p) := by
  simp [outPixel, h]

/-- `outPixel_byValue` repeated. -/
theorem outPixels_byValue {s : State} (n : Nat) (p : Pixel) (h : s.walker = .byValue) :
    (outPixels n p s).out = s.out ++ (List.replicate n (pixelToBytes s.channels p)).flatten ∧
      (outPixels n p s).pix = s.pix := by
  induction n generalizing s with
  | zero => simp [outPixels]
  | succ n ih =>
    obtain ⟨h1, h2⟩ := ih (s := outPixel p s) (by simp [h])
    rw [outPixels, h1, h2]
    simp [outPixel, h, List.replicate_succ]

/-- `outPixel_inSpaces` repeated: the pixels lie in a row. -/
theorem outPixels_inSpaces {s : State} (n : Nat) (p : Pixel) {op : Nat} (h : s.walker = .inSpaces op)
    (hc : s.channels = 3 ∨ s.channels = 4) :
    (outPixels n p s).out = s.out ∧
      (outPixels n p s).pix = s.pix.writeBytes (s.pxCount * s.channels.toNat)
        (List.replicate n (pixelToBytes s.channels p)).flatten := by
  induction n generalizing s with
  | zero => simp [outPixels, Memory.writeBytes]
  | succ n ih =>
    obtain ⟨h1, h2⟩ := ih (s := outPixel p s) (by simp [h]) (by simpa using hc)
    rw [outPixels, h1, h2]
    simp [outPixel, h, List.replicate_succ, Memory.writeBytes_append, pixelToBytes_length hc, Nat.add_mul]

/-- A byte of a sequence repeated. -/
theorem getElem?_flatten_replicate {α : Type} (n : Nat) (l : List α) (i : Nat) (h : i < n * l.length) :
    (List.replicate n l).flatten[i]? = l[i % l.length]? := by
  induction n generalizing i with
  | zero => simp at h
  | succ n ih =>
    rw [List.replicate_succ, List.flatten_cons]
    by_cases hi : i < l.length
    · rw [List.getElem?_append_left hi, Nat.mod_eq_of_lt hi]
    · rw [List.getElem?_append_right (by omega), ih, ← Nat.mod_eq_sub_mod (by omega)]
      rw [Nat.add_mul] at h; omega

/-! ### The shapes of an executed chunk -/

/-- The fields `outPixels` may change. -/
theorem outPixels_frame (n : Nat) (p : Pixel) (s : State) :
    outPixels n p s =
      { s with
        pxCount := s.pxCount + n
        out := (outPixels n p s).out
        pix := (outPixels n p s).pix } := by
  ext1 <;> simp

/-- The fields `deliver` may change. -/
theorem deliver_frame (p : Pixel) (s : State) :
    deliver p s =
      { s with
        prev := alphaFix s p
        index := s.index.set (hash (alphaFix s p)).toNat (alphaFix s p) (hash (alphaFix s p)).isLt
        pxCount := s.pxCount + 1
        out := (deliver p s).out
        pix := (deliver p s).pix } := by
  ext1 <;> simp

/-- The pixel that `deliver` gives stands in its slot, and no other slot changes. -/
theorem indexGet_deliver (p : Pixel) (s : State) (j : Slot) :
    (deliver p s).indexGet j = if j = hash (alphaFix s p) then alphaFix s p else s.indexGet j := by
  rw [← indexGet_writeBack]
  exact indexGet_congr (by simp) j

/-- A chunk that has run delivered one pixel or, a RUN, repeated the previous one (41_chunk_decode.md R131). -/
theorem exec_chunk_next {i : Instr} {s t : State} (hi : i.context = .chunk) (h : exec i s = .next t) :
    s.phase = .dChunks ∧ s.hdrValid = true ∧ s.pxCount < s.total ∧
      ((∃ p, t = deliver p s) ∨
        ∃ n, 1 ≤ n ∧ n ≤ 64 ∧ n ≤ s.total - s.pxCount ∧ t = outPixels n s.prev s) := by
  cases i with
  | header _ _ _ _ => cases hi
  | endMarker => cases hi
  | run m =>
    obtain ⟨h1, h2, h3, rfl⟩ := guardChunk_next h
    have := m.isLt
    exact ⟨h1, h2, h3, .inr ⟨_, by omega, by omega, by omega, rfl⟩⟩
  | index _ => obtain ⟨h1, h2, h3, rfl⟩ := guardChunk_next h; exact ⟨h1, h2, h3, .inl ⟨_, rfl⟩⟩
  | diff _ _ _ => obtain ⟨h1, h2, h3, rfl⟩ := guardChunk_next h; exact ⟨h1, h2, h3, .inl ⟨_, rfl⟩⟩
  | luma _ _ _ => obtain ⟨h1, h2, h3, rfl⟩ := guardChunk_next h; exact ⟨h1, h2, h3, .inl ⟨_, rfl⟩⟩
  | rgb _ _ _ => obtain ⟨h1, h2, h3, rfl⟩ := guardChunk_next h; exact ⟨h1, h2, h3, .inl ⟨_, rfl⟩⟩
  | rgba _ _ _ _ => obtain ⟨h1, h2, h3, rfl⟩ := guardChunk_next h; exact ⟨h1, h2, h3, .inl ⟨_, rfl⟩⟩

/-- A chunk that is ready runs to one of the two shapes. -/
theorem exec_chunk_of_ready {i : Instr} {s : State} (hi : i.context = .chunk) (h : s.chunkReady) :
    ∃ t, exec i s = .next t := by
  cases i with
  | header _ _ _ _ => cases hi
  | endMarker => cases hi
  | _ => exact ⟨_, guardChunk_of_ready h _⟩

/-- Every ready chunk but RUN delivers one pixel. -/
theorem exec_onePixel_of_ready {i : Instr} {s : State} (h : s.chunkReady) (hi : i.context = .chunk)
    (hr : ∀ m, i ≠ .run m) : ∃ p, exec i s = .next (deliver p s) := by
  cases i with
  | header _ _ _ _ => cases hi
  | endMarker => cases hi
  | run m => exact absurd rfl (hr m)
  | _ => exact ⟨_, guardChunk_of_ready h _⟩

end Sys2Proof.Machine
end

