-- ==== Sys2Proof/Laws/Codec.lean ====
section
/-! SUPPORT. The small laws of the encoding: fields of concatenated bits, the opcode and the length of each chunk's first byte,
and the big-endian words of the header.
-/

namespace Sys2Proof

/-- The low field of two concatenated fields. -/
theorem field_low {n m : Nat} (a : BitVec n) (b : BitVec m) : (a ++ b).extractLsb' 0 m = b := by
  rw [BitVec.extractLsb'_append_eq_of_add_le (by omega), BitVec.extractLsb'_eq_self]

/-- The high field of two concatenated fields. -/
theorem field_high {n m : Nat} (a : BitVec n) (b : BitVec m) : (a ++ b).extractLsb' m n = a :=
  BitVec.extractLsb'_append_eq_left

/-- A byte is its tag and its 6-bit field. -/
theorem tag_append_field (b : Byte) : b.extractLsb' 6 2 ++ b.extractLsb' 0 6 = b := by
  rw [BitVec.extractLsb'_append_extractLsb'_eq_extractLsb' (by omega)]
  exact BitVec.extractLsb'_eq_self

/-- A byte is its two 4-bit fields. -/
theorem nibble_append_nibble (b : Byte) : b.extractLsb' 4 4 ++ b.extractLsb' 0 4 = b := by
  rw [BitVec.extractLsb'_append_extractLsb'_eq_extractLsb' (by omega)]
  exact BitVec.extractLsb'_eq_self

/-- A byte is its tag and its three 2-bit fields. -/
theorem pairs_append (b : Byte) :
    b.extractLsb' 6 2 ++ b.extractLsb' 4 2 ++ b.extractLsb' 2 2 ++ b.extractLsb' 0 2 = b := by
  rw [BitVec.extractLsb'_append_extractLsb'_eq_extractLsb' (by omega),
    BitVec.extractLsb'_append_extractLsb'_eq_extractLsb' (by omega),
    BitVec.extractLsb'_append_extractLsb'_eq_extractLsb' (by omega)]
  exact BitVec.extractLsb'_eq_self

theorem opcode_index (k : BitVec 6) : opcode (0b00#2 ++ k) = .index := by revert k; decide
theorem opcode_diff (a b c : BitVec 2) : opcode (0b01#2 ++ a ++ b ++ c) = .diff := by revert a b c; decide
theorem opcode_luma (k : BitVec 6) : opcode (0b10#2 ++ k) = .luma := by revert k; decide
theorem opcode_run (k : BitVec 6) (h : k.toNat ≤ 61) : opcode (0b11#2 ++ k) = .run := by revert k; decide
@[simp] theorem opcode_rgb : opcode 0xFE = .rgb := by decide
@[simp] theorem opcode_rgba : opcode 0xFF = .rgba := by decide

/-- What the opcode says of the first byte (30_encoding.md R82, R84). -/
theorem opcode_spec (b : Byte) :
    (opcode b = .index → b.extractLsb' 6 2 = 0 ∧ b.toNat ≤ 0x3F ∧ chunkLen b = 1) ∧
    (opcode b = .diff → b.extractLsb' 6 2 = 1 ∧ 0x40 ≤ b.toNat ∧ b.toNat ≤ 0x7F ∧ chunkLen b = 1) ∧
    (opcode b = .luma → b.extractLsb' 6 2 = 2 ∧ 0x80 ≤ b.toNat ∧ b.toNat ≤ 0xBF ∧ chunkLen b = 2) ∧
    (opcode b = .run → b.extractLsb' 6 2 = 3 ∧ (b.extractLsb' 0 6).toNat ≤ 61 ∧ 0xC0 ≤ b.toNat ∧ b.toNat ≤ 0xFD ∧
      chunkLen b = 1) ∧
    (opcode b = .rgb → b = 0xFE ∧ chunkLen b = 4) ∧
    (opcode b = .rgba → b = 0xFF ∧ chunkLen b = 5) := by
  revert b; decide

/-- Every chunk has at least one byte and at most five (00_scope.md R9, `CHUNK_MAX`). -/
theorem chunkLen_bounds (b : Byte) : 1 ≤ chunkLen b ∧ chunkLen b ≤ 5 := by revert b; decide

/-- `be32` undoes `be32_bytes` (00_scope.md R10). -/
theorem be32_be32Bytes (v : Dim) :
    be32 (v.extractLsb' 24 8) (v.extractLsb' 16 8) (v.extractLsb' 8 8) (v.extractLsb' 0 8) = v := by
  unfold be32
  rw [BitVec.extractLsb'_append_extractLsb'_eq_extractLsb' (by omega),
    BitVec.extractLsb'_append_extractLsb'_eq_extractLsb' (by omega),
    BitVec.extractLsb'_append_extractLsb'_eq_extractLsb' (by omega)]
  exact BitVec.extractLsb'_eq_self

/-- `be32_bytes` undoes `be32`. -/
theorem be32Bytes_be32 (a b c d : Byte) : be32Bytes (be32 a b c d) = [a, b, c, d] := by
  unfold be32Bytes be32
  simp only [List.cons.injEq, and_true]
  refine ⟨?_, ?_, ?_, field_low _ _⟩
  · exact BitVec.extractLsb'_append_eq_of_le (by omega) |>.trans
      (BitVec.extractLsb'_append_eq_of_le (by omega) |>.trans
        (BitVec.extractLsb'_append_eq_of_le (by omega) |>.trans BitVec.extractLsb'_eq_self))
  · exact BitVec.extractLsb'_append_eq_of_le (by omega) |>.trans
      (BitVec.extractLsb'_append_eq_of_le (by omega) |>.trans (field_low _ _))
  · exact BitVec.extractLsb'_append_eq_of_le (by omega) |>.trans (field_low _ _)

/-- The value of `be32` (00_scope.md R10). -/
theorem be32_toNat (a b c d : Byte) :
    (be32 a b c d).toNat = a.toNat * 2 ^ 24 + b.toNat * 2 ^ 16 + c.toNat * 2 ^ 8 + d.toNat := by
  unfold be32
  simp only [BitVec.toNat_append, Nat.shiftLeft_eq]
  have ha := a.isLt; have hb := b.isLt; have hc := c.isLt; have hd := d.isLt
  rw [← Nat.shiftLeft_eq, ← Nat.shiftLeft_add_eq_or_of_lt (by omega), ← Nat.shiftLeft_eq,
    ← Nat.shiftLeft_add_eq_or_of_lt (by omega), ← Nat.shiftLeft_eq, ← Nat.shiftLeft_add_eq_or_of_lt (by omega)]
  simp only [Nat.shiftLeft_eq]
  omega

/-- The bytes of a record are as many as its format says (30_encoding.md R81). -/
theorem encode_length (i : Instr) :
    (encode i).length =
      match i with
      | .header _ _ _ _ => 14
      | .index _ => 1
      | .diff _ _ _ => 1
      | .luma _ _ _ => 2
      | .run _ => 1
      | .rgb _ _ _ => 4
      | .rgba _ _ _ _ => 5
      | .endMarker => 8 := by
  cases i <;> rfl

/-- A chunk's bytes are at least one and at most five. -/
theorem encode_chunk_length {i : Instr} (h : i.context = .chunk) :
    1 ≤ (encode i).length ∧ (encode i).length ≤ 5 := by
  cases i <;> simp_all [encode, Instr.context]

/-- A chunk of the length its first byte gives decodes whole (30_encoding.md R83). -/
theorem decodeChunk_of_length {b : Byte} {tail : List Byte} (h : (b :: tail).length = chunkLen b) :
    ∃ i, decodeChunk (b :: tail) = .ok (i, []) ∧ i.context = .chunk := by
  obtain ⟨h1, h2, h3, h4, h5, h6⟩ := opcode_spec b
  cases ho : opcode b with
  | index =>
    rw [(h1 ho).2.2] at h
    obtain rfl := List.length_eq_zero_iff.1 (Nat.succ.inj h)
    exact ⟨_, by simp only [decodeChunk, ho]; rfl, rfl⟩
  | diff =>
    rw [(h2 ho).2.2.2] at h
    obtain rfl := List.length_eq_zero_iff.1 (Nat.succ.inj h)
    exact ⟨_, by simp only [decodeChunk, ho]; rfl, rfl⟩
  | luma =>
    rw [(h3 ho).2.2.2] at h
    match tail, h with
    | [x], _ => exact ⟨_, by simp only [decodeChunk, ho]; rfl, rfl⟩
  | run =>
    rw [(h4 ho).2.2.2.2] at h
    obtain rfl := List.length_eq_zero_iff.1 (Nat.succ.inj h)
    exact ⟨_, by simp only [decodeChunk, ho]; rfl, rfl⟩
  | rgb =>
    rw [(h5 ho).2] at h
    match tail, h with
    | [x, y, z], _ => exact ⟨_, by simp only [decodeChunk, ho]; rfl, rfl⟩
  | rgba =>
    rw [(h6 ho).2] at h
    match tail, h with
    | [x, y, z, w], _ => exact ⟨_, by simp only [decodeChunk, ho]; rfl, rfl⟩

/-- A chunk that decodes has the length its first byte gives. -/
theorem decodeChunk_ok_length {b : Byte} {tail : List Byte} {i : Instr} (h : decodeChunk (b :: tail) = .ok (i, [])) :
    (b :: tail).length = chunkLen b := by
  obtain ⟨h1, h2, h3, h4, h5, h6⟩ := opcode_spec b
  cases ho : opcode b with
  | index => simp_all [decodeChunk]
  | diff => simp_all [decodeChunk]
  | luma => simp only [decodeChunk, ho] at h; split at h <;> simp_all
  | run => simp_all [decodeChunk]
  | rgb => rw [(h5 ho).2]; simp only [decodeChunk, ho] at h; split at h <;> simp_all
  | rgba => rw [(h6 ho).2]; simp only [decodeChunk, ho] at h; split at h <;> simp_all

/-- Fourteen bytes are a header or have another magic. -/
theorem decodeHeader_of_length {bytes : List Byte} (h : bytes.length = headerLen) :
    (∃ w h c cs, decodeHeader bytes = .ok (.header w h c cs, [])) ∨ decodeHeader bytes = .error .badMagic := by
  match bytes, h with
  | [m0, m1, m2, m3, w0, w1, w2, w3, h0, h1, h2, h3, c, cs], _ =>
    simp only [decodeHeader]
    split
    · exact .inl ⟨_, _, _, _, rfl⟩
    · exact .inr rfl

/-- Eight bytes are the end marker or are not. -/
theorem decodeTrailer_of_length {bytes : List Byte} (h : bytes.length = endLen) :
    (bytes = endMarkerBytes ∧ decodeTrailer bytes = .ok (.endMarker, [])) ∨
      (bytes ≠ endMarkerBytes ∧ decodeTrailer bytes = .error .badEndMarker) := by
  have h1 : bytes.take endLen = bytes := List.take_of_length_le (by omega)
  have h2 : bytes.drop endLen = [] := List.drop_of_length_le (by omega)
  rw [decodeTrailer, if_neg (by omega), h1, h2]
  by_cases h3 : bytes = endMarkerBytes
  · exact .inl ⟨h3, if_pos h3⟩
  · exact .inr ⟨h3, if_neg h3⟩

/-- Bytes that are exactly one header are fourteen. -/
theorem decodeHeader_ok_length {bytes : List Byte} {i : Instr} (h : decodeHeader bytes = .ok (i, [])) :
    bytes.length = headerLen := by
  unfold decodeHeader at h
  split at h
  · split at h
    · simp only [Except.ok.injEq, Prod.mk.injEq] at h
      simp [h.2, headerLen]
    · cases h
  · cases h

/-- Bytes that are exactly one end marker are eight. -/
theorem decodeTrailer_ok_length {bytes : List Byte} {i : Instr} (h : decodeTrailer bytes = .ok (i, [])) :
    bytes.length = endLen := by
  unfold decodeTrailer at h
  split at h
  · cases h
  · split at h
    · simp only [Except.ok.injEq, Prod.mk.injEq, List.drop_eq_nil_iff] at h
      omega
    · cases h

end Sys2Proof
end

