-- ==== Sys2Proof/Laws/Framer.lean ====
section
/-! SUPPORT. What the field checks and the acceptance of a header do: accepted fields are written, any other raises.
-/

namespace Sys2Proof.Machine

/-- Legal fields are written to the header registers (43_framer.md R194). -/
theorem checkFields_accepted {w h : Dim} {c cs : Byte} {s : State} (ha : acceptedFields s.cfg w h c cs) :
    checkFields w h c cs s =
      { s with
        width := w, height := h, channels := c, colorspace := cs, total := w.toNat * h.toNat, hdrValid := true } := by
  obtain ⟨hc, hcs, hz, hl⟩ := ha
  have h1 : ¬ (c ≠ 3 ∧ c ≠ 4) := by rcases hc with h | h <;> simp [h]
  have h2 : ¬ (cs ≠ 0 ∧ cs ≠ 1) := by rcases hcs with h | h <;> simp [h]
  have h3 : ¬ ((w = 0 ∨ h = 0) ∧ s.cfg.zeroDimAccept = false) := by
    rintro ⟨h4, h5⟩
    rcases hz with h6 | ⟨h6, h7⟩
    · rw [h5] at h6; cases h6
    · exact h4.elim h6 h7
  rw [checkFields, if_neg h1, if_neg h2, if_neg h3, if_neg (by omega)]

/-- The error of illegal fields, in the order of the checks (43_framer.md R194, 60_exceptions.md R269). -/
def fieldError (cfg : Config) (w h : Dim) (c cs : Byte) : ErrReg :=
  if ¬ (c = 3 ∨ c = 4) then ⟨.malformedHeader, .badChannels⟩
  else if ¬ (cs = 0 ∨ cs = 1) then ⟨.malformedHeader, .badColorspace⟩
  else if (w = 0 ∨ h = 0) ∧ cfg.zeroDimAccept = false then ⟨.malformedHeader, .zeroDimension⟩
  else ⟨.dimensionsOverflow, .none⟩

/-- Illegal fields raise. -/
theorem checkFields_rejected {w h : Dim} {c cs : Byte} {s : State} (ha : ¬ acceptedFields s.cfg w h c cs) :
    checkFields w h c cs s = raise (fieldError s.cfg w h c cs).kind (fieldError s.cfg w h c cs).sub s := by
  unfold checkFields fieldError
  by_cases h1 : c = 3 ∨ c = 4
  · have h1' : ¬ (c ≠ 3 ∧ c ≠ 4) := by rcases h1 with h | h <;> simp [h]
    rw [if_neg h1', if_neg (not_not.2 h1)]
    by_cases h2 : cs = 0 ∨ cs = 1
    · have h2' : ¬ (cs ≠ 0 ∧ cs ≠ 1) := by rcases h2 with h | h <;> simp [h]
      rw [if_neg h2', if_neg (not_not.2 h2)]
      by_cases h3 : (w = 0 ∨ h = 0) ∧ s.cfg.zeroDimAccept = false
      · rw [if_pos h3, if_pos h3]
      · rw [if_neg h3, if_neg h3, if_pos]
        by_contra h4
        refine ha ⟨h1, h2, ?_, by omega⟩
        by_cases h5 : w = 0 ∨ h = 0
        · exact .inl (by by_contra h6; exact h3 ⟨h5, by simpa using h6⟩)
        · exact .inr (not_or.1 h5)
    · rw [if_pos (not_or.1 h2), if_pos h2]
  · rw [if_pos (not_or.1 h1), if_pos h1]

/-- A field error has a sub-cause exactly when it is a malformed header, and is never `none`. -/
theorem fieldError_spec (cfg : Config) (w h : Dim) (c cs : Byte) :
    (fieldError cfg w h c cs).kind ≠ .none ∧
      ((fieldError cfg w h c cs).sub = .none ↔ (fieldError cfg w h c cs).kind ≠ .malformedHeader) := by
  unfold fieldError
  (repeat' split) <;> simp

/-- A header with legal fields is accepted (45_streaming.md R241). -/
theorem acceptHeader_accepted {w h : Dim} {c cs : Byte} {s : State} (hp : s.phase ≠ .failed)
    (ha : acceptedFields s.cfg w h c cs) :
    acceptHeader w h c cs s =
      { s with
        width := w, height := h, channels := c, colorspace := cs, total := w.toNat * h.toNat, hdrValid := true
        hdrEvent := some ⟨w, h, c, cs⟩, phase := bodyPhase (w.toNat * h.toNat) } := by
  simp only [acceptHeader, checkFields_accepted ha, if_neg hp]

/-- A header with illegal fields raises and nothing else. -/
theorem acceptHeader_rejected {w h : Dim} {c cs : Byte} {s : State} (ha : ¬ acceptedFields s.cfg w h c cs) :
    acceptHeader w h c cs s = raise (fieldError s.cfg w h c cs).kind (fieldError s.cfg w h c cs).sub s := by
  simp [acceptHeader, checkFields_rejected ha]

end Sys2Proof.Machine
end

