-- ==== Sys2Proof/Laws/Decoder.lean ====
section
/-! SUPPORT. What one byte given to the decoder does, case by case, and how the two loops over bytes are cut and composed.
-/

namespace Sys2Proof.Machine

/-- Everything one byte can do (45_streaming.md R241 to R243). -/
inductive ByteStep (b : Byte) (s : State) : State → Prop
  | headerMore (hp : s.phase = .dHeader) (hl : (s.facc ++ [b]).length ≠ headerLen) :
    ByteStep b s { s with facc := s.facc ++ [b] }
  | headerBad (hp : s.phase = .dHeader) (hl : (s.facc ++ [b]).length = headerLen)
    (hd : decode .header (s.facc ++ [b]) = .error .badMagic) :
    ByteStep b s (raise .malformedHeader .badMagic { s with facc := [] })
  | headerDone (hp : s.phase = .dHeader) (hl : (s.facc ++ [b]).length = headerLen) (w h : Dim) (c cs : Byte)
    (hd : decode .header (s.facc ++ [b]) = .ok (.header w h c cs, [])) :
    ByteStep b s (acceptHeader w h c cs { s with facc := [] })
  | chunkMore (hp : s.phase = .dChunks) (hl : (s.carry ++ [b]).length ≠ chunkLen ((s.carry ++ [b]).headD 0)) :
    ByteStep b s { s with carry := s.carry ++ [b] }
  | chunkDone (hp : s.phase = .dChunks) (hl : (s.carry ++ [b]).length = chunkLen ((s.carry ++ [b]).headD 0))
    (i : Instr) (hd : decode .chunk (s.carry ++ [b]) = .ok (i, [])) (hi : i.context = .chunk) (t : State)
    (he : exec i { s with carry := [] } = .next t) :
    ByteStep b s (endChunk t)
  | trailerMore (hp : s.phase = .dTrailer) (hl : (s.facc ++ [b]).length ≠ endLen) :
    ByteStep b s { s with facc := s.facc ++ [b] }
  | trailerBad (hp : s.phase = .dTrailer) (hl : (s.facc ++ [b]).length = endLen)
    (hd : s.facc ++ [b] ≠ endMarkerBytes) :
    ByteStep b s (raise .missingEndMarker .none { s with facc := [] })
  | trailerDone (hp : s.phase = .dTrailer) (hl : (s.facc ++ [b]).length = endLen)
    (hd : s.facc ++ [b] = endMarkerBytes) :
    ByteStep b s { s with facc := [], phase := .dDone }

/-- The header phase never stops. -/
theorem decByte_dHeader (b : Byte) {s : State} (hp : s.phase = .dHeader) :
    ∃ t, decByte b s = .next t ∧ ByteStep b s t := by
  rw [show decByte b s = decByteHeader b s by simp only [decByte, hp], decByteHeader]
  split
  · next hl =>
    rcases decodeHeader_of_length hl with ⟨w, h, c, cs, hd⟩ | hd
    · refine ⟨_, ?_, .headerDone hp hl w h c cs hd⟩
      simp only [runRecord, decode, hd, exec, execHeader]
      exact if_pos hp
    · exact ⟨_, by simp only [runRecord, decode, hd], .headerBad hp hl hd⟩
  · next hl => exact ⟨_, rfl, .headerMore hp hl⟩

/-- The trailer phase never stops. -/
theorem decByte_dTrailer (b : Byte) {s : State} (hp : s.phase = .dTrailer) :
    ∃ t, decByte b s = .next t ∧ ByteStep b s t := by
  rw [show decByte b s = decByteTrailer b s by simp only [decByte, hp], decByteTrailer]
  split
  · next hl =>
    rcases decodeTrailer_of_length hl with ⟨he, hd⟩ | ⟨he, hd⟩
    · refine ⟨_, ?_, .trailerDone hp hl he⟩
      simp only [runRecord, decode, hd, exec, execEndMarker]
      exact if_pos hp
    · exact ⟨_, by simp only [runRecord, decode, hd], .trailerBad hp hl he⟩
  · next hl => exact ⟨_, rfl, .trailerMore hp hl⟩

/-- A complete chunk in the buffer decodes. -/
theorem decode_carry {l : List Byte} {b : Byte} (hl : (l ++ [b]).length = chunkLen ((l ++ [b]).headD 0)) :
    ∃ i, decode .chunk (l ++ [b]) = .ok (i, []) ∧ i.context = .chunk := by
  cases hc : l ++ [b] with
  | nil => simp at hc
  | cons x xs => rw [hc] at hl; exact decodeChunk_of_length hl

/-- In the chunk phase a byte is stored, or completes a chunk, which is executed. -/
theorem decByte_dChunks (b : Byte) {s : State} (hp : s.phase = .dChunks) :
    ((s.carry ++ [b]).length ≠ chunkLen ((s.carry ++ [b]).headD 0) ∧
      decByte b s = .next { s with carry := s.carry ++ [b] }) ∨
    ((s.carry ++ [b]).length = chunkLen ((s.carry ++ [b]).headD 0) ∧
      ∃ i, decode .chunk (s.carry ++ [b]) = .ok (i, []) ∧ i.context = .chunk ∧
        decByte b s =
          match exec i { s with carry := [] } with
          | .next t => .next (endChunk t)
          | .fault f => .fault f
          | .refused r => .refused r) := by
  by_cases hl : (s.carry ++ [b]).length = chunkLen ((s.carry ++ [b]).headD 0)
  · obtain ⟨i, hd, hi⟩ := decode_carry hl
    exact .inr ⟨hl, i, hd, hi, by
      rw [show decByte b s = decByteChunks b s by simp only [decByte, hp], decByteChunks, if_pos hl, runRecord, hd]
      <;> rfl⟩
  · exact .inl ⟨hl, by
      rw [show decByte b s = decByteChunks b s by simp only [decByte, hp], decByteChunks, if_neg hl]⟩

/-- Whatever one byte does is one of the cases. -/
theorem decByte_next {b : Byte} {s t : State} (h : decByte b s = .next t) : ByteStep b s t := by
  cases hp : s.phase with
  | dHeader =>
    obtain ⟨u, hu, hs⟩ := decByte_dHeader b hp
    rw [hu] at h; cases h; exact hs
  | dTrailer =>
    obtain ⟨u, hu, hs⟩ := decByte_dTrailer b hp
    rw [hu] at h; cases h; exact hs
  | dChunks =>
    rcases decByte_dChunks b hp with ⟨hl, hu⟩ | ⟨hl, i, hd, hi, hu⟩
    · rw [hu] at h; cases h; exact .chunkMore hp hl
    · rw [hu] at h
      split at h
      · next t he => cases h; exact .chunkDone hp hl i hd hi t he
      · cases h
      · cases h
  | _ => simp [decByte, hp] at h

/-! ### The loops -/

/-- The count of a push is an offset. -/
theorem pushBytes_offset (bs : List Byte) (k : Nat) (s : State) :
    pushBytes bs k s =
      match pushBytes bs 0 s with
      | .next (n, t) => .next (k + n, t)
      | .fault f => .fault f
      | .refused r => .refused r := by
  induction bs generalizing k s with
  | nil => rfl
  | cons b bs ih =>
    simp only [pushBytes]
    split
    · rfl
    · cases decByte b s with
      | next t =>
        simp only
        rw [ih (k + 1), ih (0 + 1)]
        cases pushBytes bs 0 t with
        | next u => simp only [Host.Outcome.next.injEq, Prod.mk.injEq, and_true]; omega
        | fault f => rfl
        | refused r => rfl
      | fault f => rfl
      | refused r => rfl

/-- A stopped decoder takes no byte. -/
theorem pushBytes_stopped {s : State} (h : s.stopped = true) (bs : List Byte) (k : Nat) :
    pushBytes bs k s = .next (k, s) := by
  cases bs <;> simp [pushBytes, h]

/-- A push of two fragments in a row is the push of the second after the push of the first. -/
theorem pushBytes_append (a b : List Byte) (k : Nat) (s : State) :
    pushBytes (a ++ b) k s =
      match pushBytes a k s with
      | .next (n, t) => pushBytes b n t
      | .fault f => .fault f
      | .refused r => .refused r := by
  induction a generalizing k s with
  | nil => rfl
  | cons x a ih =>
    simp only [List.cons_append, pushBytes]
    by_cases h : s.stopped = true
    · simp only [h, if_true]
      exact (pushBytes_stopped h b k).symm
    · simp only [h, Bool.false_eq_true, if_false]
      cases decByte x s with
      | next t => exact ih (k + 1) t
      | fault f => rfl
      | refused r => rfl

/-- The fragments of a stream pushed in turn. -/
def pushFragments : List (List Byte) → Nat → State → Host.Outcome (Nat × State) Fault Refusal
  | [], k, s => .next (k, s)
  | f :: frags, k, s =>
    match pushBytes f k s with
    | .next (n, t) => pushFragments frags n t
    | .fault e => .fault e
    | .refused r => .refused r

/-- Fragment independence of the decoder: for every partitioning of the stream, pushing the fragments in turn is pushing
it whole, with the same state (so the same pixels and the same error) and the same count (45_streaming.md R247). -/
theorem pushBytes_flatten (frags : List (List Byte)) (k : Nat) (s : State) :
    pushBytes frags.flatten k s = pushFragments frags k s := by
  induction frags generalizing k s with
  | nil => rfl
  | cons f frags ih =>
    rw [List.flatten_cons, pushBytes_append, pushFragments]
    cases pushBytes f k s with
    | next q => exact ih q.1 q.2
    | fault e => rfl
    | refused r => rfl

/-- A relation that every byte respects holds between the ends of a push, if it is reflexive and transitive. -/
theorem pushBytes_induction {R : State → State → Prop} (refl : ∀ s, R s s)
    (trans : ∀ s t u, R s t → R t u → R s u)
    (byte : ∀ b s t, s.stopped = false → decByte b s = .next t → R s t) {bs : List Byte} {k n : Nat} {s t : State}
    (h : pushBytes bs k s = .next (n, t)) : R s t := by
  induction bs generalizing k s with
  | nil => cases h; exact refl _
  | cons b bs ih =>
    simp only [pushBytes] at h
    split at h
    · cases h; exact refl _
    · next hs =>
      split at h
      · next u hu => exact trans s u t (byte b s u (by simpa using hs) hu) (ih h)
      · cases h
      · cases h

/-- How many bytes a push takes: all of them, unless the decoder stops. -/
theorem pushBytes_count {bs : List Byte} {k n : Nat} {s t : State} (h : pushBytes bs k s = .next (n, t)) :
    n ≤ k + bs.length ∧ (n < k + bs.length → t.stopped = true) := by
  induction bs generalizing k s with
  | nil => cases h; simp
  | cons b bs ih =>
    simp only [pushBytes] at h
    split at h
    · next hs => cases h; exact ⟨by simp, fun _ => hs⟩
    · split at h
      · obtain ⟨h1, h2⟩ := ih h
        simp only [List.length_cons]
        exact ⟨by omega, fun h3 => h2 (by omega)⟩
      · cases h
      · cases h

/-- The bytes of a chunk, pushed one by one, gather in `carry` and run as the one record they are. -/
theorem pushBytes_chunk {bs : List Byte} {k : Nat} {s : State} (hne : bs ≠ []) (hp : s.phase = .dChunks)
    (hl : (s.carry ++ bs).length = chunkLen ((s.carry ++ bs).headD 0)) :
    pushBytes bs k s =
      match runRecord .chunk (s.carry ++ bs) { s with carry := [] } with
      | .next t => .next (k + bs.length, endChunk t)
      | .fault f => .fault f
      | .refused r => .refused r := by
  have hs : s.stopped = false := by simp [State.stopped, hp]
  induction bs generalizing k s with
  | nil => exact absurd rfl hne
  | cons b bs ih =>
    rw [pushBytes, hs, if_neg Bool.false_ne_true,
      show decByte b s = decByteChunks b s by simp only [decByte, hp], decByteChunks]
    cases bs with
    | nil =>
      rw [if_pos hl]
      cases runRecord .chunk (s.carry ++ [b]) { s with carry := [] } <;> rfl
    | cons b' bs =>
      have hh : (s.carry ++ [b]).headD 0 = (s.carry ++ b :: b' :: bs).headD 0 := by cases s.carry <;> rfl
      have hn : (s.carry ++ [b]).length ≠ chunkLen ((s.carry ++ [b]).headD 0) := by
        rw [hh, ← hl]; simp
      rw [if_neg hn]
      have := ih (k := k + 1) (s := { s with carry := s.carry ++ [b] }) (by simp) hp (by simpa using hl)
        (by simp [State.stopped, hp])
      simp only [List.append_assoc, List.singleton_append] at this
      simp only [this, List.length_cons]
      rw [show k + 1 + (bs.length + 1) = k + (bs.length + 1 + 1) by omega]

/-- The bytes of a header gather in `facc` and run as the one record they are. -/
theorem pushBytes_header {bs : List Byte} {k : Nat} {s : State} (hne : bs ≠ []) (hp : s.phase = .dHeader)
    (hl : (s.facc ++ bs).length = headerLen) :
    pushBytes bs k s =
      match runRecord .header (s.facc ++ bs) { s with facc := [] } with
      | .next t => .next (k + bs.length, t)
      | .fault f => .fault f
      | .refused r => .refused r := by
  have hs : s.stopped = false := by simp [State.stopped, hp]
  induction bs generalizing k s with
  | nil => exact absurd rfl hne
  | cons b bs ih =>
    rw [pushBytes, hs, if_neg Bool.false_ne_true,
      show decByte b s = decByteHeader b s by simp only [decByte, hp], decByteHeader]
    cases bs with
    | nil =>
      rw [if_pos hl]
      cases runRecord .header (s.facc ++ [b]) { s with facc := [] } <;> rfl
    | cons b' bs =>
      have hn : (s.facc ++ [b]).length ≠ headerLen := by rw [← hl]; simp
      rw [if_neg hn]
      have := ih (k := k + 1) (s := { s with facc := s.facc ++ [b] }) (by simp) hp (by simpa using hl)
        (by simp [State.stopped, hp])
      simp only [List.append_assoc, List.singleton_append] at this
      simp only [this, List.length_cons]
      rw [show k + 1 + (bs.length + 1) = k + (bs.length + 1 + 1) by omega]

/-- The bytes of a trailer gather in `facc` and run as the one record they are. -/
theorem pushBytes_trailer {bs : List Byte} {k : Nat} {s : State} (hne : bs ≠ []) (hp : s.phase = .dTrailer)
    (hl : (s.facc ++ bs).length = endLen) :
    pushBytes bs k s =
      match runRecord .trailer (s.facc ++ bs) { s with facc := [] } with
      | .next t => .next (k + bs.length, t)
      | .fault f => .fault f
      | .refused r => .refused r := by
  have hs : s.stopped = false := by simp [State.stopped, hp]
  induction bs generalizing k s with
  | nil => exact absurd rfl hne
  | cons b bs ih =>
    rw [pushBytes, hs, if_neg Bool.false_ne_true,
      show decByte b s = decByteTrailer b s by simp only [decByte, hp], decByteTrailer]
    cases bs with
    | nil =>
      rw [if_pos hl]
      cases runRecord .trailer (s.facc ++ [b]) { s with facc := [] } <;> rfl
    | cons b' bs =>
      have hn : (s.facc ++ [b]).length ≠ endLen := by rw [← hl]; simp
      rw [if_neg hn]
      have := ih (k := k + 1) (s := { s with facc := s.facc ++ [b] }) (by simp) hp (by simpa using hl)
        (by simp [State.stopped, hp])
      simp only [List.append_assoc, List.singleton_append] at this
      simp only [this, List.length_cons]
      rw [show k + 1 + (bs.length + 1) = k + (bs.length + 1 + 1) by omega]

/-- The bytes of one record, pushed in its phase with empty buffers, run as `exec` of the record. -/
theorem pushBytes_record {ctx : Context} {bytes : List Byte} {i : Instr} {s : State} (hp : s.phase = phaseOf ctx)
    (hc : s.carry = []) (hf : s.facc = []) (hd : decode ctx bytes = .ok (i, [])) :
    pushBytes bytes 0 s =
      match exec i s with
      | .next t => .next (bytes.length, if ctx = .chunk then endChunk t else t)
      | .fault f => .fault f
      | .refused r => .refused r := by
  have hr : ∀ u, runRecord ctx bytes u = exec i u := fun u => by simp only [runRecord, hd]
  have e1 : { s with carry := [] } = s := by rw [← hc]
  have e2 : { s with facc := [] } = s := by rw [← hf]
  have e3 : s.carry ++ bytes = bytes := by rw [hc]; rfl
  have e4 : s.facc ++ bytes = bytes := by rw [hf]; rfl
  cases ctx with
  | header =>
    have hl := decodeHeader_ok_length hd
    rw [pushBytes_header (s := s) (by rintro rfl; cases hl) hp (by rw [e4]; exact hl), e2, e4, hr]
    cases exec i s <;> simp
  | trailer =>
    have hl := decodeTrailer_ok_length hd
    rw [pushBytes_trailer (s := s) (by rintro rfl; cases hl) hp (by rw [e4]; exact hl), e2, e4, hr]
    cases exec i s <;> simp
  | chunk =>
    cases bytes with
    | nil => cases hd
    | cons b tail =>
      rw [pushBytes_chunk (s := s) (by simp) hp (by rw [e3]; exact decodeChunk_ok_length hd), e1, e3, hr]
      cases exec i s <;> simp

/-- DECODE's walk is the push of the bytes it reads, with `Truncated` where they end too early. -/
theorem decodeWalk_eq_pushBytes {bs : List Byte} {ip : Nat} {s : State}
    (stream : ∀ b s t, decByte b s = .next t → t.stream = s.stream)
    (hr : s.stream.readBytes ip bs.length = .ok bs) :
    decodeWalk bs.length ip s =
      match pushBytes bs 0 s with
      | .next (_, t) => if t.stopped then .next t else .next (raise .truncated .none t)
      | .fault f => .fault f
      | .refused r => .refused r := by
  induction bs generalizing ip s with
  | nil => simp [decodeWalk, pushBytes]
  | cons b bs ih =>
    obtain ⟨h1, h2⟩ := Memory.readBytes_split (v := [b]) (w := bs) hr
    obtain ⟨-, h3⟩ := Memory.readBytes_eq_ok.1 h1
    have h4 : s.stream.read ip = some b := h3 0 (by simp)
    simp only [List.length_cons, decodeWalk, pushBytes]
    by_cases hs : s.stopped = true
    · simp [hs]
    · simp only [hs, Bool.false_eq_true, if_false, h4]
      cases hb : decByte b s with
      | next t =>
        simp only
        rw [ih (by rw [stream b s t hb]; exact h2), pushBytes_offset bs (0 + 1)]
        cases pushBytes bs 0 t with
        | next u => rfl
        | fault f => rfl
        | refused r => rfl
      | fault f => rfl
      | refused r => rfl

end Sys2Proof.Machine
end

