-- ==== Sys2Proof/Laws/Walk.lean ====
section
/-! SUPPORT. What the decoder's walk over bytes may change, for every state: the frame of one byte and of a whole push.
-/

namespace Sys2Proof.Machine

/-- What a run of the decoder over bytes leaves alone, and how it moves. -/
structure Walked (s t : State) : Prop where
  cfg : t.cfg = s.cfg
  run : t.run = s.run
  stream : t.stream = s.stream
  cmds : t.cmds = s.cmds
  reply : t.reply = s.reply
  freeCount : t.freeCount = s.freeCount
  walker : t.walker = s.walker
  pxCount : s.pxCount ≤ t.pxCount
  phase : s.phase.reaches t.phase
  err : t.phase ≠ .failed → t.err = s.err
  header : s.phase ≠ .dHeader → t.hdrValid = s.hdrValid ∧ t.width = s.width ∧ t.height = s.height ∧
    t.channels = s.channels ∧ t.colorspace = s.colorspace ∧ t.total = s.total ∧ t.hdrEvent = s.hdrEvent

/-- A phase the decoder can be in may be stayed in. -/
theorem Phase.reaches_self {p : Phase} : p.reaches p := by cases p <;> simp [Phase.reaches]

/-- Inside a stream the order of the phases is transitive. -/
theorem Phase.reaches_trans {p q r : Phase} (hi : p ≠ .idle) (h1 : p.reaches q) (h2 : q.reaches r) : p.reaches r := by
  cases p <;> cases q <;> cases r <;> simp_all [Phase.reaches]

/-- D_HEADER is left for good. -/
theorem Phase.reaches_dHeader {p q : Phase} (h : p.reaches q) (hi : p ≠ .idle) (hp : p ≠ .dHeader) : q ≠ .dHeader := by
  cases p <;> cases q <;> simp_all [Phase.reaches]

/-- FAILED is never left by the decoder. -/
theorem Phase.reaches_failed {q : Phase} (h : Phase.reaches .failed q) : q = .failed := h

theorem Walked.refl (s : State) : Walked s s where
  cfg := rfl
  run := rfl
  stream := rfl
  cmds := rfl
  reply := rfl
  freeCount := rfl
  walker := rfl
  pxCount := Nat.le_refl _
  phase := Phase.reaches_self
  err := fun _ => rfl
  header := fun _ => ⟨rfl, rfl, rfl, rfl, rfl, rfl, rfl⟩

theorem Walked.trans {s t u : State} (hs : s.phase ≠ .idle) (h1 : Walked s t) (h2 : Walked t u) : Walked s u where
  cfg := h2.cfg.trans h1.cfg
  run := h2.run.trans h1.run
  stream := h2.stream.trans h1.stream
  cmds := h2.cmds.trans h1.cmds
  reply := h2.reply.trans h1.reply
  freeCount := h2.freeCount.trans h1.freeCount
  walker := h2.walker.trans h1.walker
  pxCount := Nat.le_trans h1.pxCount h2.pxCount
  phase := Phase.reaches_trans hs h1.phase h2.phase
  err := fun h => (h2.err h).trans (h1.err fun h' => h (Phase.reaches_failed (h' ▸ h2.phase)))
  header := fun h => by
    obtain ⟨a1, a2, a3, a4, a5, a6, a7⟩ := h1.header h
    obtain ⟨b1, b2, b3, b4, b5, b6, b7⟩ := h2.header (Phase.reaches_dHeader h1.phase hs h)
    exact ⟨b1.trans a1, b2.trans a2, b3.trans a3, b4.trans a4, b5.trans a5, b6.trans a6, b7.trans a7⟩

/-- A raise in a phase of the decoder. -/
theorem Walked.raise (kind : ErrKind) (sub : SubCause) {s : State}
    (hp : s.phase = .dHeader ∨ s.phase = .dChunks ∨ s.phase = .dTrailer) : Walked s (raise kind sub s) where
  cfg := rfl
  run := rfl
  stream := rfl
  cmds := rfl
  reply := rfl
  freeCount := rfl
  walker := rfl
  pxCount := Nat.le_refl _
  phase := by rcases hp with h | h | h <;> simp [h, Phase.reaches]
  err := fun h => absurd rfl h
  header := fun _ => ⟨rfl, rfl, rfl, rfl, rfl, rfl, rfl⟩

/-- A change of the two record buffers alone. -/
theorem Walked.buffers (carry facc : List Byte) (s : State) : Walked s { s with carry := carry, facc := facc } where
  cfg := rfl
  run := rfl
  stream := rfl
  cmds := rfl
  reply := rfl
  freeCount := rfl
  walker := rfl
  pxCount := Nat.le_refl _
  phase := Phase.reaches_self
  err := fun _ => rfl
  header := fun _ => ⟨rfl, rfl, rfl, rfl, rfl, rfl, rfl⟩

/-- A header record. -/
theorem Walked.acceptHeader (w h : Dim) (c cs : Byte) {s : State} (hp : s.phase = .dHeader) :
    Walked s (acceptHeader w h c cs s) := by
  by_cases ha : acceptedFields s.cfg w h c cs
  · rw [acceptHeader_accepted (by simp [hp]) ha]
    refine ⟨rfl, rfl, rfl, rfl, rfl, rfl, rfl, Nat.le_refl _, ?_, fun _ => rfl, fun h => absurd hp h⟩
    simp only [hp, bodyPhase, Phase.reaches]
    split <;> simp
  · rw [acceptHeader_rejected ha]
    exact .raise _ _ (.inl hp)

/-- A chunk. -/
theorem Walked.chunk {i : Instr} {s t : State} (hi : i.context = .chunk) (h : exec i s = .next t) :
    Walked s (endChunk t) ∧ s.phase = .dChunks := by
  obtain ⟨h1, -, -, h4⟩ := exec_chunk_next hi h
  have key : Walked s t := by
    rcases h4 with ⟨p, rfl⟩ | ⟨n, -, -, -, rfl⟩
    · refine ⟨by simp, by simp, by simp, by simp, by simp, by simp, by simp, by simp, ?_, by simp, by simp⟩
      simpa using Phase.reaches_self
    · refine ⟨by simp, by simp, by simp, by simp, by simp, by simp, by simp, by simp, ?_, by simp, by simp⟩
      simpa using Phase.reaches_self
  have hp : t.phase = .dChunks := by
    rcases h4 with ⟨p, rfl⟩ | ⟨n, -, -, -, rfl⟩ <;> simp [h1]
  refine ⟨.trans (by simp [h1]) key ?_, h1⟩
  unfold endChunk
  split
  · refine ⟨rfl, rfl, rfl, rfl, rfl, rfl, rfl, Nat.le_refl _, ?_, fun _ => rfl, fun _ => ⟨rfl, rfl, rfl, rfl, rfl, rfl, rfl⟩⟩
    simp [hp, Phase.reaches]
  · exact .refl t

/-- One byte. -/
theorem Walked.byte {b : Byte} {s t : State} (hb : decByte b s = .next t) : Walked s t := by
  cases decByte_next hb with
  | headerMore hp hl => exact .buffers s.carry _ s
  | headerBad hp hl hd =>
    exact .trans (by simp [hp]) (.buffers s.carry [] s) (.raise _ _ (.inl hp))
  | headerDone hp hl w h c cs hd => exact .trans (by simp [hp]) (.buffers s.carry [] s) (.acceptHeader w h c cs hp)
  | chunkMore hp hl => exact .buffers _ s.facc s
  | chunkDone hp hl i hd hi t he => exact .trans (by simp [hp]) (.buffers [] s.facc s) (Walked.chunk hi he).1
  | trailerMore hp hl => exact .buffers s.carry _ s
  | trailerBad hp hl hd =>
    exact .trans (by simp [hp]) (.buffers s.carry [] s) (.raise _ _ (.inr (.inr hp)))
  | trailerDone hp hl hd =>
    refine ⟨rfl, rfl, rfl, rfl, rfl, rfl, rfl, Nat.le_refl _, ?_, fun _ => rfl, fun _ => ⟨rfl, rfl, rfl, rfl, rfl, rfl, rfl⟩⟩
    simp [hp, Phase.reaches]

/-- A whole push. -/
theorem Walked.push {bs : List Byte} {k n : Nat} {s t : State} (hs : s.phase ≠ .idle)
    (h : pushBytes bs k s = .next (n, t)) : Walked s t := by
  refine (pushBytes_induction (R := fun s t => s.phase ≠ .idle → Walked s t) (fun s _ => .refl s) ?_ ?_ h) hs
  · intro s t u h1 h2 hs
    have h3 := h1 hs
    refine h3.trans hs (h2 fun ht => ?_)
    have := h3.phase
    rw [ht] at this
    cases hp : s.phase <;> simp_all [Phase.reaches]
  · intro b s t _ h _
    exact .byte h

/-- A header event is the header the registers hold. -/
def State.eventTrue (s : State) : Prop :=
  ∀ h, s.hdrEvent = some h → h = ⟨s.width, s.height, s.channels, s.colorspace⟩

/-- A byte keeps the header event true. -/
theorem State.eventTrue.byte {b : Byte} {s t : State} (h : s.eventTrue) (hb : decByte b s = .next t) : t.eventTrue := by
  cases decByte_next hb with
  | headerDone hp hl w ht c cs hd =>
    by_cases ha : acceptedFields s.cfg w ht c cs
    · rw [acceptHeader_accepted (s := { s with facc := [] }) (by simp [hp]) ha]
      intro x hx
      exact (Option.some.inj hx).symm
    · rw [acceptHeader_rejected (s := { s with facc := [] }) ha]
      exact h
  | chunkDone hp hl i hd hi u he =>
    obtain ⟨-, e1, e2, e3, e4, -, e5⟩ := (Walked.chunk hi he).1.header (by simp [hp])
    intro x hx
    rw [e5] at hx
    have := h x hx
    rw [this]
    simp only [Header.mk.injEq]
    exact ⟨e1.symm, e2.symm, e3.symm, e4.symm⟩
  | _ => exact h

end Sys2Proof.Machine
end

