-- ==== Sys2Proof/Laws/Map.lean ====
section
/-! SUPPORT. When a change of the state's other fields passes through the decoder: it is enough that it passes through the
records. The two changes that matter: output already gathered, and output stored in `PIX` in the place of output by value.
-/

namespace Sys2Proof.Machine

/-- A function applied to the next state of an outcome. -/
def mapNext {α β : Type} (f : α → β) : Host.Outcome α Fault Refusal → Host.Outcome β Fault Refusal
  | .next s => .next (f s)
  | .fault e => .fault e
  | .refused r => .refused r

/-- A change of a state that passes through the records, for the states in `P`. -/
structure Passes (P : State → Prop) (f : State → State) : Prop where
  phase : ∀ s, (f s).phase = s.phase
  carry : ∀ s, (f s).carry = s.carry
  facc : ∀ s, (f s).facc = s.facc
  buffers : ∀ s c a, f { s with carry := c, facc := a } = { f s with carry := c, facc := a }
  keepFacc : ∀ s, P s → P { s with facc := [] }
  keepCarry : ∀ s, P s → P { s with carry := [] }
  raise : ∀ s kind sub, f (raise kind sub s) = raise kind sub (f s)
  chunkEnd : ∀ s, f (endChunk s) = endChunk (f s)
  exec : ∀ i s, P s → exec i (f s) = mapNext f (exec i s)
  keep : ∀ b s t, P s → decByte b s = .next t → P t

variable {P : State → Prop} {f : State → State}

theorem Passes.setFacc (h : Passes P f) (s : State) (a : List Byte) : f { s with facc := a } = { f s with facc := a } := by
  refine (h.buffers s s.carry a).trans ?_
  simp only [h.carry]

theorem Passes.setCarry (h : Passes P f) (s : State) (c : List Byte) : f { s with carry := c } = { f s with carry := c } := by
  refine (h.buffers s c s.facc).trans ?_
  simp only [h.facc]

theorem Passes.runRecord (h : Passes P f) (ctx : Context) (bytes : List Byte) {s : State} (hs : P s) :
    runRecord ctx bytes (f s) = mapNext f (runRecord ctx bytes s) := by
  unfold Machine.runRecord
  split
  · exact h.exec _ s hs
  · simp [mapNext, h.raise]
  · simp [mapNext, h.raise]
  · rfl

theorem Passes.byte (h : Passes P f) (b : Byte) {s : State} (hs : P s) :
    decByte b (f s) = mapNext f (decByte b s) := by
  have h1 : P { s with facc := [] } := h.keepFacc s hs
  have h2 : P { s with carry := [] } := h.keepCarry s hs
  unfold decByte
  rw [h.phase]
  cases s.phase with
  | dHeader =>
    simp only [decByteHeader, h.facc, ← h.setFacc]
    split
    · exact h.runRecord _ _ h1
    · rfl
  | dTrailer =>
    simp only [decByteTrailer, h.facc, ← h.setFacc]
    split
    · exact h.runRecord _ _ h1
    · rfl
  | dChunks =>
    simp only [decByteChunks, h.carry, ← h.setCarry]
    split
    · rw [h.runRecord _ _ h2]
      cases Machine.runRecord .chunk (s.carry ++ [b]) { s with carry := [] } with
      | next t => simp only [mapNext, h.chunkEnd]
      | fault e => rfl
      | refused r => rfl
    · rfl
  | _ => rfl

/-- The change passes through a whole push. -/
theorem Passes.push (h : Passes P f) (bs : List Byte) (k : Nat) {s : State} (hs : P s) :
    pushBytes bs k (f s) = mapNext (fun q => (q.1, f q.2)) (pushBytes bs k s) := by
  induction bs generalizing k s with
  | nil => rfl
  | cons b bs ih =>
    have hst : (f s).stopped = s.stopped := by simp [State.stopped, h.phase]
    simp only [pushBytes, hst]
    split
    · rfl
    · rw [h.byte b hs]
      cases hb : decByte b s with
      | next t => exact ih (k + 1) (h.keep b s t hs hb)
      | fault e => rfl
      | refused r => rfl

/-! ### Output already gathered -/

/-- Output and a header event gathered before, and the reply of an earlier command. -/
def State.withOutput (o : List Byte) (ev : Option Header) (r : Option Result) (s : State) : State :=
  { s with out := o ++ s.out, hdrEvent := s.hdrEvent.or ev, reply := r }

theorem outPixel_withOutput (o : List Byte) (ev : Option Header) (r : Option Result) (p : Pixel) (s : State) :
    outPixel p (s.withOutput o ev r) = (outPixel p s).withOutput o ev r := by
  unfold outPixel
  cases hw : s.walker <;> simp [State.withOutput, hw]

theorem outPixels_withOutput (o : List Byte) (ev : Option Header) (r : Option Result) (n : Nat) (p : Pixel) (s : State) :
    outPixels n p (s.withOutput o ev r) = (outPixels n p s).withOutput o ev r := by
  induction n generalizing s with
  | zero => rfl
  | succ n ih => rw [outPixels, outPixel_withOutput, ih]; rfl

theorem deliver_withOutput (o : List Byte) (ev : Option Header) (r : Option Result) (p : Pixel) (s : State) :
    deliver p (s.withOutput o ev r) = (deliver p s).withOutput o ev r :=
  outPixel_withOutput o ev r (alphaFix s p) (writeBack (alphaFix s p) s)

theorem guardChunk_map (f : State → State) {s : State} (h1 : (f s).phase = s.phase) (h2 : (f s).hdrValid = s.hdrValid)
    (h3 : (f s).total = s.total) (h4 : (f s).pxCount = s.pxCount) (t : State) :
    guardChunk (f s) (f t) = mapNext f (guardChunk s t) := by
  simp only [guardChunk, readingHeader, h1, h2, h3, h4]
  (repeat' split) <;> rfl

theorem acceptHeader_withOutput (o : List Byte) (ev : Option Header) (r : Option Result) (w h : Dim) (c cs : Byte) {s : State}
    (hp : s.phase = .dHeader) :
    acceptHeader w h c cs (s.withOutput o ev r) = (acceptHeader w h c cs s).withOutput o ev r := by
  by_cases ha : acceptedFields s.cfg w h c cs
  · rw [acceptHeader_accepted (s := s.withOutput o ev r) (by simp [State.withOutput, hp]) ha,
      acceptHeader_accepted (by simp [hp]) ha]
    rfl
  · rw [acceptHeader_rejected (s := s.withOutput o ev r) ha, acceptHeader_rejected ha]
    rfl

/-- Earlier output passes through the decoder untouched. -/
theorem passes_withOutput (o : List Byte) (ev : Option Header) (r : Option Result) : Passes (fun _ => True) (State.withOutput o ev r) where
  phase := fun _ => rfl
  carry := fun _ => rfl
  facc := fun _ => rfl
  buffers := fun _ _ _ => rfl
  keepFacc := fun _ _ => trivial
  keepCarry := fun _ _ => trivial
  raise := fun _ _ _ => rfl
  chunkEnd := fun s => by
    by_cases h : s.pxCount = s.total
    · rw [endChunk, if_pos h, endChunk, if_pos (show (s.withOutput o ev r).pxCount = (s.withOutput o ev r).total from h)]
      rfl
    · rw [endChunk, if_neg h, endChunk, if_neg (show (s.withOutput o ev r).pxCount ≠ (s.withOutput o ev r).total from h)]
  exec := fun i s _ => by
    have g := fun t => guardChunk_map (State.withOutput o ev r) (s := s) rfl rfl rfl rfl t
    cases i with
    | header w h c cs =>
      simp only [exec, execHeader]
      by_cases hp : s.phase = .dHeader
      · rw [if_pos hp, if_pos (show (s.withOutput o ev r).phase = .dHeader from hp), acceptHeader_withOutput o ev r w h c cs hp]
        rfl
      · rw [if_neg hp, if_neg (show (s.withOutput o ev r).phase ≠ .dHeader from hp)]
        rfl
    | endMarker =>
      simp only [exec, execEndMarker]
      by_cases hp : s.phase = .dTrailer
      · rw [if_pos hp, if_pos (show (s.withOutput o ev r).phase = .dTrailer from hp)]
        rfl
      · rw [if_neg hp, if_neg (show (s.withOutput o ev r).phase ≠ .dTrailer from hp)]
        rfl
    | run m => exact (congrArg (guardChunk _) (outPixels_withOutput o ev r _ _ s)).trans (g _)
    | index _ => exact (congrArg (guardChunk _) (deliver_withOutput o ev r _ s)).trans (g _)
    | diff _ _ _ => exact (congrArg (guardChunk _) (deliver_withOutput o ev r _ s)).trans (g _)
    | luma _ _ _ => exact (congrArg (guardChunk _) (deliver_withOutput o ev r _ s)).trans (g _)
    | rgb _ _ _ => exact (congrArg (guardChunk _) (deliver_withOutput o ev r _ s)).trans (g _)
    | rgba _ _ _ _ => exact (congrArg (guardChunk _) (deliver_withOutput o ev r _ s)).trans (g _)
  keep := fun _ _ _ _ _ => trivial

end Sys2Proof.Machine
end

