-- ==== Sys2Proof/Laws/Commands.lean ====
section
/-! SUPPORT. What a step does with the oldest command, command by command.
-/

namespace Sys2Proof.Machine

/-- A step performs the oldest command. -/
theorem step_cons {s : State} {c : Command} {rest : List Command} (h : s.cmds = c :: rest) :
    step s = command c { s with cmds := rest } := by
  simp [step, h]

/-- A step with nothing to do holds the state. -/
theorem step_nil {s : State} (h : s.cmds = []) : step s = .next s := by
  simp [step, h]

/-- The phases in which the decoder is open. -/
theorem accepts_decPush {p : Phase} {frag : List Byte} :
    p.accepts (.decPush frag) = true ↔ p = .dHeader ∨ p = .dChunks ∨ p = .dTrailer ∨ p = .dDone := by
  cases p <;> simp [Phase.accepts]

/-- What DEC_PUSH makes of the outcome of its walk. -/
def pushResult : Host.Outcome (Nat × State) Fault Refusal → Host.Outcome State Fault Refusal
  | .next (k, t) =>
    if t.phase = .failed then .next (closeFailed t) else .next (closeCommand (.pushed t.hdrEvent t.out k) t)
  | .fault f => .fault f
  | .refused r => .refused r

/-- DEC_PUSH in an open phase. -/
theorem cmdDecPush_open {frag : List Byte} {s : State}
    (hp : s.phase = .dHeader ∨ s.phase = .dChunks ∨ s.phase = .dTrailer ∨ s.phase = .dDone) :
    cmdDecPush frag s = pushResult (pushBytes frag 0 (openCommand .byValue s)) := by
  have h : s.phase.accepts (.decPush frag) = true := accepts_decPush.2 hp
  rw [cmdDecPush, h, if_neg (by simp)]
  cases pushBytes frag 0 (openCommand .byValue s) <;> rfl

end Sys2Proof.Machine
end

