-- ==== Sys2Proof/Laws/Invariant.lean ====
section
/-! SUPPORT. The invariant inside a command: what every record, every byte and every pixel keeps of it.
-/

namespace Sys2Proof.Machine

/-- The invariant without its last part: what holds while a command runs. -/
structure State.Running (s : State) : Prop where
  config : s.cfg.legal = true
  spaces : s.pix.wf ∧ s.stream.wf
  header : s.hdrValid = true → s.headerLegal
  phase : s.phaseInv
  slots : s.slotsHashed
  stored : s.prevStored
  alpha : s.alphaFixed
  error : s.errInv

theorem State.Inv.running {s : State} (h : s.Inv) : s.Running :=
  ⟨h.config, h.spaces, h.header, h.phase, h.slots, h.stored, h.alpha, h.error⟩

theorem State.Running.inv {s : State} (h : s.Running) (hb : s.betweenCommands) : s.Inv :=
  ⟨h.config, h.spaces, h.header, h.phase, h.slots, h.stored, h.alpha, h.error, hb⟩

/-- The command's own fields and the host's are no part of it. -/
theorem State.Running.own {s : State} (h : s.Running) (cmds : List Command) (reply : Option Result) (out : List Byte)
    (ev : Option Header) (w : Walker) (n : Nat) :
    { s with cmds := cmds, reply := reply, out := out, hdrEvent := ev, walker := w, freeCount := n }.Running :=
  ⟨h.config, h.spaces, h.header, h.phase, h.slots, h.stored, h.alpha, h.error⟩

/-- A command that closes leaves nothing of its own. -/
theorem State.Running.close {s : State} (h : s.Running) (r : Result) : (closeCommand r s).Inv :=
  (h.own s.cmds (some r) [] none .byValue s.freeCount).inv ⟨rfl, rfl, rfl⟩

/-- An open phase has a clear latch. -/
theorem State.Running.noErr {s : State} (h : s.Running) (hp : s.phase ≠ .failed) : s.err = ⟨.none, .none⟩ := by
  have h1 : s.err.kind = .none := h.error.1.2 hp
  have h2 : s.err.sub = .none := h.error.2.2 (by simp [h1])
  rw [← h1, ← h2]

/-- The reset index and previous pixel meet the parts about pixels. -/
theorem State.fresh.pixels {s : State} (h : s.fresh) : s.slotsHashed ∧ s.prevStored ∧ s.alphaFixed := by
  obtain ⟨h1, -, h3, -⟩ := h
  have hz : ∀ k : Slot, s.indexGet k = zeroPixel := fun k => by simp [State.indexGet, h3]
  exact ⟨fun k => .inl (hz k), .inl h1, fun _ _ _ => ⟨by rw [h1]; rfl, fun k => .inl (hz k)⟩⟩

/-- Channels of a legal header. -/
theorem State.Running.channels {s : State} (h : s.Running) (hv : s.hdrValid = true) : s.channels = 3 ∨ s.channels = 4 :=
  (h.header hv).1.1

/-- The write-back keeps the parts about the index and the previous pixel. -/
theorem slotsHashed_writeBack {s : State} (h : s.slotsHashed) (p : Pixel) : (writeBack p s).slotsHashed := by
  intro k
  rw [indexGet_writeBack]
  by_cases hk : k = hash p
  · exact .inr (by rw [if_pos hk, hk])
  · rw [if_neg hk]; exact h k

theorem prevStored_writeBack (s : State) (p : Pixel) : (writeBack p s).prevStored :=
  .inr (by rw [indexGet_writeBack]; simp)

theorem alpha_writeBack {s : State} {p : Pixel} (hp : p.a = 255)
    (h : ∀ k : Slot, s.indexGet k = zeroPixel ∨ (s.indexGet k).a = 255) :
    (writeBack p s).prev.a = 255 ∧
      ∀ k : Slot, (writeBack p s).indexGet k = zeroPixel ∨ ((writeBack p s).indexGet k).a = 255 := by
  refine ⟨hp, fun k => ?_⟩
  rw [indexGet_writeBack]
  by_cases hk : k = hash p
  · exact .inr (by rw [if_pos hk, hp])
  · rw [if_neg hk]; exact h k

/-- The canonical form of `PIX` survives the output of a pixel. -/
theorem outPixel_pix_wf {s : State} (h : s.pix.wf) (p : Pixel) : (outPixel p s).pix.wf := by
  unfold outPixel
  cases s.walker with
  | byValue => exact h
  | inSpaces op => exact Memory.wf_writeBytes h _ _

theorem outPixels_pix_wf {s : State} (h : s.pix.wf) (n : Nat) (p : Pixel) : (outPixels n p s).pix.wf := by
  induction n generalizing s with
  | zero => exact h
  | succ n ih => exact ih (outPixel_pix_wf h p)

/-- The canonical form of STREAM survives an emission. -/
theorem emit_stream_wf {s : State} (h : s.stream.wf) (bytes : List Byte) : (emit bytes s).stream.wf := by
  unfold emit
  cases s.walker with
  | byValue => exact h
  | inSpaces op => exact Memory.wf_writeBytes h _ _

/-- An error raised in an open phase with short buffers. -/
theorem State.Running.raise {s : State} (h : s.Running) (kind : ErrKind) (sub : SubCause) (hk : kind ≠ .none)
    (hs : sub = .none ↔ kind ≠ .malformedHeader)
    (hp : s.phase = .idle ∨ s.phase = .dHeader ∨ s.phase = .dChunks ∨ s.phase = .dTrailer) :
    (raise kind sub s).Running := by
  have he := h.noErr (by rcases hp with h | h | h | h <;> rw [h] <;> simp)
  have hf : (Machine.raise kind sub s).err = ⟨kind, sub⟩ := by simp [Machine.raise, he]
  refine ⟨h.config, h.spaces, h.header, ?_, h.slots, h.stored, ?_, ?_⟩
  · have hi := h.phase
    have hb : ∀ b : Byte, chunkLen b ≤ 5 := fun b => (chunkLen_bounds b).2
    show (s.hdrValid = false → s.pxCount = 0) ∧ (s.hdrValid = true → s.pxCount ≤ s.total) ∧ s.run = 0 ∧
      s.carry.length ≤ 4 ∧ s.facc.length ≤ 13
    rcases hp with hp | hp | hp | hp <;> simp only [State.phaseInv, hp] at hi
    · obtain ⟨a, ⟨-, b, -, c⟩, d, e⟩ := hi
      simp [a, b, c, d, e]
    · obtain ⟨a, ⟨-, b, -, c⟩, d, e⟩ := hi
      simp [a, b, c, d, e]
    · obtain ⟨a, b, c, d, e⟩ := hi
      refine ⟨by simp [a], fun _ => by omega, c, ?_, by simp [d]⟩
      rcases e with e | e
      · simp [e]
      · exact Nat.le_of_lt_succ (Nat.lt_of_lt_of_le e (hb _))
    · obtain ⟨a, b, c, d, e⟩ := hi
      exact ⟨by simp [a], fun _ => by omega, c, by simp [d], by omega⟩
  · intro h1 h2 h3
    refine h.alpha h1 h2 ?_
    rcases h3 with h3 | h3 | h3
    · exact .inl h3
    · cases h3
    · cases h3
  · refine ⟨?_, ?_⟩
    · rw [hf]; simp [hk]
    · rw [hf]; exact hs

/-- The buffers filled further, or emptied, within the bounds of the phase. -/
theorem State.Running.buffers {s : State} (h : s.Running) (carry facc : List Byte)
    (hi : { s with carry := carry, facc := facc }.phaseInv) : { s with carry := carry, facc := facc }.Running :=
  ⟨h.config, h.spaces, h.header, hi, h.slots, h.stored, h.alpha, h.error⟩

/-- Either buffer may be emptied. -/
theorem State.Running.emptyFacc {s : State} (h : s.Running) : { s with facc := [] }.Running := by
  refine h.buffers s.carry [] ?_
  have hi := h.phase
  unfold State.phaseInv at hi ⊢
  cases hp : s.phase <;> simp only [hp] at hi ⊢ <;> simp_all [State.fresh]

theorem State.Running.emptyCarry {s : State} (h : s.Running) : { s with carry := [] }.Running := by
  refine h.buffers [] s.facc ?_
  have hi := h.phase
  unfold State.phaseInv at hi ⊢
  cases hp : s.phase <;> simp only [hp] at hi ⊢ <;> simp_all [State.fresh]

/-- A header record. -/
theorem State.Running.acceptHeader {s : State} (h : s.Running) (hp : s.phase = .dHeader) (hf : s.facc = [])
    (w ht : Dim) (c cs : Byte) : (acceptHeader w ht c cs s).Running := by
  have hi := h.phase
  simp only [State.phaseInv, hp] at hi
  obtain ⟨hv, hfr, hc, -⟩ := hi
  by_cases ha : acceptedFields s.cfg w ht c cs
  · rw [acceptHeader_accepted (by simp [hp]) ha]
    obtain ⟨h1, h2, h3⟩ := State.fresh.pixels
      (s := { s with
        width := w, height := ht, channels := c, colorspace := cs, total := w.toNat * ht.toNat, hdrValid := true
        hdrEvent := some ⟨w, ht, c, cs⟩, phase := bodyPhase (w.toNat * ht.toNat) }) hfr
    refine ⟨h.config, h.spaces, fun _ => ⟨ha, rfl⟩, ?_, h1, h2, h3, ?_⟩
    · obtain ⟨-, hr, -, hx⟩ := hfr
      by_cases ht0 : w.toNat * ht.toNat = 0
      · simp [State.phaseInv, bodyPhase, ht0, hx, hr, hc, hf]
      · have : 0 < w.toNat * ht.toNat := Nat.pos_of_ne_zero ht0
        simp [State.phaseInv, bodyPhase, ht0, hx, hr, hc, hf, this]
    · have he := h.error
      refine ⟨?_, he.2⟩
      simp only [he.1, hp, bodyPhase]
      split <;> simp
  · rw [acceptHeader_rejected ha]
    obtain ⟨h1, h2⟩ := fieldError_spec s.cfg w ht c cs
    exact h.raise _ _ h1 h2 (.inr (.inl hp))

/-- The end of the chunk region, if it is reached. -/
theorem State.Running.endChunk {s : State} (h : ∀ p : Phase, p = (endChunk s).phase → { s with phase := p }.Running) :
    (endChunk s).Running := by
  have := h _ rfl
  unfold Machine.endChunk at this ⊢
  split
  · next hh => simp only [if_pos hh] at this; exact this
  · next hh => simp only [if_neg hh] at this; exact this

/-- A chunk, with an empty assembly buffer. -/
theorem State.Running.chunk {i : Instr} {s t : State} (h : s.Running) (hi : i.context = .chunk) (hc : s.carry = [])
    (he : exec i s = .next t) : (Machine.endChunk t).Running := by
  obtain ⟨hp, hv, hlt, hsh⟩ := exec_chunk_next hi he
  have hpi := h.phase
  simp only [State.phaseInv, hp] at hpi
  obtain ⟨-, -, hr, hf, -⟩ := hpi
  have herr := h.noErr (by simp [hp])
  have key : t.cfg = s.cfg ∧ t.pix.wf ∧ t.stream = s.stream ∧ t.hdrValid = s.hdrValid ∧ t.headerLegal ∧
      t.phase = s.phase ∧ t.pxCount ≤ t.total ∧ t.run = 0 ∧ t.carry = [] ∧ t.facc = [] ∧ t.err = s.err ∧
      t.slotsHashed ∧ t.prevStored ∧
      (t.channels = 3 → t.cfg.rgbAlphaPolicy = .force255 →
        t.prev.a = 255 ∧ ∀ k : Slot, t.indexGet k = zeroPixel ∨ (t.indexGet k).a = 255) := by
    have hl := h.header hv
    rcases hsh with ⟨p, rfl⟩ | ⟨n, hn1, hn2, hn3, rfl⟩
    · refine ⟨by simp, outPixel_pix_wf (s := writeBack (alphaFix s p) s) h.spaces.1 _, by simp, by simp, ?_, by simp,
        by simp; omega, by simpa using hr, by simpa using hc, by simpa using hf, by simp, ?_, ?_, ?_⟩
      · simpa [State.headerLegal] using hl
      · intro k
        rw [indexGet_congr (s := writeBack (alphaFix s p) s) (by simp)]
        exact slotsHashed_writeBack h.slots _ k
      · refine .inr ?_
        rw [indexGet_congr (s := writeBack (alphaFix s p) s) (by simp), indexGet_writeBack]
        simp
      · intro h3 hpol
        simp only [deliver_channels, deliver_cfg] at h3 hpol
        have ha : (alphaFix s p).a = 255 := by rw [alphaFix_a (.inl h3), if_pos ⟨h3, hpol⟩]
        obtain ⟨h1, h2⟩ := alpha_writeBack ha (h.alpha hv h3 (.inl hpol)).2
        refine ⟨by simpa using ha, fun k => ?_⟩
        rw [indexGet_congr (s := writeBack (alphaFix s p) s) (by simp)]
        exact h2 k
    · refine ⟨by simp, outPixels_pix_wf h.spaces.1 _ _, by simp, by simp, ?_, by simp,
        by simp; omega, by simpa using hr, by simpa using hc, by simpa using hf, by simp, ?_, ?_, ?_⟩
      · simpa [State.headerLegal] using hl
      · intro k
        rw [indexGet_congr (s := s) (by simp)]
        exact h.slots k
      · have := h.stored
        unfold State.prevStored at this ⊢
        rw [indexGet_congr (s := s) (by simp)]
        simpa using this
      · intro h3 hpol
        simp only [outPixels_channels, outPixels_cfg] at h3 hpol
        obtain ⟨h1, h2⟩ := h.alpha hv h3 (.inl hpol)
        refine ⟨by simpa using h1, fun k => ?_⟩
        rw [indexGet_congr (s := s) (by simp)]
        exact h2 k
  obtain ⟨k1, k2, k3, k4, k5, k6, k7, k8, k9, k10, k11, k12, k13, k14⟩ := key
  refine State.Running.endChunk fun p hpe => ?_
  have hpp : (p = .dChunks ∧ t.pxCount ≠ t.total) ∨ (p = .dTrailer ∧ t.pxCount = t.total) := by
    by_cases hx : t.pxCount = t.total
    · exact .inr ⟨by rw [hpe, Machine.endChunk, if_pos hx], hx⟩
    · exact .inl ⟨by rw [hpe, Machine.endChunk, if_neg hx, k6, hp], hx⟩
  refine ⟨k1 ▸ h.config, ⟨k2, k3 ▸ h.spaces.2⟩, fun _ => k5, ?_, k12, k13, ?_, ?_⟩
  · rcases hpp with ⟨rfl, hx⟩ | ⟨rfl, hx⟩
    · exact ⟨k4.trans hv, Nat.lt_of_le_of_ne k7 hx, k8, k10, .inl k9⟩
    · exact ⟨k4.trans hv, hx, k8, k9, by simp [k10]⟩
  · intro h1 h2 h3
    refine k14 h2 ?_
    rcases h3 with h3 | h3 | h3
    · exact h3
    · rcases hpp with ⟨rfl, -⟩ | ⟨rfl, -⟩ <;> cases h3
    · rcases hpp with ⟨rfl, -⟩ | ⟨rfl, -⟩ <;> cases h3
  · have hkind : t.err = ⟨.none, .none⟩ := k11.trans herr
    refine ⟨?_, ?_⟩
    · show t.err.kind = .none ↔ p ≠ .failed
      rw [hkind]
      rcases hpp with ⟨rfl, -⟩ | ⟨rfl, -⟩ <;> simp
    · show t.err.sub = .none ↔ t.err.kind ≠ .malformedHeader
      rw [hkind]; simp

/-- One byte. -/
theorem State.Running.byte {b : Byte} {s t : State} (h : s.Running) (hb : decByte b s = .next t) : t.Running := by
  have hi := h.phase
  cases decByte_next hb with
  | headerMore hp hl =>
    refine h.buffers s.carry _ ?_
    simp only [State.phaseInv, hp] at hi ⊢
    obtain ⟨a, c, d, e⟩ := hi
    refine ⟨a, c, d, ?_⟩
    simp [headerLen] at hl ⊢; omega
  | headerBad hp hl hd =>
    have h1 : { s with facc := [] }.Running := by
      refine h.buffers s.carry [] ?_
      simp only [State.phaseInv, hp] at hi ⊢
      exact ⟨hi.1, hi.2.1, hi.2.2.1, by simp⟩
    exact h1.raise _ _ (by simp) (by simp) (.inr (.inl hp))
  | headerDone hp hl w ht c cs hd =>
    have h1 : { s with facc := [] }.Running := by
      refine h.buffers s.carry [] ?_
      simp only [State.phaseInv, hp] at hi ⊢
      exact ⟨hi.1, hi.2.1, hi.2.2.1, by simp⟩
    exact h1.acceptHeader hp rfl w ht c cs
  | chunkMore hp hl =>
    refine h.buffers _ s.facc ?_
    simp only [State.phaseInv, hp] at hi ⊢
    obtain ⟨a, c, d, e, f⟩ := hi
    refine ⟨a, c, d, e, .inr ?_⟩
    rcases f with f | f
    · rw [f] at hl ⊢
      have := chunkLen_bounds b
      simp at hl ⊢
      omega
    · have hh : (s.carry ++ [b]).headD 0 = s.carry.headD 0 ∨ s.carry = [] := by cases s.carry <;> simp
      rcases hh with hh | hh
      · rw [hh] at hl ⊢; simp only [List.length_append, List.length_singleton] at hl ⊢; omega
      · rw [hh] at hl ⊢
        have := chunkLen_bounds b
        simp at hl ⊢
        omega
  | chunkDone hp hl i hd hc u he =>
    have h1 : { s with carry := [] }.Running := by
      refine h.buffers [] s.facc ?_
      simp only [State.phaseInv, hp] at hi ⊢
      exact ⟨hi.1, hi.2.1, hi.2.2.1, hi.2.2.2.1, .inl trivial⟩
    exact h1.chunk hc rfl he
  | trailerMore hp hl =>
    refine h.buffers s.carry _ ?_
    simp only [State.phaseInv, hp] at hi ⊢
    obtain ⟨a, c, d, e, f⟩ := hi
    refine ⟨a, c, d, e, ?_⟩
    simp [endLen] at hl ⊢; omega
  | trailerBad hp hl hd =>
    have h1 : { s with facc := [] }.Running := by
      refine h.buffers s.carry [] ?_
      simp only [State.phaseInv, hp] at hi ⊢
      exact ⟨hi.1, hi.2.1, hi.2.2.1, hi.2.2.2.1, by simp⟩
    exact h1.raise _ _ (by simp) (by simp) (.inr (.inr (.inr hp)))
  | trailerDone hp hl hd =>
    simp only [State.phaseInv, hp] at hi
    refine ⟨h.config, h.spaces, h.header, ⟨hi.1, hi.2.1, hi.2.2.1, hi.2.2.2.1, rfl⟩, h.slots, h.stored, ?_, ?_⟩
    · intro h1 h2 h3
      refine h.alpha h1 h2 ?_
      rcases h3 with h3 | h3 | h3
      · exact .inl h3
      · cases h3
      · cases h3
    · have he := h.noErr (by simp [hp])
      refine ⟨?_, ?_⟩
      · show s.err.kind = .none ↔ _
        rw [he]; simp
      · show s.err.sub = .none ↔ s.err.kind ≠ _
        rw [he]; simp

/-- A byte given to a legal open decoder is never stuck. -/
theorem State.Running.byte_runs {s : State} (h : s.Running) (b : Byte) (hs : s.stopped = false)
    (hp : s.phase = .dHeader ∨ s.phase = .dChunks ∨ s.phase = .dTrailer ∨ s.phase = .dDone) :
    ∃ t, decByte b s = .next t := by
  rcases hp with hp | hp | hp | hp
  · obtain ⟨t, ht, -⟩ := decByte_dHeader b hp; exact ⟨t, ht⟩
  · rcases decByte_dChunks b hp with ⟨-, hu⟩ | ⟨hl, i, hd, hi, hu⟩
    · exact ⟨_, hu⟩
    · have hpi := h.phase
      simp only [State.phaseInv, hp] at hpi
      obtain ⟨t, ht⟩ := exec_chunk_of_ready (s := { s with carry := [] }) hi ⟨hp, hpi.1, hpi.2.1, h.channels hpi.1⟩
      exact ⟨_, by rw [hu, ht]⟩
  · obtain ⟨t, ht, -⟩ := decByte_dTrailer b hp; exact ⟨t, ht⟩
  · simp [State.stopped, hp] at hs

/-- The open phases and FAILED are not left by a byte. -/
theorem Walked.isOpen {s t : State} (h : Walked s t)
    (hp : s.phase = .dHeader ∨ s.phase = .dChunks ∨ s.phase = .dTrailer ∨ s.phase = .dDone) :
    (t.phase = .dHeader ∨ t.phase = .dChunks ∨ t.phase = .dTrailer ∨ t.phase = .dDone) ∨ t.phase = .failed := by
  have := h.phase
  rcases hp with hp | hp | hp | hp <;> rw [hp] at this <;> cases ht : t.phase <;> simp_all [Phase.reaches]

/-- A push into a legal open decoder runs, and keeps the invariant. -/
theorem State.Running.push {s : State} (h : s.Running) (bs : List Byte) (k : Nat)
    (hp : s.phase = .dHeader ∨ s.phase = .dChunks ∨ s.phase = .dTrailer ∨ s.phase = .dDone) :
    ∃ n t, pushBytes bs k s = .next (n, t) ∧ t.Running := by
  induction bs generalizing k s with
  | nil => exact ⟨k, s, rfl, h⟩
  | cons b bs ih =>
    by_cases hs : s.stopped = true
    · exact ⟨k, s, pushBytes_stopped hs _ _, h⟩
    · have hs' : s.stopped = false := by simpa using hs
      obtain ⟨t, ht⟩ := h.byte_runs b hs' hp
      have h1 := h.byte ht
      simp only [pushBytes, hs', Bool.false_eq_true, if_false, ht]
      rcases (Walked.byte ht).isOpen hp with h2 | h2
      · exact ih h1 (k + 1) h2
      · exact ⟨k + 1, t, pushBytes_stopped (by simp [State.stopped, h2]) _ _, h1⟩

end Sys2Proof.Machine
end

