-- ==== Sys2Proof/Laws/Encoder.lean ====
section
/-! SUPPORT. What one pixel given to the encoder does: its chunk, its output, and what it keeps of the invariant.
-/

namespace Sys2Proof.Machine

theorem emit_byValue {s : State} (h : s.walker = .byValue) (bytes : List Byte) :
    emit bytes s = { s with out := s.out ++ bytes } := by
  simp [emit, h]

theorem emit_inSpaces {s : State} {op : Nat} (h : s.walker = .inSpaces op) (bytes : List Byte) :
    emit bytes s = { s with stream := s.stream.writeBytes op bytes, walker := .inSpaces (op + bytes.length) } := by
  simp [emit, h]

/-- The pending run is 0 after a flush. -/
@[simp] theorem flushRun_run (s : State) : (flushRun s).run = 0 := by
  unfold flushRun
  split
  · rfl
  · next h => simpa using h

/-- A pixel equal to `prev` leaves a run below 62. -/
theorem extendRun_run (s : State) :
    (extendRun s).run = if s.run = 61 then 0 else s.run + 1 := by
  unfold extendRun runMax
  by_cases h1 : s.run = 61
  · simp [h1]
  · have : s.run + 1 ≠ 62 := by omega
    simp [h1]

theorem encPixel_same (s : State) : encPixel s.prev s = extendRun { s with pxCount := s.pxCount + 1 } := by
  simp [encPixel]

/-- A new pixel: the flush, the chunk, the write-back. -/
theorem encPixel_new {s : State} {p : Pixel} (h : p ≠ s.prev) :
    encPixel p s =
      writeBack p (emit (encode (selectChunk p s)) (flushRun { s with pxCount := s.pxCount + 1 })) := by
  have h1 : selectChunk p (flushRun { s with pxCount := s.pxCount + 1 }) = selectChunk p s := by
    unfold selectChunk
    rw [indexGet_congr (s := s) (by simp), flushRun_prev]
  simp only [encPixel, if_neg h, h1]

/-- The five chunks a new pixel can have, with the tests that choose them (42_chunk_encode.md R171). -/
theorem selectChunk_cases (p : Pixel) (s : State) :
    (s.indexGet (hash p) = p ∧ selectChunk p s = .index (hash p)) ∨
    (p.a = s.prev.a ∧ s.indexGet (hash p) ≠ p ∧
      ((∃ x y z, selectChunk p s = .diff x y z) ∨ (∃ x y z, selectChunk p s = .luma x y z) ∨
        selectChunk p s = .rgb p.r p.g p.b)) ∨
    (p.a ≠ s.prev.a ∧ s.indexGet (hash p) ≠ p ∧ selectChunk p s = .rgba p.r p.g p.b p.a) := by
  by_cases h1 : s.indexGet (hash p) = p
  · exact .inl ⟨h1, if_pos h1⟩
  · by_cases h2 : p.a = s.prev.a
    · refine .inr (.inl ⟨h2, h1, ?_⟩)
      rw [selectChunk, if_neg h1, if_pos h2, selectDelta]
      split
      · exact .inl ⟨_, _, _, rfl⟩
      · split
        · exact .inr (.inl ⟨_, _, _, rfl⟩)
        · exact .inr (.inr rfl)
    · exact .inr (.inr ⟨h2, h1, by rw [selectChunk, if_neg h1, if_neg h2]⟩)

/-- The chunk of a new pixel is a chunk and not a RUN. -/
theorem selectChunk_context (p : Pixel) (s : State) :
    (selectChunk p s).context = .chunk ∧ (selectChunk p s).encodable = true ∧ ∀ m, selectChunk p s ≠ .run m := by
  rcases selectChunk_cases p s with ⟨-, h⟩ | ⟨-, -, ⟨x, y, z, h⟩ | ⟨x, y, z, h⟩ | h⟩ | ⟨-, -, h⟩ <;> rw [h] <;>
    exact ⟨rfl, rfl, fun m hm => by cases hm⟩

/-- The chunk of a new pixel has at most five bytes, and four if alpha is that of `prev`. -/
theorem selectChunk_length (p : Pixel) (s : State) :
    1 ≤ (encode (selectChunk p s)).length ∧ (encode (selectChunk p s)).length ≤ 5 ∧
      (p.a = s.prev.a → (encode (selectChunk p s)).length ≤ 4) := by
  rcases selectChunk_cases p s with ⟨-, h⟩ | ⟨-, -, ⟨x, y, z, h⟩ | ⟨x, y, z, h⟩ | h⟩ | ⟨ha, -, h⟩ <;> rw [h] <;>
    simp_all [encode]

/-- The index after a pixel. -/
theorem indexGet_encPixel_new {s : State} {p : Pixel} (h : p ≠ s.prev) (k : Slot) :
    (encPixel p s).indexGet k = if k = hash p then p else s.indexGet k := by
  rw [encPixel_new h, indexGet_writeBack, indexGet_congr (s := s) (by simp)]

/-- The fields a pixel may change. -/
theorem encPixel_frame (p : Pixel) (s : State) :
    encPixel p s =
      { s with
        prev := p
        run := (encPixel p s).run
        index := (encPixel p s).index
        pxCount := s.pxCount + 1
        out := (encPixel p s).out
        stream := (encPixel p s).stream
        walker := (encPixel p s).walker } := by
  by_cases h : p = s.prev
  · subst h; ext1 <;> simp [encPixel_same]
  · ext1 <;> simp [encPixel_new h]

@[simp] theorem encPixel_prev (p : Pixel) (s : State) : (encPixel p s).prev = p := by
  rw [encPixel_frame]

@[simp] theorem encPixel_pxCount (p : Pixel) (s : State) : (encPixel p s).pxCount = s.pxCount + 1 := by
  rw [encPixel_frame]

/-- In a streaming command nothing is stored and the shape of the command stays. -/
theorem flushRun_byValue {s : State} (h : s.walker = .byValue) :
    (flushRun s).walker = .byValue ∧ (flushRun s).stream = s.stream := by
  unfold flushRun
  split <;> simp [emit_byValue h, h]

theorem extendRun_byValue {s : State} (h : s.walker = .byValue) :
    (extendRun s).walker = .byValue ∧ (extendRun s).stream = s.stream := by
  unfold extendRun
  split
  · rw [emit_byValue (s := { s with run := s.run + 1 }) h]
    exact ⟨h, rfl⟩
  · exact ⟨h, rfl⟩

theorem encPixel_byValue {s : State} (h : s.walker = .byValue) (p : Pixel) :
    (encPixel p s).walker = .byValue ∧ (encPixel p s).stream = s.stream := by
  by_cases hp : p = s.prev
  · subst hp
    rw [encPixel_same]
    exact extendRun_byValue (s := { s with pxCount := s.pxCount + 1 }) h
  · have hf := flushRun_byValue (s := { s with pxCount := s.pxCount + 1 }) h
    rw [encPixel_new hp, writeBack_walker, writeBack_stream, emit_byValue hf.1]
    exact hf

theorem encPixels_byValue {s : State} (h : s.walker = .byValue) (ps : List Pixel) :
    (encPixels ps s).walker = .byValue ∧ (encPixels ps s).stream = s.stream := by
  induction ps generalizing s with
  | nil => exact ⟨h, rfl⟩
  | cons p ps ih =>
    obtain ⟨h1, h2⟩ := encPixel_byValue h p
    obtain ⟨h3, h4⟩ := ih h1
    exact ⟨h3, h4.trans h2⟩

theorem encPixel_run_le {s : State} (h : s.run ≤ 61) (p : Pixel) : (encPixel p s).run ≤ 61 := by
  by_cases hp : p = s.prev
  · subst hp
    rw [encPixel_same, extendRun_run]
    split
    · omega
    · next h1 => have : s.run ≠ 61 := h1; show s.run + 1 ≤ 61; omega
  · simp [encPixel_new hp]

@[simp] theorem encPixels_pxCount (ps : List Pixel) (s : State) : (encPixels ps s).pxCount = s.pxCount + ps.length := by
  induction ps generalizing s with
  | nil => rfl
  | cons p ps ih => rw [encPixels, ih, encPixel_pxCount, List.length_cons]; omega

/-- Pixels in a row are the first ones, then the rest (45_streaming.md R233). -/
theorem encPixels_append (a b : List Pixel) (s : State) : encPixels (a ++ b) s = encPixels b (encPixels a s) := by
  induction a generalizing s with
  | nil => rfl
  | cons p a ih => exact ih (encPixel p s)

/-- Fragment independence of the encoder: for every partitioning of the pixels, pushing the fragments in turn is pushing
them all (45_streaming.md R247). -/
theorem encPixels_flatten (frags : List (List Pixel)) (s : State) :
    encPixels frags.flatten s = frags.foldl (fun t frag => encPixels frag t) s := by
  induction frags generalizing s with
  | nil => rfl
  | cons f frags ih => rw [List.flatten_cons, encPixels_append, ih, List.foldl_cons]

theorem flushRun_stream_wf {s : State} (h : s.stream.wf) : (flushRun s).stream.wf := by
  unfold flushRun
  split
  · exact emit_stream_wf h _
  · exact h

theorem extendRun_stream_wf {s : State} (h : s.stream.wf) : (extendRun s).stream.wf := by
  unfold extendRun
  split
  · exact emit_stream_wf (s := { s with run := s.run + 1 }) h _
  · exact h

theorem encPixel_stream_wf {s : State} (h : s.stream.wf) (p : Pixel) : (encPixel p s).stream.wf := by
  by_cases hp : p = s.prev
  · subst hp
    rw [encPixel_same]
    exact extendRun_stream_wf (s := { s with pxCount := s.pxCount + 1 }) h
  · rw [encPixel_new hp]
    exact emit_stream_wf (flushRun_stream_wf (s := { s with pxCount := s.pxCount + 1 }) h) _

/-- One pixel of a legal encoder with a pixel due, keeps the invariant. -/
theorem State.Running.pixel {s : State} (h : s.Running) (hp : s.phase = .eBody) (hlt : s.pxCount < s.total) {p : Pixel}
    (ha : s.channels = 3 → p.a = 255) : (encPixel p s).Running := by
  have hi := h.phase
  simp only [State.phaseInv, hp] at hi
  obtain ⟨hv, -, hr, hc, hf⟩ := hi
  refine ⟨by simpa using h.config, ⟨by simpa using h.spaces.1, encPixel_stream_wf h.spaces.2 p⟩, ?_, ?_, ?_, ?_, ?_, ?_⟩
  · intro _
    simpa [State.headerLegal] using h.header hv
  · have := encPixel_run_le hr p
    simp only [State.phaseInv, encPixel_phase, hp]
    simpa [hv, hc, hf, this] using hlt
  · by_cases he : p = s.prev
    · subst he
      intro k
      rw [encPixel_same, indexGet_congr (s := s) (by simp)]
      exact h.slots k
    · intro k
      rw [indexGet_encPixel_new he]
      by_cases hk : k = hash p
      · exact .inr (by rw [if_pos hk, hk])
      · rw [if_neg hk]; exact h.slots k
  · by_cases he : p = s.prev
    · have hs := h.stored
      unfold State.prevStored at hs ⊢
      subst he
      rw [encPixel_prev, encPixel_same, indexGet_congr (s := s) (by simp)]
      exact hs
    · refine .inr ?_
      rw [encPixel_prev, indexGet_encPixel_new he, if_pos rfl]
  · intro _ h3 _
    have h3' : s.channels = 3 := by simpa using h3
    obtain ⟨h4, h5⟩ := h.alpha hv h3' (.inr (.inl hp))
    refine ⟨by rw [encPixel_prev]; exact ha h3', fun k => ?_⟩
    by_cases he : p = s.prev
    · subst he
      rw [encPixel_same, indexGet_congr (s := s) (by simp)]
      exact h5 k
    · rw [indexGet_encPixel_new he]
      by_cases hk : k = hash p
      · exact .inr (by rw [if_pos hk]; exact ha h3')
      · rw [if_neg hk]; exact h5 k
  · have he := h.error
    unfold State.errInv at he ⊢
    simpa using he

/-- Pixels of a legal encoder that fit in the image. -/
theorem State.Running.pixels {s : State} (h : s.Running) (hp : s.phase = .eBody) {ps : List Pixel}
    (hl : s.pxCount + ps.length ≤ s.total) (ha : s.channels = 3 → ∀ p ∈ ps, p.a = 255) : (encPixels ps s).Running := by
  induction ps generalizing s with
  | nil => exact h
  | cons p ps ih =>
    simp only [List.length_cons] at hl
    refine ih (h.pixel hp (by omega) fun h3 => ha h3 p (by simp)) (by simpa using hp) (by simp; omega) ?_
    intro h3 q hq
    exact ha (by simpa using h3) q (by simp [hq])

/-- A pixel of a push has alpha 255 in a 3-channel image (40_pixel_hash_index.md R110). -/
theorem pushedPixel_a {c : Byte} (h : c = 3) (p : Pixel) : (pushedPixel c p).a = 255 := by
  subst h; rfl

/-- A pixel with the image's number of channels survives its bytes. -/
theorem pushedPixel_eq {c : Byte} {p : Pixel} (h : c = 4 ∨ p.a = 255) : pushedPixel c p = p := by
  unfold pushedPixel pixelFromBytes pixelToBytes
  by_cases hc : c = 4
  · simp [hc]
  · have ha : p.a = 255 := h.resolve_left hc
    simp only [if_neg hc]
    ext1 <;> simp [ha]

/-- The bytes of a pushed pixel are those of the pixel. -/
theorem pixelToBytes_pushedPixel (c : Byte) (p : Pixel) : pixelToBytes c (pushedPixel c p) = pixelToBytes c p := by
  unfold pushedPixel pixelFromBytes pixelToBytes
  by_cases hc : c = 4
  · simp [hc]
  · simp only [if_neg hc]; rfl

/-! ### The length of the output (42_chunk_encode.md R174, 45_streaming.md R235) -/

/-- The bytes written so far and the byte the pending run will take. -/
def State.owed (s : State) : Nat := s.out.length + s.cursor + if s.run = 0 then 0 else 1

theorem emit_owed (bytes : List Byte) (s : State) : (emit bytes s).owed = s.owed + bytes.length := by
  unfold State.owed State.cursor emit
  cases s.walker <;> simp <;> omega

theorem owed_congr {s t : State} (h1 : t.out = s.out) (h2 : t.walker = s.walker) (h3 : t.run = s.run) : t.owed = s.owed := by
  simp [State.owed, State.cursor, h1, h2, h3]

/-- Clearing a pending run takes its byte away. -/
theorem owed_clear {s : State} (h : s.run ≠ 0) : { s with run := 0 }.owed + 1 = s.owed := by
  simp [State.owed, State.cursor, h]

theorem flushRun_owed (s : State) : (flushRun s).owed = s.owed := by
  unfold flushRun
  split
  · next h =>
    have h1 := owed_clear (s := emit (encode (.run (BitVec.ofNat 6 (s.run - 1)))) s) (by simp; omega)
    rw [emit_owed] at h1
    simp only [encode, List.length_singleton] at h1 ⊢
    omega
  · rfl

theorem extendRun_owed (s : State) : (extendRun s).owed ≤ s.owed + 1 := by
  unfold extendRun
  split
  · have h1 := owed_clear (s := emit (encode (.run 61)) { s with run := s.run + 1 }) (by simp)
    rw [emit_owed] at h1
    simp only [encode, List.length_singleton] at h1 ⊢
    have : { s with run := s.run + 1 }.owed ≤ s.owed + 1 := by
      simp only [State.owed, State.cursor]; split <;> split <;> omega
    omega
  · simp only [State.owed, State.cursor]; split <;> split <;> omega

/-- One pixel costs at most one byte more than it has channels. -/
theorem encPixel_owed {s : State} {p : Pixel} (hc : s.channels = 4 ∨ (s.channels = 3 ∧ p.a = s.prev.a)) :
    (encPixel p s).owed ≤ s.owed + (s.channels.toNat + 1) := by
  by_cases h : p = s.prev
  · subst h
    rw [encPixel_same]
    have := extendRun_owed { s with pxCount := s.pxCount + 1 }
    have h2 : { s with pxCount := s.pxCount + 1 }.owed = s.owed := rfl
    omega
  · rw [encPixel_new h, owed_congr (s := emit (encode (selectChunk p s)) (flushRun { s with pxCount := s.pxCount + 1 }))
      (by simp) (by simp) (by simp), emit_owed, flushRun_owed]
    have h2 : { s with pxCount := s.pxCount + 1 }.owed = s.owed := rfl
    have h3 := selectChunk_length p s
    rcases hc with hc | ⟨hc, ha⟩
    · rw [h2, hc]; have := h3.2.1; simp; omega
    · rw [h2, hc]; have := h3.2.2 ha; simp; omega

/-- The bound for a sequence of pixels. -/
theorem encPixels_owed {s : State} {ps : List Pixel}
    (hc : s.channels = 4 ∨ (s.channels = 3 ∧ s.prev.a = 255 ∧ ∀ p ∈ ps, p.a = 255)) :
    (encPixels ps s).owed ≤ s.owed + ps.length * (s.channels.toNat + 1) := by
  induction ps generalizing s with
  | nil => simp [encPixels]
  | cons p ps ih =>
    have h1 : (encPixel p s).owed ≤ s.owed + (s.channels.toNat + 1) := by
      refine encPixel_owed (hc.imp id ?_)
      rintro ⟨h1, h2, h3⟩
      exact ⟨h1, by rw [h2]; exact h3 p (by simp)⟩
    have h2 := ih (s := encPixel p s) (by
      rcases hc with h | ⟨h1, h2, h3⟩
      · exact .inl (by simpa using h)
      · exact .inr ⟨by simpa using h1, by rw [encPixel_prev]; exact h3 p (by simp), fun q hq => h3 q (by simp [hq])⟩)
    rw [encPixel_channels] at h2
    rw [encPixels, List.length_cons, Nat.add_mul, Nat.one_mul]
    omega

end Sys2Proof.Machine
end

