-- ==== Sys2Proof/Laws/OneShot.lean ====
section
/-! SUPPORT. The loops of the two one-shot commands: what they read, where they stop, what they leave alone.
-/

namespace Sys2Proof.Machine

/-- The bytes of a pixel make the pixel whose bytes they are (40_pixel_hash_index.md R110, R111). -/
theorem pixelToBytes_pixelFromBytes {c : Byte} (hc : c = 3 ∨ c = 4) {bytes : List Byte} (h : bytes.length = c.toNat) :
    pixelToBytes c (pixelFromBytes c bytes) = bytes := by
  rcases hc with rfl | rfl
  · match bytes, h with
    | [x, y, z], _ => rfl
  · match bytes, h with
    | [x, y, z, w], _ => rfl

theorem pixelFromBytes_a {c : Byte} (h : c = 3) (bytes : List Byte) : (pixelFromBytes c bytes).a = 255 := by
  subst h; rfl

/-- A pixel of the image comes back from its bytes. -/
theorem pixelFromBytes_pixelToBytes {c : Byte} {p : Pixel} (h : c = 4 ∨ p.a = 255) :
    pixelFromBytes c (pixelToBytes c p) = p := pushedPixel_eq h

/-- ENCODE's walk pushes the pixels it reads, or stops at a byte the host has not provided. -/
theorem encodeWalk_spec {n i : Nat} {s : State} (hc : s.channels = 3 ∨ s.channels = 4) :
    (∃ ps : List Pixel, ps.length = n ∧ (s.channels = 3 → ∀ p ∈ ps, p.a = 255) ∧
      s.pix.readBytes (i * s.channels.toNat) (n * s.channels.toNat) = .ok (ps.flatMap (pixelToBytes s.channels)) ∧
      encodeWalk n i s = .next (encPixels ps s)) ∨
    (∃ a, encodeWalk n i s = .fault (.unprovidedByte .pix a) ∧ s.pix.read a = none ∧
      i * s.channels.toNat ≤ a ∧ a < (i + n) * s.channels.toNat) := by
  induction n generalizing i s with
  | zero => exact .inl ⟨[], rfl, by simp, by simp [Memory.readBytes], rfl⟩
  | succ n ih =>
    rw [encodeWalk]
    cases hr : s.pix.readBytes (i * s.channels.toNat) s.channels.toNat with
    | error a =>
      obtain ⟨h1, h2, h3⟩ := Memory.readBytes_error hr
      refine .inr ⟨a, rfl, h1, h2, ?_⟩
      have : (i + 1) * s.channels.toNat ≤ (i + (n + 1)) * s.channels.toNat := Nat.mul_le_mul_right _ (by omega)
      rw [Nat.add_mul, Nat.one_mul] at this
      omega
    | ok bytes =>
      simp only
      obtain ⟨hl, -⟩ := Memory.readBytes_eq_ok.1 hr
      have hb := pixelToBytes_pixelFromBytes hc hl
      rcases ih (i := i + 1) (s := encPixel (pixelFromBytes s.channels bytes) s) (by simpa using hc) with
        ⟨ps, h1, h2, h3, h4⟩ | ⟨a, h1, h2, h3, h4⟩
      · rw [encPixel_channels] at h2 h3
        rw [encPixel_pix] at h3
        refine .inl ⟨pixelFromBytes s.channels bytes :: ps, by simp [h1], ?_, ?_, h4⟩
        · intro h p hp
          rcases List.mem_cons.1 hp with rfl | hp
          · exact pixelFromBytes_a h bytes
          · exact h2 h p hp
        · have hps := length_flatMap_pixelToBytes hc ps
          rw [h1] at hps
          rw [List.flatMap_cons, hb]
          have := Memory.readBytes_append (m := s.pix) (a := i * s.channels.toNat) (v := bytes)
            (w := ps.flatMap (pixelToBytes s.channels)) (by rw [hl]; exact hr)
            (by rw [hl, hps, ← h3]; congr 1; rw [Nat.add_mul, Nat.one_mul])
          rw [List.length_append, hl, hps] at this
          rw [show (n + 1) * s.channels.toNat = s.channels.toNat + n * s.channels.toNat by
            rw [Nat.add_mul, Nat.one_mul, Nat.add_comm]]
          exact this
      · rw [encPixel_channels] at h3 h4
        rw [encPixel_pix] at h2
        refine .inr ⟨a, h1, h2, ?_, ?_⟩
        · have : i * s.channels.toNat ≤ (i + 1) * s.channels.toNat := Nat.mul_le_mul_right _ (by omega)
          omega
        · rw [show i + (n + 1) = i + 1 + n by omega]; exact h4

/-- ENCODE's walk over pixels that are there. -/
theorem encodeWalk_pixels {ps : List Pixel} {i : Nat} {s : State} (hc : s.channels = 3 ∨ s.channels = 4)
    (ha : s.channels = 3 → ∀ p ∈ ps, p.a = 255)
    (hr : s.pix.readBytes (i * s.channels.toNat) (ps.length * s.channels.toNat) =
      .ok (ps.flatMap (pixelToBytes s.channels))) :
    encodeWalk ps.length i s = .next (encPixels ps s) := by
  induction ps generalizing i s with
  | nil => rfl
  | cons p ps ih =>
    have hl := pixelToBytes_length hc p
    have hls := length_flatMap_pixelToBytes hc ps
    have hsplit := Memory.readBytes_split (m := s.pix) (a := i * s.channels.toNat) (v := pixelToBytes s.channels p)
      (w := ps.flatMap (pixelToBytes s.channels)) (by
        rw [List.length_append, hl, hls, ← List.flatMap_cons, ← hr]
        congr 1
        rw [List.length_cons, Nat.add_mul, Nat.one_mul, Nat.add_comm])
    rw [hl, hls] at hsplit
    rw [List.length_cons, encodeWalk, hsplit.1]
    simp only
    have hp : pixelFromBytes s.channels (pixelToBytes s.channels p) = p :=
      pixelFromBytes_pixelToBytes (hc.elim (fun h => .inr (ha h p (by simp))) .inl)
    rw [hp]
    refine ih (by simpa using hc) ?_ ?_
    · intro h q hq
      exact ha (by simpa using h) q (by simp [hq])
    · rw [encPixel_channels, encPixel_pix, Nat.add_mul, Nat.one_mul]
      exact hsplit.2

/-- A relation that every byte and the final `Truncated` respect holds between the ends of DECODE's walk. -/
theorem decodeWalk_induction {R : State → State → Prop} (refl : ∀ s, R s s)
    (trans : ∀ s t u, R s t → R t u → R s u)
    (byte : ∀ b s t, s.stopped = false → decByte b s = .next t → R s t)
    (trunc : ∀ s, s.stopped = false → R s (raise .truncated .none s)) {n ip : Nat} {s t : State}
    (h : decodeWalk n ip s = .next t) : R s t := by
  induction n generalizing ip s with
  | zero =>
    rw [decodeWalk] at h
    split at h
    · cases h; exact refl _
    · next hs => cases h; exact trunc _ (by simpa using hs)
  | succ n ih =>
    rw [decodeWalk] at h
    split at h
    · cases h; exact refl _
    · next hs =>
      split at h
      · cases h
      · split at h
        · next u hu => exact trans s u t (byte _ s u (by simpa using hs) hu) (ih h)
        · cases h
        · cases h

/-- DECODE's walk from a legal open decoder ends stopped, or stops at a byte the host has not provided. -/
theorem State.Running.decodeWalk {s : State} (h : s.Running) (n ip : Nat)
    (hp : (s.phase = .dHeader ∨ s.phase = .dChunks ∨ s.phase = .dTrailer ∨ s.phase = .dDone) ∨ s.phase = .failed) :
    (∃ t, decodeWalk n ip s = .next t ∧ t.Running ∧ Walked s t ∧ t.stopped = true) ∨
      (∃ a, decodeWalk n ip s = .fault (.unprovidedByte .stream a) ∧ s.stream.read a = none ∧ ip ≤ a ∧ a < ip + n) := by
  induction n generalizing ip s with
  | zero =>
    rw [Machine.decodeWalk]
    by_cases hs : s.stopped = true
    · exact .inl ⟨s, by simp [hs], h, .refl s, hs⟩
    · have hp' : s.phase = .dHeader ∨ s.phase = .dChunks ∨ s.phase = .dTrailer := by
        simp [State.stopped] at hs
        rcases hp with (hp | hp | hp | hp) | hp <;> simp_all
      refine .inl ⟨_, by rw [if_neg hs], h.raise _ _ (by simp) (by simp) (.inr hp'), .raise _ _ hp', ?_⟩
      simp [State.stopped]
  | succ n ih =>
    rw [Machine.decodeWalk]
    by_cases hs : s.stopped = true
    · exact .inl ⟨s, by simp [hs], h, .refl s, hs⟩
    · rw [if_neg hs]
      have hs' : s.stopped = false := by simpa using hs
      have hp' : s.phase = .dHeader ∨ s.phase = .dChunks ∨ s.phase = .dTrailer ∨ s.phase = .dDone := by
        rcases hp with hp | hp
        · exact hp
        · simp [State.stopped, hp] at hs
      cases hr : s.stream.read ip with
      | none => exact .inr ⟨ip, rfl, hr, Nat.le_refl _, by omega⟩
      | some b =>
        obtain ⟨t, ht⟩ := h.byte_runs b hs' hp'
        have hw := Walked.byte ht
        simp only [ht]
        rcases ih (h.byte ht) (ip + 1) (hw.isOpen hp') with ⟨u, h1, h2, h3, h4⟩ | ⟨a, h1, h2, h3, h4⟩
        · refine .inl ⟨u, h1, h2, .trans ?_ hw h3, h4⟩
          rcases hp' with h | h | h | h <;> rw [h] <;> simp
        · exact .inr ⟨a, h1, by rw [← h2, hw.stream], by omega, by omega⟩

/-- DECODE's walk ends with the end marker seen or the command failed. -/
theorem decodeWalk_stopped {n ip : Nat} {s t : State} (h : decodeWalk n ip s = .next t) : t.stopped = true := by
  induction n generalizing ip s with
  | zero =>
    rw [decodeWalk] at h
    split at h
    · next hs => cases h; exact hs
    · cases h; simp [State.stopped]
  | succ n ih =>
    rw [decodeWalk] at h
    split at h
    · next hs => cases h; exact hs
    · split at h
      · cases h
      · split at h
        · exact ih h
        · cases h
        · cases h

/-- A state in which a byte is executed is a decoder's. -/
theorem decByte_phase {b : Byte} {s t : State} (h : decByte b s = .next t) :
    s.phase = .dHeader ∨ s.phase = .dChunks ∨ s.phase = .dTrailer := by
  cases decByte_next h <;> simp_all

/-- The frame of DECODE's walk, from any open or failed state. -/
theorem Walked.walk {n ip : Nat} {s t : State}
    (hp : (s.phase = .dHeader ∨ s.phase = .dChunks ∨ s.phase = .dTrailer ∨ s.phase = .dDone) ∨ s.phase = .failed)
    (h : decodeWalk n ip s = .next t) : Walked s t := by
  refine decodeWalk_induction
    (R := fun s t =>
      ((s.phase = .dHeader ∨ s.phase = .dChunks ∨ s.phase = .dTrailer ∨ s.phase = .dDone) ∨ s.phase = .failed) →
        Walked s t ∧
          ((t.phase = .dHeader ∨ t.phase = .dChunks ∨ t.phase = .dTrailer ∨ t.phase = .dDone) ∨ t.phase = .failed))
    (fun s h => ⟨.refl s, h⟩) ?_ ?_ ?_ h hp |>.1
  · intro s t u h1 h2 hs
    obtain ⟨a1, a2⟩ := h1 hs
    obtain ⟨b1, b2⟩ := h2 a2
    exact ⟨a1.trans (by rcases hs with (h | h | h | h) | h <;> rw [h] <;> simp) b1, b2⟩
  · intro b s t _ hb hs
    refine ⟨.byte hb, (Walked.byte hb).isOpen ?_⟩
    rcases decByte_phase hb with h | h | h <;> simp [h]
  · intro s hst hs
    refine ⟨.raise _ _ ?_, .inr rfl⟩
    simp [State.stopped] at hst
    rcases hs with (h | h | h | h) | h <;> simp_all

/-! ### What DECODE stores in `PIX` -/

/-- A pixel due is stored below the end of the image. -/
theorem outPixel_pix_read {s : State} (hc : s.channels = 3 ∨ s.channels = 4) (p : Pixel) {a : Nat}
    (h : (s.pxCount + 1) * s.channels.toNat ≤ a) : (outPixel p s).pix.read a = s.pix.read a := by
  rw [Nat.add_mul, Nat.one_mul] at h
  cases hw : s.walker with
  | byValue => rw [(outPixel_byValue p hw).2]
  | inSpaces op =>
    rw [(outPixel_inSpaces p hw).2]
    refine Memory.read_writeBytes_outside _ _ _ _ (.inr ?_)
    rw [pixelToBytes_length hc]; exact h

theorem outPixels_pix_read {s : State} (hc : s.channels = 3 ∨ s.channels = 4) (n : Nat) (p : Pixel) {a : Nat}
    (h : (s.pxCount + n) * s.channels.toNat ≤ a) : (outPixels n p s).pix.read a = s.pix.read a := by
  induction n generalizing s with
  | zero => rfl
  | succ n ih =>
    have h1 : (s.pxCount + 1) * s.channels.toNat ≤ (s.pxCount + (n + 1)) * s.channels.toNat :=
      Nat.mul_le_mul_right _ (by omega)
    rw [outPixels, ih (by simpa using hc), outPixel_pix_read hc p (by omega)]
    rw [outPixel_channels, outPixel_pxCount, show s.pxCount + 1 + n = s.pxCount + (n + 1) by omega]
    exact h

/-- A byte given to a legal open decoder stores nothing at or beyond the end of the image, and before the header is
accepted it stores nothing at all. -/
theorem byte_pix_read {b : Byte} {s t : State} (hs : s.Running) (hb : decByte b s = .next t) {a : Nat}
    (h : s.hdrValid = true → s.total * s.channels.toNat ≤ a) : t.pix.read a = s.pix.read a := by
  cases decByte_next hb with
  | headerDone hp hl w ht c cs hd =>
    by_cases ha : acceptedFields s.cfg w ht c cs
    · rw [acceptHeader_accepted (s := { s with facc := [] }) (by simp [hp]) ha]
    · rw [acceptHeader_rejected (s := { s with facc := [] }) ha]; rfl
  | chunkDone hp hl i hd hi u he =>
    obtain ⟨-, hv, hlt, hsh⟩ := exec_chunk_next hi he
    have hc : ({ s with carry := [] } : State).channels = 3 ∨ ({ s with carry := [] } : State).channels = 4 :=
      hs.channels hv
    have hv' : s.hdrValid = true := hv
    have hlt' : s.pxCount < s.total := hlt
    rw [endChunk_pix]
    rcases hsh with ⟨p, rfl⟩ | ⟨n, hn1, hn2, hn3, rfl⟩
    · refine outPixel_pix_read (s := writeBack _ { s with carry := [] }) hc _ ?_
      exact Nat.le_trans (Nat.mul_le_mul_right _ hlt') (h hv')
    · have hn3' : n ≤ s.total - s.pxCount := hn3
      refine outPixels_pix_read hc _ _ ?_
      exact Nat.le_trans (Nat.mul_le_mul_right _ (show s.pxCount + n ≤ s.total by omega)) (h hv')
  | _ => rfl

/-- DECODE's walk stores nothing at or beyond the end of the image. -/
theorem State.Running.decodeWalk_pix {s t : State} (h : s.Running) (hv : s.hdrValid = true) {n ip : Nat}
    (hp : (s.phase = .dChunks ∨ s.phase = .dTrailer ∨ s.phase = .dDone) ∨ s.phase = .failed)
    (hw : Machine.decodeWalk n ip s = .next t) {a : Nat} (ha : s.total * s.channels.toNat ≤ a) :
    t.pix.read a = s.pix.read a := by
  refine decodeWalk_induction
    (R := fun s t => s.Running → s.hdrValid = true →
      ((s.phase = .dChunks ∨ s.phase = .dTrailer ∨ s.phase = .dDone) ∨ s.phase = .failed) →
      s.total * s.channels.toNat ≤ a →
      t.pix.read a = s.pix.read a ∧ t.Running ∧ t.hdrValid = true ∧
        ((t.phase = .dChunks ∨ t.phase = .dTrailer ∨ t.phase = .dDone) ∨ t.phase = .failed) ∧
        t.total * t.channels.toNat ≤ a)
    (fun s h1 h2 h3 h4 => ⟨rfl, h1, h2, h3, h4⟩) ?_ ?_ ?_ hw h hv hp ha |>.1
  · intro s t u h1 h2 a1 a2 a3 a4
    obtain ⟨b1, b2, b3, b4, b5⟩ := h1 a1 a2 a3 a4
    obtain ⟨c1, c2⟩ := h2 b2 b3 b4 b5
    exact ⟨c1.trans b1, c2⟩
  · intro b s t hs hb a1 a2 a3 a4
    have hw := Walked.byte hb
    have hph : s.phase ≠ .dHeader := by rcases a3 with (h | h | h) | h <;> rw [h] <;> simp
    obtain ⟨e1, -, -, e4, -, e6, -⟩ := hw.header hph
    refine ⟨byte_pix_read a1 hb fun _ => a4, a1.byte hb, e1.trans a2, ?_, by rw [e4, e6]; exact a4⟩
    have := hw.phase
    rcases a3 with (h | h | h) | h <;> rw [h] at this <;> cases ht : t.phase <;> simp_all [Phase.reaches]
  · intro s hs a1 a2 a3 a4
    have hp' : s.phase = .dChunks ∨ s.phase = .dTrailer := by
      simp [State.stopped] at hs
      rcases a3 with (h | h | h) | h <;> simp_all
    exact ⟨rfl, a1.raise _ _ (by simp) (by simp) (.inr (.inr hp')), a2, .inr rfl, a4⟩

end Sys2Proof.Machine
end

