-- ==== Sys2Proof/Laws/EncMap.lean ====
section
/-! SUPPORT. When a change of the state's other fields passes through the encoder: it is enough that it passes through the
emission of bytes. The changes that matter: output already gathered, output stored in STREAM in the place of output by value,
and another shape or colour space of the image.
-/

namespace Sys2Proof.Machine

/-- A change of a state that passes through the encoder, for the states in `P`. -/
structure EncPasses (P : State → Prop) (f : State → State) : Prop where
  prev : ∀ s, (f s).prev = s.prev
  run : ∀ s, (f s).run = s.run
  index : ∀ s, (f s).index = s.index
  pxCount : ∀ s, (f s).pxCount = s.pxCount
  setRun : ∀ s n, f { s with run := n } = { f s with run := n }
  setCount : ∀ s n, f { s with pxCount := n } = { f s with pxCount := n }
  back : ∀ s p, f (writeBack p s) = writeBack p (f s)
  emit : ∀ s bytes, P s → f (emit bytes s) = emit bytes (f s)
  keepRun : ∀ s n, P s → P { s with run := n }
  keepCount : ∀ s n, P s → P { s with pxCount := n }
  keepBack : ∀ s p, P s → P (writeBack p s)
  keepEmit : ∀ s bytes, P s → P (Machine.emit bytes s)

variable {P : State → Prop} {f : State → State}

theorem EncPasses.flushRun (h : EncPasses P f) {s : State} (hs : P s) :
    f (flushRun s) = flushRun (f s) ∧ P (flushRun s) := by
  unfold Machine.flushRun
  rw [h.run]
  split
  · exact ⟨by rw [h.setRun, h.emit s _ hs], h.keepRun _ _ (h.keepEmit s _ hs)⟩
  · exact ⟨rfl, hs⟩

theorem EncPasses.extendRun (h : EncPasses P f) {s : State} (hs : P s) :
    f (extendRun s) = extendRun (f s) ∧ P (extendRun s) := by
  have h1 := h.keepRun s (s.run + 1) hs
  unfold Machine.extendRun
  rw [h.run]
  split
  · exact ⟨by rw [h.setRun, h.emit _ _ h1, h.setRun], h.keepRun _ _ (h.keepEmit _ _ h1)⟩
  · exact ⟨h.setRun s _, h1⟩

/-- The change passes through one pixel. -/
theorem EncPasses.pixel (h : EncPasses P f) (p : Pixel) {s : State} (hs : P s) :
    f (encPixel p s) = encPixel p (f s) ∧ P (encPixel p s) := by
  have h1 := h.keepCount s (s.pxCount + 1) hs
  have hc : f { s with pxCount := s.pxCount + 1 } = { f s with pxCount := (f s).pxCount + 1 } := by
    rw [h.setCount, h.pxCount]
  by_cases hp : p = s.prev
  · have e1 : encPixel p s = Machine.extendRun { s with pxCount := s.pxCount + 1 } := by rw [hp, encPixel_same]
    have e2 : encPixel p (f s) = Machine.extendRun { f s with pxCount := (f s).pxCount + 1 } := by
      rw [hp, ← h.prev s, encPixel_same]
    obtain ⟨h2, h3⟩ := h.extendRun h1
    rw [e1, e2, ← hc]
    exact ⟨h2, h3⟩
  · have hp' : p ≠ (f s).prev := by rw [h.prev]; exact hp
    obtain ⟨h2, h3⟩ := h.flushRun h1
    have h4 : selectChunk p (f s) = selectChunk p s := by
      unfold selectChunk
      rw [h.prev, indexGet_congr (h.index s)]
    rw [encPixel_new hp, encPixel_new hp', h4, ← hc, ← h2, h.back, h.emit _ _ h3]
    exact ⟨rfl, h.keepBack _ _ (h.keepEmit _ _ h3)⟩

/-- The change passes through a sequence of pixels. -/
theorem EncPasses.pixels (h : EncPasses P f) (ps : List Pixel) {s : State} (hs : P s) :
    f (encPixels ps s) = encPixels ps (f s) ∧ P (encPixels ps s) := by
  induction ps generalizing s with
  | nil => exact ⟨rfl, hs⟩
  | cons p ps ih =>
    obtain ⟨h1, h2⟩ := h.pixel p hs
    obtain ⟨h3, h4⟩ := ih h2
    exact ⟨by rw [encPixels, h3, h1]; rfl, h4⟩

/-- Earlier output passes through the encoder untouched. -/
theorem encPasses_withOutput (o : List Byte) (ev : Option Header) (r : Option Result) :
    EncPasses (fun _ => True) (State.withOutput o ev r) where
  prev := fun _ => rfl
  run := fun _ => rfl
  index := fun _ => rfl
  pxCount := fun _ => rfl
  setRun := fun _ _ => rfl
  setCount := fun _ _ => rfl
  back := fun _ _ => rfl
  emit := fun s bytes _ => by unfold Machine.emit; cases hw : s.walker <;> simp [State.withOutput, hw]
  keepRun := fun _ _ _ => trivial
  keepCount := fun _ _ _ => trivial
  keepBack := fun _ _ _ => trivial
  keepEmit := fun _ _ _ => trivial

/-- The end of the image passes too. -/
theorem finishImage_withOutput (o : List Byte) (ev : Option Header) (r : Option Result) (s : State) :
    finishImage (s.withOutput o ev r) = (finishImage s).withOutput o ev r := by
  have h := encPasses_withOutput o ev r
  unfold finishImage
  rw [← (h.flushRun (s := s) trivial).1, ← h.emit _ _ trivial]
  rfl

/-- The shape of the image and its colour space pass through the encoder untouched (42_chunk_encode.md R178). -/
theorem encPasses_shape (w h : Dim) (cs : Byte) :
    EncPasses (fun _ => True) (fun s => { s with width := w, height := h, colorspace := cs }) where
  prev := fun _ => rfl
  run := fun _ => rfl
  index := fun _ => rfl
  pxCount := fun _ => rfl
  setRun := fun _ _ => rfl
  setCount := fun _ _ => rfl
  back := fun _ _ => rfl
  emit := fun s bytes _ => by unfold Machine.emit; cases s.walker <;> simp
  keepRun := fun _ _ _ => trivial
  keepCount := fun _ _ _ => trivial
  keepBack := fun _ _ _ => trivial
  keepEmit := fun _ _ _ => trivial

/-- A streaming command's output, stored in STREAM from 0 after the bytes `o`, as ENCODE stores it. -/
def State.inStream (m : Memory) (o : List Byte) (s : State) : State :=
  { s with walker := .inSpaces (o ++ s.out).length, stream := m.writeBytes 0 (o ++ s.out), out := [] }

/-- ENCODE stores what the streaming encoder returns (44_oneshot.md R214). -/
theorem encPasses_inStream (m : Memory) (o : List Byte) :
    EncPasses (fun s => s.walker = .byValue) (State.inStream m o) where
  prev := fun _ => rfl
  run := fun _ => rfl
  index := fun _ => rfl
  pxCount := fun _ => rfl
  setRun := fun _ _ => rfl
  setCount := fun _ _ => rfl
  back := fun _ _ => rfl
  emit := fun s bytes hs => by
    have h2 : Machine.emit bytes (s.inStream m o) = _ := emit_inSpaces (s := s.inStream m o) rfl bytes
    rw [emit_byValue hs, h2]
    simp only [State.inStream, ← List.append_assoc, List.length_append, Memory.writeBytes_append m 0 (o ++ s.out) bytes,
      Nat.zero_add]
  keepRun := fun _ _ h => h
  keepCount := fun _ _ h => h
  keepBack := fun _ _ h => h
  keepEmit := fun s bytes h => by rw [emit_byValue h]; exact h

theorem finishImage_inStream (m : Memory) (o : List Byte) {s : State} (hs : s.walker = .byValue) :
    finishImage (s.inStream m o) = (finishImage s).inStream m o := by
  have h := encPasses_inStream m o
  unfold finishImage
  rw [← (h.flushRun hs).1, ← h.emit _ _ (h.flushRun hs).2]
  rfl

/-- The end of the image in a streaming command. -/
theorem finishImage_byValue {s : State} (h : s.walker = .byValue) :
    (finishImage s).walker = .byValue ∧ (finishImage s).stream = s.stream := by
  have h1 := flushRun_byValue h
  unfold finishImage
  rw [emit_byValue h1.1]
  exact h1

end Sys2Proof.Machine
end

