-- ==== Sys2Proof/Laws/PerInstr.lean ====
section
/-! SUPPORT. Per-instruction families: one lemma for each record.
-/

namespace Sys2Proof.Laws

/-- The length of a record in its encoding (30_encoding.md R83, R88): what `chunkLen` says of a chunk's first byte,
14 for a header, 8 for the end marker. -/
def EncodeLength.Statement (i : Instr) : Prop :=
  i.encodable = true →
    (encode i).length =
      match i.context with
      | .header => headerLen
      | .chunk => chunkLen ((encode i).headD 0)
      | .trailer => endLen

theorem EncodeLength.header (w h : Dim) (c cs : Byte) : EncodeLength.Statement (.header w h c cs) := fun _ => rfl

theorem EncodeLength.index (slot : Slot) : EncodeLength.Statement (.index slot) := by
  revert slot; unfold EncodeLength.Statement; decide

theorem EncodeLength.diff (fr fg fb : BitVec 2) : EncodeLength.Statement (.diff fr fg fb) := by
  revert fr fg fb; unfold EncodeLength.Statement; decide

theorem EncodeLength.luma (fg6 : BitVec 6) (frg fbg : BitVec 4) : EncodeLength.Statement (.luma fg6 frg fbg) := by
  have h : ∀ f : BitVec 6, chunkLen (0b10#2 ++ f) = 2 := by decide
  exact fun _ => (h fg6).symm

theorem EncodeLength.run (runm1 : BitVec 6) : EncodeLength.Statement (.run runm1) := by
  revert runm1; unfold EncodeLength.Statement; decide

theorem EncodeLength.rgb (r g b : Byte) : EncodeLength.Statement (.rgb r g b) := fun _ => rfl

theorem EncodeLength.rgba (r g b a : Byte) : EncodeLength.Statement (.rgba r g b a) := fun _ => rfl

theorem EncodeLength.endMarker : EncodeLength.Statement .endMarker := fun _ => rfl

end Sys2Proof.Laws
end

