-- ==== Sys2Proof/Laws/PixMap.lean ====
section
/-! SUPPORT. DECODE stores in `PIX` what the streaming decoder returns: output stored in the place of output by value passes
through the decoder.
-/

namespace Sys2Proof.Machine

/-- A streaming command's pixels, stored in `PIX` from 0, as DECODE stores them. -/
def State.inPix (m : Memory) (s : State) : State :=
  { s with walker := .inSpaces 0, pix := m.writeBytes 0 s.out, out := [] }

/-- A legal streaming decoder whose output so far is all its pixels. -/
structure State.AllOut (s : State) : Prop where
  running : s.Running
  walker : s.walker = .byValue
  length : s.out.length = s.pxCount * s.channels.toNat

theorem outPixel_inPix (m : Memory) (p : Pixel) {s : State} (hw : s.walker = .byValue)
    (hl : s.out.length = s.pxCount * s.channels.toNat) : outPixel p (s.inPix m) = (outPixel p s).inPix m := by
  have h1 : outPixel p s = { s with out := s.out ++ pixelToBytes s.channels p, pxCount := s.pxCount + 1 } := by
    simp [outPixel, hw]
  rw [h1]
  simp only [outPixel, State.inPix, Memory.writeBytes_append, Nat.zero_add, hl]

theorem outPixel_length {s : State} (hc : s.channels = 3 ∨ s.channels = 4) (p : Pixel) (hw : s.walker = .byValue)
    (hl : s.out.length = s.pxCount * s.channels.toNat) :
    (outPixel p s).out.length = (outPixel p s).pxCount * (outPixel p s).channels.toNat := by
  rw [(outPixel_byValue p hw).1, List.length_append, hl, pixelToBytes_length hc, outPixel_pxCount, outPixel_channels,
    Nat.add_mul, Nat.one_mul]

theorem outPixels_inPix (m : Memory) (n : Nat) (p : Pixel) {s : State} (hc : s.channels = 3 ∨ s.channels = 4)
    (hw : s.walker = .byValue) (hl : s.out.length = s.pxCount * s.channels.toNat) :
    outPixels n p (s.inPix m) = (outPixels n p s).inPix m := by
  induction n generalizing s with
  | zero => rfl
  | succ n ih =>
    rw [outPixels, outPixel_inPix m p hw hl, ih (by simpa using hc) (by simpa using hw) (outPixel_length hc p hw hl)]
    rfl

theorem outPixels_length {s : State} (hc : s.channels = 3 ∨ s.channels = 4) (n : Nat) (p : Pixel)
    (hw : s.walker = .byValue) (hl : s.out.length = s.pxCount * s.channels.toNat) :
    (outPixels n p s).out.length = (outPixels n p s).pxCount * (outPixels n p s).channels.toNat := by
  induction n generalizing s with
  | zero => exact hl
  | succ n ih => exact ih (by simpa using hc) (by simpa using hw) (outPixel_length hc p hw hl)

/-- One byte keeps it. -/
theorem State.AllOut.byte {b : Byte} {s t : State} (h : s.AllOut) (hb : decByte b s = .next t) : t.AllOut := by
  refine ⟨h.running.byte hb, (Walked.byte hb).walker.trans h.walker, ?_⟩
  have hi := h.running.phase
  cases decByte_next hb with
  | headerDone hp hl w ht c cs hd =>
    simp only [State.phaseInv, hp] at hi
    have h0 : s.pxCount = 0 := hi.2.1.2.2.2
    have h1 : s.out = [] := List.length_eq_zero_iff.1 (by rw [h.length, h0, Nat.zero_mul])
    by_cases ha : acceptedFields s.cfg w ht c cs
    · rw [acceptHeader_accepted (s := { s with facc := [] }) (by simp [hp]) ha]
      simp [h0, h1]
    · rw [acceptHeader_rejected (s := { s with facc := [] }) ha]
      exact h.length
  | chunkDone hp hl i hd hi u he =>
    obtain ⟨-, hv, -, hsh⟩ := exec_chunk_next hi he
    have hc := h.running.channels hv
    have key : u.out.length = u.pxCount * u.channels.toNat := by
      rcases hsh with ⟨p, rfl⟩ | ⟨n, -, -, -, rfl⟩
      · exact outPixel_length (s := writeBack _ { s with carry := [] }) hc _ h.walker h.length
      · exact outPixels_length (s := { s with carry := [] }) hc n _ h.walker h.length
    simpa using key
  | _ => exact h.length

/-- DECODE's output passes through the decoder (44_oneshot.md R220). -/
theorem passes_inPix (m : Memory) : Passes State.AllOut (State.inPix m) where
  phase := fun _ => rfl
  carry := fun _ => rfl
  facc := fun _ => rfl
  buffers := fun _ _ _ => rfl
  keepFacc := fun s h => ⟨h.running.emptyFacc, h.walker, h.length⟩
  keepCarry := fun s h => ⟨h.running.emptyCarry, h.walker, h.length⟩
  raise := fun _ _ _ => rfl
  chunkEnd := fun s => by
    by_cases h : s.pxCount = s.total
    · rw [endChunk, if_pos h, endChunk, if_pos (show (s.inPix m).pxCount = (s.inPix m).total from h)]
      rfl
    · rw [endChunk, if_neg h, endChunk, if_neg (show (s.inPix m).pxCount ≠ (s.inPix m).total from h)]
  exec := fun i s h => by
    have g := fun t => guardChunk_map (State.inPix m) (s := s) rfl rfl rfl rfl t
    have stuck : s.hdrValid = false → ∀ t u, guardChunk (s.inPix m) t = mapNext (State.inPix m) (guardChunk s u) := by
      intro hv t u
      simp only [guardChunk, readingHeader, State.inPix, hv]
      split <;> rfl
    have one : ∀ p, guardChunk (s.inPix m) (deliver p (s.inPix m)) = mapNext (State.inPix m) (guardChunk s (deliver p s)) :=
      fun p => (congrArg (guardChunk _)
        (outPixel_inPix m (alphaFix s p) (s := writeBack (alphaFix s p) s) h.walker h.length)).trans (g _)
    cases i with
    | header w ht c cs =>
      simp only [Machine.exec, execHeader]
      by_cases hp : s.phase = .dHeader
      · rw [if_pos hp, if_pos (show (s.inPix m).phase = .dHeader from hp)]
        by_cases ha : acceptedFields s.cfg w ht c cs
        · rw [acceptHeader_accepted (s := s.inPix m) (by simp [State.inPix, hp]) ha,
            acceptHeader_accepted (by simp [hp]) ha]
          rfl
        · rw [acceptHeader_rejected (s := s.inPix m) ha, acceptHeader_rejected ha]
          rfl
      · rw [if_neg hp, if_neg (show (s.inPix m).phase ≠ .dHeader from hp)]
        rfl
    | endMarker =>
      simp only [Machine.exec, execEndMarker]
      by_cases hp : s.phase = .dTrailer
      · rw [if_pos hp, if_pos (show (s.inPix m).phase = .dTrailer from hp)]
        rfl
      · rw [if_neg hp, if_neg (show (s.inPix m).phase ≠ .dTrailer from hp)]
        rfl
    | run k =>
      by_cases hv : s.hdrValid = true
      · exact (congrArg (guardChunk _) (outPixels_inPix m _ _ (h.running.channels hv) h.walker h.length)).trans (g _)
      · exact stuck (by simpa using hv) _ _
    | index _ => exact one _
    | diff _ _ _ => exact one _
    | luma _ _ _ => exact one _
    | rgb _ _ _ => exact one _
    | rgba _ _ _ _ => exact one _
  keep := fun _ _ _ h hb => h.byte hb

end Sys2Proof.Machine
end

