-- ==== Sys2Proof/Tests/Slice0.lean ====
section
/-! SUPPORT. The model's own tests: ill-formed records refused, one decoding of each record from a word written out from its
encoding, one or two executions of each record, and for each statement of the obligations a concrete state and operands
that meet its hypotheses. Expected results come from spec/95_test_vectors.md (V<n>) or by hand from the rule named.
-/

namespace Sys2Proof.Tests

open Sys2Proof.Machine

/-! ### The smoke tests of WellFormed -/

/-- 30_encoding.md R91: RUN fields 62 and 63 have no encoding. -/
theorem test_run_62_refused : (Instr.run 62).wf = false ∧ (Instr.run 62).encodable = false := by decide
theorem test_run_63_refused : (Instr.run 63).wf = false ∧ (Instr.run 63).encodable = false := by decide
/-- 30_encoding.md R92: five channels, colorspace 2. -/
theorem test_five_channels_refused : (Instr.header 1 1 5 0).wf = false := by decide
theorem test_colorspace_two_refused : (Instr.header 1 1 4 2).wf = false := by decide
theorem test_legal_records_accepted : (Instr.header 1 1 3 1).wf = true ∧ (Instr.run 61).wf = true := by decide

/-! ### The smoke tests of Decode: each record from its bits (30_encoding.md R81) -/

/-- V1: the header of the single-pixel image. -/
theorem test_decode_header :
    decode .header [0x71, 0x6F, 0x69, 0x66, 0, 0, 0, 1, 0, 0, 0, 1, 4, 0] = .ok (.header 1 1 4 0, []) := rfl
/-- `00ssssss`, slot 17 (V50). -/
theorem test_decode_index : decode .chunk [0b00010001] = .ok (.index 17, []) := rfl
/-- `01rrggbb`: V4, (dr, dg, db) = (+1, -1, -2). -/
theorem test_decode_diff : decode .chunk [0b01110100] = .ok (.diff 3 1 0, []) := rfl
/-- `10gggggg rrrrbbbb`: V6, dg = 20, dr - dg = 5, db - dg = -3. -/
theorem test_decode_luma : decode .chunk [0b10110100, 0b11010101] = .ok (.luma 52 13 5, []) := rfl
/-- `11xxxxxx`: V43, the longest run. -/
theorem test_decode_run : decode .chunk [0b11111101] = .ok (.run 61, []) := rfl
/-- `11111110` and three bytes (V50). -/
theorem test_decode_rgb : decode .chunk [0b11111110, 1, 2, 3] = .ok (.rgb 1 2 3, []) := rfl
/-- `11111111` and four bytes (V50). -/
theorem test_decode_rgba : decode .chunk [0b11111111, 1, 2, 3, 4] = .ok (.rgba 1 2 3 4, []) := rfl
/-- The end marker. -/
theorem test_decode_end : decode .trailer [0, 0, 0, 0, 0, 0, 0, 1] = .ok (.endMarker, []) := rfl
/-- V60, V64: a wrong magic and a wrong marker, and a LUMA cut short. -/
theorem test_decode_rejects :
    decode .header [0x51, 0x6F, 0x69, 0x66, 0, 0, 0, 1, 0, 0, 0, 1, 4, 0] = .error .badMagic ∧
    decode .trailer [0, 0, 0, 0, 0, 0, 0, 0] = .error .badEndMarker ∧ decode .chunk [0x80] = .error .short :=
  ⟨rfl, rfl, rfl⟩
/-- The host's numbering: the second byte of a word is bits 15..8. -/
theorem test_table_words :
    decodeTableWord 16 0xD5B4 = some (.luma 52 13 5) ∧ decodeTableWord 64 (2 ^ 56) = some .endMarker := ⟨rfl, rfl⟩

/-! ### States for the tests -/

/-- The next state of an outcome. -/
def after (o : Host.Outcome State Fault Refusal) : State :=
  match o with
  | .next t => t
  | .fault _ => State.reset
  | .refused _ => State.reset

/-- A state inside a 2 by 2 image: phase, channels, pixels counted, and the commands issued. -/
def inImage (p : Phase) (c : Byte) (px : Nat) (cmds : List Command) : State :=
  { State.reset with
    phase := p, hdrValid := true, width := 2, height := 2, channels := c, total := 4, pxCount := px, cmds := cmds }

/-- A state with no header. -/
def noHeader (p : Phase) (cmds : List Command) : State := { State.reset with phase := p, cmds := cmds }

/-- The stream of V1. -/
def v1Stream : List Byte :=
  [0x71, 0x6F, 0x69, 0x66, 0, 0, 0, 1, 0, 0, 0, 1, 4, 0, 0xC0, 0, 0, 0, 0, 0, 0, 0, 1]

/-- The start state of V50: the previous pixel (100,100,100,255) in its slot 17. -/
def v50 : State :=
  { inImage .dChunks 4 0 [] with
    prev := ⟨100, 100, 100, 255⟩
    index := State.reset.index.set 17 ⟨100, 100, 100, 255⟩ }

/-- The start state of V20 to V36: the same on the encoder's side. -/
def v20 : State := { v50 with phase := .eBody }

theorem defaults_legal : Config.defaults.legal = true := by decide
theorem two_ne_zero : (2 : Dim) ≠ 0 := by decide

/-- A state whose pixels are those of reset meets the invariant if its other parts do. -/
theorem inv_of_reset_pixels {s : State} (hc : s.cfg.legal = true) (hs : s.pix.wf ∧ s.stream.wf)
    (hh : s.hdrValid = true → s.headerLegal) (hp : s.phaseInv) (h1 : s.prev = resetPixel)
    (h2 : s.index = Vector.replicate 64 zeroPixel) (he : s.errInv) (hb : s.betweenCommands) : s.Inv := by
  have hz : ∀ k : Slot, s.indexGet k = zeroPixel := fun k => by simp [State.indexGet, h2]
  exact ⟨hc, hs, hh, hp, fun k => .inl (hz k), .inl h1, fun _ _ _ => ⟨by rw [h1]; rfl, fun k => .inl (hz k)⟩, he, hb⟩

theorem inImage_header {p : Phase} {c : Byte} {px : Nat} {cmds : List Command} (hc : c = 3 ∨ c = 4) :
    (inImage p c px cmds).headerLegal :=
  ⟨⟨hc, .inl rfl, .inr ⟨two_ne_zero, two_ne_zero⟩, by show 2 * 2 ≤ 400000000; omega⟩, rfl⟩

theorem inImage_inv {p : Phase} {c : Byte} {px : Nat} (cmds : List Command) (hc : c = 3 ∨ c = 4)
    (hp : (p = .eBody ∧ px ≤ 4) ∨ (p = .dChunks ∧ px < 4) ∨ ((p = .dTrailer ∨ p = .dDone ∨ p = .eDone) ∧ px = 4)) :
    (inImage p c px cmds).Inv := by
  refine inv_of_reset_pixels defaults_legal ⟨List.Pairwise.nil, List.Pairwise.nil⟩ (fun _ => inImage_header hc) ?_ rfl rfl
    ?_ ⟨rfl, rfl, rfl⟩
  · rcases hp with ⟨rfl, h⟩ | ⟨rfl, h⟩ | ⟨rfl | rfl | rfl, rfl⟩ <;> simp_all [State.phaseInv, inImage, State.reset]
  · rcases hp with ⟨rfl, h⟩ | ⟨rfl, h⟩ | ⟨rfl | rfl | rfl, rfl⟩ <;> simp [State.errInv, inImage, State.reset]

theorem idle_inv (cmds : List Command) {pix stream : Memory} (hp : pix.wf) (hs : stream.wf) :
    { noHeader .idle cmds with pix := pix, stream := stream }.Inv :=
  inv_of_reset_pixels defaults_legal ⟨hp, hs⟩ (fun h => by cases h)
    (by simp [State.phaseInv, State.fresh, noHeader, State.reset]) rfl rfl
    (by simp [State.errInv, noHeader, State.reset]) ⟨rfl, rfl, rfl⟩

theorem dHeader_inv (cmds : List Command) : (noHeader .dHeader cmds).Inv :=
  inv_of_reset_pixels defaults_legal ⟨List.Pairwise.nil, List.Pairwise.nil⟩ (fun h => by cases h)
    (by simp [State.phaseInv, State.fresh, noHeader, State.reset]) rfl rfl
    (by simp [State.errInv, noHeader, State.reset]) ⟨rfl, rfl, rfl⟩

/-- The registers of `inImage` make a chunk ready. -/
theorem inImage_ready {c : Byte} {px : Nat} {cmds : List Command} (hc : c = 3 ∨ c = 4) (hp : px < 4) :
    (inImage .dChunks c px cmds).chunkReady := ⟨rfl, rfl, hp, hc⟩

theorem v50_ready : v50.chunkReady := ⟨rfl, rfl, by decide, .inr rfl⟩

/-! ### One or two executions of each record -/

/-- V2's header, accepted (43_framer.md R195, 45_streaming.md R241). -/
theorem test_header :
    (after (exec (.header 2 1 3 0) (noHeader .dHeader []))).total = 2 ∧
    (after (exec (.header 2 1 3 0) (noHeader .dHeader []))).phase = .dChunks := by decide
/-- V61: 20001 by 20000 is past the limit. -/
theorem test_header_overflow :
    (after (exec (.header 20001 20000 3 0) (noHeader .dHeader []))).err = ⟨.dimensionsOverflow, .none⟩ := by decide
/-- V50: `11`. -/
theorem test_index : (after (exec (.index 17) v50)).prev = ⟨100, 100, 100, 255⟩ := by decide
/-- V53: an unwritten slot gives (0,0,0,0) and evicts what stood in slot 0. -/
theorem test_index_evicts :
    (after (exec (.index 5) (after (exec (.rgba 0 0 0 128) (inImage .dChunks 4 0 []))))).indexGet 0 = zeroPixel := by
  decide
/-- V50: `74`. -/
theorem test_diff :
    (after (exec (.diff 3 1 0) v50)).prev = ⟨101, 99, 98, 255⟩ ∧
    (after (exec (.diff 3 1 0) v50)).indexGet 1 = ⟨101, 99, 98, 255⟩ := by decide
/-- V51: `40` wraps and leaves alpha. -/
theorem test_diff_wraps :
    (after (exec (.diff 0 0 0) { v50 with prev := ⟨0, 1, 2, 7⟩ })).prev = ⟨254, 255, 0, 7⟩ := by decide
/-- V50: `B4 D5`. -/
theorem test_luma : (after (exec (.luma 52 13 5) v50)).prev = ⟨125, 120, 117, 255⟩ := by decide
/-- V51: `80 00` wraps. -/
theorem test_luma_wraps :
    (after (exec (.luma 0 0 0) { v50 with prev := ⟨10, 10, 10, 255⟩ })).prev = ⟨226, 234, 226, 255⟩ := by decide
/-- V55: two repeats of the reset pixel; the index is untouched. -/
theorem test_run :
    (after (exec (.run 1) (inImage .dChunks 4 0 []))).out = [0, 0, 0, 255, 0, 0, 0, 255] ∧
    (after (exec (.run 1) (inImage .dChunks 4 0 []))).indexGet 53 = zeroPixel := by decide
/-- V56: a run is clamped to the pixels still due. -/
theorem test_run_clamped : (after (exec (.run 61) (inImage .dChunks 3 2 []))).out = [0, 0, 0, 0, 0, 0] := by decide
/-- V50: `FE 01 02 03`. -/
theorem test_rgb : (after (exec (.rgb 1 2 3) v50)).prev = ⟨1, 2, 3, 255⟩ := by decide
/-- V50: `FF 01 02 03 04`, slot 14. -/
theorem test_rgba : (after (exec (.rgba 1 2 3 4) v50)).indexGet 14 = ⟨1, 2, 3, 4⟩ := by decide
/-- V54: under `force255` a 3-channel stream's RGBA goes to slot 23. -/
theorem test_rgba_forced :
    (after (exec (.rgba 1 2 3 4) (inImage .dChunks 3 0 []))).indexGet 23 = ⟨1, 2, 3, 255⟩ := by decide
/-- 45_streaming.md R243. -/
theorem test_end : (after (exec .endMarker (inImage .dTrailer 4 4 []))).phase = .dDone := by decide

/-! ### Whole commands, from the vectors -/

/-- V2: ENC_PUSH of two equal pixels, then ENC_FINISH, in the 3-channel image. -/
theorem test_encoder_s2 :
    (after (step { noHeader .idle [.encBegin 2 1 3 0] with cmds := [.encBegin 2 1 3 0] })).reply =
      some (.bytes [0x71, 0x6F, 0x69, 0x66, 0, 0, 0, 2, 0, 0, 0, 1, 3, 0]) ∧
    (after (step (inImage .eBody 3 2 [.encPush [⟨127, 127, 127, 0⟩, ⟨127, 127, 127, 9⟩]]))).reply =
      some (.bytes [0xFE, 0x7F, 0x7F, 0x7F]) ∧
    (after (step { inImage .eBody 3 4 [.encFinish] with run := 1 })).reply =
      some (.bytes [0xC0, 0, 0, 0, 0, 0, 0, 0, 1]) := by decide
/-- V20, V24, V27, V36: DIFF, LUMA, RGB and RGBA at the edges of their ranges. -/
theorem test_selection :
    (encPixel ⟨98, 98, 98, 255⟩ v20).out = [0x40] ∧ (encPixel ⟨100, 97, 100, 255⟩ v20).out = [0x9D, 0xBB] ∧
    (encPixel ⟨67, 67, 67, 255⟩ v20).out = [0xFE, 0x43, 0x43, 0x43] ∧
    (encPixel ⟨101, 100, 100, 254⟩ v20).out = [0xFF, 0x65, 0x64, 0x64, 0xFE] := by decide
/-- V70: the capacity bound of ENCODE for a 2 by 1 image of 3 channels is 30. -/
theorem test_encode_capacity :
    worstCase 2 3 = 30 ∧
    (after (step (noHeader .idle [.encode 2 1 3 0 6 29]))).reply = some (.error .outputBufferTooSmall .none) := by decide
/-- The host's view of a row: after reset and `withFetchWord`, the step runs the LUMA word. -/
theorem test_fetch_luma :
    (after (step (State.reset.withFetchWord 16 0xD5B4))).prev = ⟨25, 20, 17, 255⟩ := by decide

/-! ### Witnesses: the encoding and the hash -/

theorem witness_DecodeOfEncodeIsIdentity :
    (Instr.run 61).encodable = true ∧ (Instr.header 0 0 9 9).encodable = true ∧ Instr.endMarker.encodable = true := by
  decide
theorem witness_EncodeOfDecodeIsIdentity :
    decode .chunk [0xFD, 7] = .ok (.run 61, [7]) ∧
    decode .trailer [0, 0, 0, 0, 0, 0, 0, 1, 7] = .ok (.endMarker, [7]) := ⟨rfl, rfl⟩
/-- Both ends of every range, and what the first byte decodes to there (R84). -/
theorem witness_FirstByteMapCoversEveryByte :
    (0x00 : Byte).toNat ≤ 0x3F ∧ decode .chunk [0x3F, 1, 2, 3, 4] = .ok (.index 63, [1, 2, 3, 4]) ∧
    decode .chunk [0x40, 1, 2, 3, 4] = .ok (.diff 0 0 0, [1, 2, 3, 4]) ∧
    decode .chunk [0x7F, 1, 2, 3, 4] = .ok (.diff 3 3 3, [1, 2, 3, 4]) ∧
    decode .chunk [0x80, 0x12, 2, 3, 4] = .ok (.luma 0 1 2, [2, 3, 4]) ∧
    decode .chunk [0xBF, 0x12, 2, 3, 4] = .ok (.luma 63 1 2, [2, 3, 4]) ∧
    decode .chunk [0xC0, 1, 2, 3, 4] = .ok (.run 0, [1, 2, 3, 4]) ∧
    decode .chunk [0xFD, 1, 2, 3, 4] = .ok (.run 61, [1, 2, 3, 4]) ∧
    (0xFE : Byte).toNat = 0xFE ∧ (0xFF : Byte).toNat = 0xFF := ⟨by decide, rfl, rfl, rfl, rfl, rfl, rfl, rfl, rfl, rfl⟩
/-- Exactly enough bytes and one byte too few (R83). -/
theorem witness_ChunkLengthIsFunctionOfFirstByte :
    5 ≤ ([0xFF, 1, 2, 3, 4] : List Byte).length ∧ ([0xFF, 1, 2, 3] : List Byte).length < 5 ∧
    2 ≤ ([0x80, 1] : List Byte).length ∧ ([0x80] : List Byte).length < 2 := by decide
theorem witness_HeaderFieldsAreBigEndian :
    ([0x71, 0x6F, 0x69, 0x66] : List Byte) = [0x71, 0x6F, 0x69, 0x66] ∧
    ([0x51, 0x6F, 0x69, 0x66] : List Byte) ≠ [0x71, 0x6F, 0x69, 0x66] := by decide

/-! ### Witnesses: the records -/

/-- The hypothesis `chunkReady` of the six chunks, with 3 and with 4 channels, at the first and the last pixel. -/
theorem witness_chunkReady :
    (inImage .dChunks 3 0 []).chunkReady ∧ (inImage .dChunks 4 3 []).chunkReady :=
  ⟨inImage_ready (.inl rfl) (by decide), inImage_ready (.inr rfl) (by decide)⟩
theorem witness_IndexChunkGivesTheSlotsPixel : v50.chunkReady := v50_ready
theorem witness_DiffChunkAddsItsDeltas : v50.chunkReady := v50_ready
theorem witness_LumaChunkAddsItsDeltas : v50.chunkReady := v50_ready
theorem witness_RgbChunkIsLiteral : v50.chunkReady := v50_ready
theorem witness_RgbaChunkIsLiteral : v50.chunkReady := v50_ready
/-- By value and in DECODE's shape, with the longest run. -/
theorem witness_RunChunkRepeatsThePreviousPixel :
    v50.chunkReady ∧ (61 : BitVec 6).toNat ≤ 61 ∧ v50.walker = .byValue ∧
    { v50 with walker := .inSpaces 0 }.chunkReady ∧ { v50 with walker := .inSpaces 0 }.walker = .inSpaces 0 :=
  ⟨v50_ready, by decide, rfl, ⟨rfl, rfl, by decide, .inr rfl⟩, rfl⟩
theorem witness_OnePixelChunkWritesBackAndOutputs :
    v50.chunkReady ∧ (Instr.diff 3 1 0).context = .chunk ∧ (∀ m, Instr.diff 3 1 0 ≠ .run m) ∧ v50.walker = .byValue ∧
    { v50 with walker := .inSpaces 0 }.chunkReady :=
  ⟨v50_ready, rfl, fun _ => nofun, rfl, ⟨rfl, rfl, by decide, .inr rfl⟩⟩
theorem witness_ChunkFrame :
    (Instr.run 3).context = .chunk ∧ exec (.run 3) v50 = .next (after (exec (.run 3) v50)) := ⟨rfl, rfl⟩
theorem witness_RecordsRunInTheirPhaseOnly :
    State.reset.phase ≠ phaseOf (Instr.index 5).context ∧ v50.phase ≠ phaseOf Instr.endMarker.context ∧
    (noHeader .dChunks []).phase = .dChunks ∧ (noHeader .dChunks []).hdrValid = false ∧
    (inImage .dChunks 4 4 []).hdrValid = true ∧ (inImage .dChunks 4 4 []).total ≤ (inImage .dChunks 4 4 []).pxCount := by
  decide
/-- The limit itself, 20000 by 20000 (V61), and a zero dimension where it is accepted (V62). -/
theorem witness_HeaderRecordIsAccepted :
    (∃ s : State, s.phase = .dHeader ∧ ((3 : Byte) = 3 ∨ (3 : Byte) = 4) ∧ ((0 : Byte) = 0 ∨ (0 : Byte) = 1) ∧
      (s.cfg.zeroDimAccept = true ∨ ((20000 : Dim) ≠ 0 ∧ (20000 : Dim) ≠ 0)) ∧
      (20000 : Dim).toNat * (20000 : Dim).toNat ≤ s.cfg.pixelLimit) ∧
    (∃ s : State, s.phase = .dHeader ∧ ((4 : Byte) = 3 ∨ (4 : Byte) = 4) ∧ ((1 : Byte) = 0 ∨ (1 : Byte) = 1) ∧
      (s.cfg.zeroDimAccept = true ∨ ((0 : Dim) ≠ 0 ∧ (5 : Dim) ≠ 0)) ∧
      (0 : Dim).toNat * (5 : Dim).toNat ≤ s.cfg.pixelLimit) :=
  ⟨⟨noHeader .dHeader [], by decide⟩,
    ⟨{ noHeader .dHeader [] with cfg := { Config.defaults with zeroDimAccept := true } }, by decide⟩⟩
/-- One witness for each error: V60, V61. -/
theorem witness_HeaderRecordErrorsInOrder :
    ∃ s : State, s.phase = .dHeader ∧ s.err.kind = .none ∧
      ¬ acceptedFields s.cfg 2 1 5 2 ∧ ¬ acceptedFields s.cfg 2 1 3 2 ∧
      ¬ acceptedFields s.cfg 0 1 3 0 ∧ ¬ acceptedFields s.cfg 20001 20000 3 0 :=
  ⟨noHeader .dHeader [], by unfold acceptedFields; decide⟩
theorem witness_EndRecordEndsTheStream : (inImage .dTrailer 4 4 []).phase = .dTrailer := rfl

/-! ### Witnesses: the decoder's stream -/

/-- One record of each context. -/
theorem witness_StepRunsTheDecodedRecord :
    (∃ s : State, s.phase = phaseOf .header ∧ s.carry = [] ∧ s.facc = [] ∧
      s.cmds = [.decPush (v1Stream.take 14)] ∧ decode .header (v1Stream.take 14) = .ok (.header 1 1 4 0, [])) ∧
    (∃ s : State, s.phase = phaseOf .chunk ∧ s.carry = [] ∧ s.facc = [] ∧
      s.cmds = [.decPush [0xFD]] ∧ decode .chunk [0xFD] = .ok (.run 61, [])) ∧
    (∃ s : State, s.phase = phaseOf .trailer ∧ s.carry = [] ∧ s.facc = [] ∧
      s.cmds = [.decPush (v1Stream.drop 15)] ∧ decode .trailer (v1Stream.drop 15) = .ok (.endMarker, [])) :=
  ⟨⟨noHeader .dHeader [.decPush (v1Stream.take 14)], rfl, rfl, rfl, rfl, rfl⟩,
    ⟨inImage .dChunks 4 3 [.decPush [0xFD]], rfl, rfl, rfl, rfl, rfl⟩,
    ⟨inImage .dTrailer 4 4 [.decPush (v1Stream.drop 15)], rfl, rfl, rfl, rfl, rfl⟩⟩
theorem witness_BadFramingBytesRaise :
    (∃ (s : State) (bytes : List Byte), s.err.kind = .none ∧ s.facc = [] ∧ s.cmds = [.decPush bytes] ∧
      s.phase = .dHeader ∧ bytes.length = 14 ∧ bytes.take 4 ≠ [0x71, 0x6F, 0x69, 0x66]) ∧
    (∃ (s : State) (bytes : List Byte), s.err.kind = .none ∧ s.facc = [] ∧ s.cmds = [.decPush bytes] ∧
      s.phase = .dTrailer ∧ bytes.length = 8 ∧ bytes ≠ [0, 0, 0, 0, 0, 0, 0, 1]) :=
  ⟨⟨noHeader .dHeader [.decPush [0x71, 0x6F, 0x69, 0x67, 0, 0, 0, 1, 0, 0, 0, 1, 4, 0]],
      [0x71, 0x6F, 0x69, 0x67, 0, 0, 0, 1, 0, 0, 0, 1, 4, 0], by decide⟩,
    ⟨inImage .dTrailer 4 4 [.decPush [0, 0, 0, 0, 0, 0, 0, 0]], [0, 0, 0, 0, 0, 0, 0, 0], by decide⟩⟩
/-- A LUMA cut between its bytes, and a header whose cut precedes an error. -/
theorem witness_DecodingIgnoresFragmentation :
    (∃ t, step (inImage .dChunks 4 0 [.decPush ([0x80] ++ [0x88, 0xC0])]) = .next t ∧
      t.reply = some (.pushed none [224, 224, 224, 255, 224, 224, 224, 255] 3)) ∧
    (∃ t, step (noHeader .dHeader [.decPush ([0x71] ++ [0x6F, 0x69, 0x67, 0, 0, 0, 1, 0, 0, 0, 1, 4, 0])]) = .next t ∧
      t.reply = some (.error .malformedHeader .badMagic)) :=
  ⟨⟨_, rfl, by decide⟩, ⟨_, rfl, by decide⟩⟩
/-- V65: bytes after the end marker are not taken, in its push and after it. -/
theorem witness_PushTakesAllBytesUpToTheEndMarker :
    (∃ t, step (inImage .dTrailer 4 4 [.decPush [0, 0, 0, 0, 0, 0, 0, 1, 0xAA, 0xBB]]) = .next t ∧
      t.reply = some (.pushed none [] 8)) ∧
    (inImage .dDone 4 4 [.decPush [0xAA]]).phase = .dDone ∧ (inImage .dDone 4 4 [.decPush [0xAA]]).betweenCommands :=
  ⟨⟨_, rfl, by decide⟩, rfl, rfl, rfl, rfl⟩
theorem witness_DecBeginOpensTheStream :
    (noHeader .idle [.decBegin]).Inv ∧ (noHeader .idle [.decBegin]).phase = .idle ∧
    (inImage .eBody 4 0 [.decBegin]).Inv ∧ (inImage .eBody 4 0 [.decBegin]).phase ≠ .idle :=
  ⟨idle_inv [.decBegin] List.Pairwise.nil List.Pairwise.nil, rfl, inImage_inv _ (.inr rfl) (by simp), by decide⟩
theorem witness_DecFinishVerifiesTheEnd :
    (inImage .dDone 4 4 [.decFinish]).Inv ∧ (inImage .dChunks 4 3 [.decFinish]).Inv ∧
    (noHeader .dHeader [.decFinish]).Inv ∧ (inImage .dTrailer 3 4 [.decFinish]).Inv ∧
    (inImage .eBody 3 4 [.decFinish]).Inv :=
  ⟨inImage_inv _ (.inr rfl) (by simp), inImage_inv _ (.inr rfl) (by simp), dHeader_inv _,
    inImage_inv _ (.inl rfl) (by simp), inImage_inv _ (.inl rfl) (by simp)⟩

/-! ### Witnesses: the encoder -/

theorem witness_EqualPixelExtendsTheRun :
    v20.walker = .byValue ∧ v20.run ≤ 61 ∧ { v20 with run := 61 }.run ≤ 61 := by decide
theorem witness_NewPixelIsStoredAfterTheFlush :
    { v20 with run := 61 }.walker = .byValue ∧ (⟨98, 98, 98, 255⟩ : Pixel) ≠ { v20 with run := 61 }.prev ∧
    { v20 with run := 61 }.run ≤ 61 := by decide
/-- V45: the reset slot 0 is hit by (0,0,0,0). -/
theorem witness_IndexHitIsEmittedAsIndex :
    (inImage .eBody 4 0 []).walker = .byValue ∧ (inImage .eBody 4 0 []).run ≤ 61 ∧
    zeroPixel ≠ (inImage .eBody 4 0 []).prev ∧ (inImage .eBody 4 0 []).indexGet (hash zeroPixel) = zeroPixel := by decide
/-- V20 and V37's wrap: deltas at both ends. -/
theorem witness_SmallDeltasAreEmittedAsDiff :
    (∃ (s : State) (p : Pixel), s.walker = .byValue ∧ s.run ≤ 61 ∧ p ≠ s.prev ∧ s.indexGet (hash p) ≠ p ∧
      p.a = s.prev.a ∧ ((s.prev.r.toNat : Int) + (-2)) % 256 = p.r.toNat ∧
      ((s.prev.g.toNat : Int) + (-2)) % 256 = p.g.toNat ∧ ((s.prev.b.toNat : Int) + (-2)) % 256 = p.b.toNat) ∧
    (∃ (s : State) (p : Pixel), s.walker = .byValue ∧ s.run ≤ 61 ∧ p ≠ s.prev ∧ s.indexGet (hash p) ≠ p ∧
      p.a = s.prev.a ∧ ((s.prev.r.toNat : Int) + 1) % 256 = p.r.toNat ∧
      ((s.prev.g.toNat : Int) + 1) % 256 = p.g.toNat ∧ ((s.prev.b.toNat : Int) + 1) % 256 = p.b.toNat) :=
  ⟨⟨v20, ⟨98, 98, 98, 255⟩, by decide⟩,
    ⟨{ v20 with prev := ⟨255, 255, 255, 255⟩ }, ⟨0, 0, 0, 255⟩, by decide⟩⟩
/-- V24: a green delta of -3. -/
theorem witness_MediumDeltasAreEmittedAsLuma :
    ∃ (s : State) (p : Pixel) (dg drg dbg : Int), s.walker = .byValue ∧ s.run ≤ 61 ∧ p ≠ s.prev ∧
      s.indexGet (hash p) ≠ p ∧ p.a = s.prev.a ∧
      ((s.prev.r.toNat : Int) + (dg + drg)) % 256 = p.r.toNat ∧ ((s.prev.g.toNat : Int) + dg) % 256 = p.g.toNat ∧
      ((s.prev.b.toNat : Int) + (dg + dbg)) % 256 = p.b.toNat ∧
      -32 ≤ dg ∧ dg ≤ 31 ∧ -8 ≤ drg ∧ drg ≤ 7 ∧ -8 ≤ dbg ∧ dbg ≤ 7 ∧
      ¬ (-2 ≤ dg + drg ∧ dg + drg ≤ 1 ∧ -2 ≤ dg ∧ dg ≤ 1 ∧ -2 ≤ dg + dbg ∧ dg + dbg ≤ 1) :=
  ⟨v20, ⟨100, 97, 100, 255⟩, -3, 3, 3, by decide⟩
/-- V27: all deltas -33. -/
theorem witness_LargeDeltasAreEmittedAsRgb :
    v20.walker = .byValue ∧ v20.run ≤ 61 ∧ (⟨67, 67, 67, 255⟩ : Pixel) ≠ v20.prev ∧
    v20.indexGet (hash ⟨67, 67, 67, 255⟩) ≠ ⟨67, 67, 67, 255⟩ ∧ (⟨67, 67, 67, 255⟩ : Pixel).a = v20.prev.a ∧
    (¬ ∃ dr dg db : Int, (v20.prev.r.toNat + dr) % 256 = (67 : Byte).toNat ∧
      (v20.prev.g.toNat + dg) % 256 = (67 : Byte).toNat ∧ (v20.prev.b.toNat + db) % 256 = (67 : Byte).toNat ∧
      -2 ≤ dr ∧ dr ≤ 1 ∧ -2 ≤ dg ∧ dg ≤ 1 ∧ -2 ≤ db ∧ db ≤ 1) ∧
    (¬ ∃ dg drg dbg : Int, (v20.prev.r.toNat + (dg + drg)) % 256 = (67 : Byte).toNat ∧
      (v20.prev.g.toNat + dg) % 256 = (67 : Byte).toNat ∧ (v20.prev.b.toNat + (dg + dbg)) % 256 = (67 : Byte).toNat ∧
      -32 ≤ dg ∧ dg ≤ 31 ∧ -8 ≤ drg ∧ drg ≤ 7 ∧ -8 ≤ dbg ∧ dbg ≤ 7) := by
  have h : v20.prev = ⟨100, 100, 100, 255⟩ := rfl
  refine ⟨by decide, by decide, by decide, by decide, by decide, ?_, ?_⟩
  · rw [h]; rintro ⟨a, b, c, h1, h2, h3, h4⟩; simp at h1 h2; omega
  · rw [h]; rintro ⟨a, b, c, h1, h2, h3, h4⟩; simp at h1 h2; omega
/-- V36. -/
theorem witness_AlphaChangeIsEmittedAsRgba :
    v20.walker = .byValue ∧ v20.run ≤ 61 ∧ v20.indexGet (hash ⟨101, 100, 100, 254⟩) ≠ ⟨101, 100, 100, 254⟩ ∧
    (⟨101, 100, 100, 254⟩ : Pixel).a ≠ v20.prev.a := by decide
theorem witness_ThreeChannelImagesNeverEmitRgba :
    (inImage .eBody 3 0 []).Inv ∧ (inImage .eBody 3 0 []).phase = .eBody ∧ (inImage .eBody 3 0 []).channels = 3 :=
  ⟨inImage_inv _ (.inl rfl) (by simp), rfl, rfl⟩
theorem witness_EncBeginEmitsTheHeader :
    (noHeader .idle [.encBegin 2 1 3 0]).Inv ∧ (noHeader .idle [.encBegin 2 1 3 0]).phase = .idle ∧
    acceptedFields Config.defaults 2 1 3 0 ∧
    (noHeader .idle [.encBegin 0 1 3 0]).Inv ∧ ¬ acceptedFields Config.defaults 0 1 3 0 ∧
    (inImage .eBody 3 0 [.encBegin 2 1 3 0]).Inv ∧ (inImage .eBody 3 0 [.encBegin 2 1 3 0]).phase ≠ .idle :=
  ⟨idle_inv [.encBegin 2 1 3 0] List.Pairwise.nil List.Pairwise.nil, rfl, ⟨.inl rfl, .inl rfl, .inr (by decide), by decide⟩,
    idle_inv [.encBegin 0 1 3 0] List.Pairwise.nil List.Pairwise.nil, by unfold acceptedFields; decide,
    inImage_inv _ (.inl rfl) (by simp), by decide⟩
/-- All pixels given, and one missing. -/
theorem witness_EncFinishFlushesAndEnds :
    (inImage .eBody 3 4 [.encFinish]).Inv ∧ (inImage .eBody 3 4 [.encFinish]).pxCount = 4 ∧
    (inImage .eBody 3 3 [.encFinish]).Inv ∧ (inImage .eBody 3 3 [.encFinish]).pxCount ≠ 4 ∧
    (inImage .eDone 3 4 [.encFinish]).Inv ∧ (inImage .eDone 3 4 [.encFinish]).phase ≠ .eBody :=
  ⟨inImage_inv _ (.inl rfl) (by simp), rfl, inImage_inv _ (.inl rfl) (by simp), by decide,
    inImage_inv _ (.inl rfl) (by simp), by decide⟩
theorem witness_EncodingIgnoresFragmentation :
    (inImage .eBody 4 2 []).phase = .eBody ∧ (inImage .eBody 4 2 []).hdrValid = true ∧
    (inImage .eBody 4 2 []).pxCount + ([resetPixel] ++ [zeroPixel]).length ≤ (inImage .eBody 4 2 []).total := by decide
/-- The last pixel that fits and the first that does not. -/
theorem witness_ExcessPixelsAreRefusedWhole :
    (∃ s : State, s.phase = .eBody ∧ s.hdrValid = true ∧ s.cmds = [.encPush [zeroPixel, zeroPixel]] ∧
      s.total < s.pxCount + [zeroPixel, zeroPixel].length) ∧
    (∃ s : State, s.phase = .eBody ∧ s.hdrValid = true ∧ s.cmds = [.encPush [zeroPixel]] ∧
      s.pxCount + [zeroPixel].length ≤ s.total) :=
  ⟨⟨inImage .eBody 4 3 [.encPush [zeroPixel, zeroPixel]], by decide⟩,
    ⟨inImage .eBody 4 3 [.encPush [zeroPixel]], by decide⟩⟩
theorem witness_PushOutputIsBounded :
    (inImage .eBody 4 3 [.encPush [zeroPixel]]).Inv ∧
    ∃ t, step (inImage .eBody 4 3 [.encPush [zeroPixel]]) = .next t ∧ t.reply = some (.bytes [0]) :=
  ⟨inImage_inv _ (.inr rfl) (by simp), _, rfl, by decide⟩
theorem witness_ColorspaceAndShapePlayNoPart :
    (Instr.index 17).context = .chunk ∧ exec (.index 17) v50 = .next (after (exec (.index 17) v50)) := ⟨rfl, rfl⟩

/-! ### Witnesses: the one-shot commands -/

/-- A machine whose `PIX` holds one pixel and whose `STREAM` holds the stream of V1 (listing `RUN 1`). -/
def oneShot (cmds : List Command) : State :=
  { noHeader .idle cmds with
    pix := [(0, 0), (1, 0), (2, 0), (3, 255)]
    stream := [(0, 0x71), (1, 0x6F), (2, 0x69), (3, 0x66), (4, 0), (5, 0), (6, 0), (7, 1), (8, 0), (9, 0), (10, 0),
      (11, 1), (12, 4), (13, 0), (14, 0xC0), (15, 0), (16, 0), (17, 0), (18, 0), (19, 0), (20, 0), (21, 0), (22, 1)] }

theorem oneShot_inv (cmds : List Command) : (oneShot cmds).Inv := idle_inv cmds (by decide) (by decide)

/-- The three streaming commands of V1, and the one-shot command beside them. -/
theorem witness_EncodeWritesWhatStreamingReturns :
    ∃ s1 s2 s3 : State, (oneShot []).Inv ∧ (oneShot []).phase = .idle ∧
      step { oneShot [] with cmds := [.encBegin 1 1 4 0] } = .next s1 ∧
      s1.reply = some (.bytes [0x71, 0x6F, 0x69, 0x66, 0, 0, 0, 1, 0, 0, 0, 1, 4, 0]) ∧
      step { s1 with cmds := [.encPush [resetPixel]] } = .next s2 ∧ s2.reply = some (.bytes []) ∧
      step { s2 with cmds := [.encFinish] } = .next s3 ∧ s3.reply = some (.bytes [0xC0, 0, 0, 0, 0, 0, 0, 0, 1]) ∧
      (oneShot []).pix.readBytes 0 ([resetPixel].length * (4 : Byte).toNat) =
        .ok ([resetPixel].flatMap (pixelToBytes 4)) ∧
      14 + (1 : Dim).toNat * (1 : Dim).toNat * ((4 : Byte).toNat + 1) + 8 ≤ 27 :=
  ⟨_, _, _, oneShot_inv _, rfl, rfl, by decide, rfl, by decide, rfl, by decide, rfl, by decide⟩
/-- One witness for each clause: a wrong buffer length, channels, colorspace, capacity. -/
theorem witness_EncodeChecksInOrder :
    (∀ cmds, (oneShot cmds).Inv ∧ (oneShot cmds).phase = .idle ∧ (oneShot cmds).cmds = cmds) ∧
    (inImage .eBody 4 0 [.encode 1 1 4 0 4 27]).Inv ∧ (inImage .eBody 4 0 [.encode 1 1 4 0 4 27]).phase ≠ .idle ∧
    3 ≠ (1 : Dim).toNat * (1 : Dim).toNat * (4 : Byte).toNat ∧
    4 = (1 : Dim).toNat * (1 : Dim).toNat * (4 : Byte).toNat ∧
    ¬ acceptedFields (oneShot []).cfg 1 1 5 0 ∧ ¬ acceptedFields (oneShot []).cfg 1 1 4 2 ∧
    acceptedFields (oneShot []).cfg 1 1 4 0 ∧ 26 < 14 + (1 : Dim).toNat * (1 : Dim).toNat * ((4 : Byte).toNat + 1) + 8 :=
  ⟨fun cmds => ⟨oneShot_inv cmds, rfl, rfl⟩, inImage_inv _ (.inr rfl) (by simp), by decide, by decide, by decide,
    by unfold acceptedFields; decide, by unfold acceptedFields; decide,
    ⟨.inr rfl, .inl rfl, .inr (by decide), by decide⟩, by decide⟩
/-- V70's shape: one byte too little capacity, and just enough. -/
theorem witness_EncodeStaysWithinItsCapacity :
    (∃ t, (oneShot [.encode 1 1 4 0 4 26]).Inv ∧ step (oneShot [.encode 1 1 4 0 4 26]) = .next t ∧
      t.reply = some (.error .outputBufferTooSmall .none)) ∧
    (∃ t, (oneShot [.encode 1 1 4 0 4 27]).Inv ∧ step (oneShot [.encode 1 1 4 0 4 27]) = .next t ∧
      t.reply = some (.encoded 23)) :=
  ⟨⟨_, oneShot_inv _, rfl, by decide⟩, ⟨_, oneShot_inv _, rfl, by decide⟩⟩
/-- A machine whose `STREAM` holds fourteen bytes. -/
def headerInStream (bytes : List Byte) (cmds : List Command) : State :=
  { noHeader .idle cmds with stream := (List.range 14).zipWith (fun a b => (a, b)) bytes }
/-- A stream that is too short, a wrong magic, the errors of the fields (V60, V61), and V71's capacity. -/
theorem witness_DecodeChecksInOrder :
    (oneShot [.decode 13 0]).Inv ∧ (oneShot [.decode 13 0]).phase = .idle ∧
    { noHeader .idle [.decode 23 3] with stream := (oneShot []).stream }.Inv ∧
    (oneShot []).stream.readBytes 0 14 = .ok (v1Stream.take 14) ∧
    decode .header (v1Stream.take 14) = .ok (.header 1 1 4 0, []) ∧ acceptedFields Config.defaults 1 1 4 0 ∧
    3 < (1 : Dim).toNat * (1 : Dim).toNat * (4 : Byte).toNat ∧
    (headerInStream [0x51, 0x6F, 0x69, 0x66, 0, 0, 0, 2, 0, 0, 0, 1, 3, 0] [.decode 14 6]).Inv ∧
    (headerInStream [0x51, 0x6F, 0x69, 0x66, 0, 0, 0, 2, 0, 0, 0, 1, 3, 0] []).stream.readBytes 0 14 =
      .ok [0x51, 0x6F, 0x69, 0x66, 0, 0, 0, 2, 0, 0, 0, 1, 3, 0] ∧
    decode .header [0x71, 0x6F, 0x69, 0x66, 0, 0, 0, 2, 0, 0, 0, 1, 5, 0] = .ok (.header 2 1 5 0, []) ∧
    decode .header [0x71, 0x6F, 0x69, 0x66, 0, 0, 0, 2, 0, 0, 0, 1, 3, 2] = .ok (.header 2 1 3 2, []) ∧
    decode .header [0x71, 0x6F, 0x69, 0x66, 0, 0, 0, 0, 0, 0, 0, 1, 3, 0] = .ok (.header 0 1 3 0, []) ∧
    Config.defaults.zeroDimAccept = false ∧
    decode .header [0x71, 0x6F, 0x69, 0x66, 0, 0, 0x4E, 0x21, 0, 0, 0x4E, 0x20, 3, 0] =
      .ok (.header 20001 20000 3 0, []) ∧
    Config.defaults.pixelLimit < (20001 : Dim).toNat * (20000 : Dim).toNat :=
  ⟨oneShot_inv _, rfl, idle_inv _ (by decide) (by decide), rfl, rfl,
    ⟨.inr rfl, .inl rfl, .inr (by decide), by decide⟩, by decide, idle_inv _ (by decide) (by decide), rfl, rfl, rfl, rfl,
    rfl, rfl, by decide⟩
theorem witness_DecodeWritesWhatStreamingReturns :
    ∃ s1 s2 : State, (oneShot []).Inv ∧ (oneShot []).phase = .idle ∧
      (oneShot []).stream.readBytes 0 v1Stream.length = .ok v1Stream ∧
      step { oneShot [] with cmds := [.decBegin] } = .next s1 ∧
      step { s1 with cmds := [.decPush v1Stream] } = .next s2 ∧
      s2.reply = some (.pushed (some ⟨1, 1, 4, 0⟩) [0, 0, 0, 255] 23) ∧ s2.phase = .dDone ∧
      ([0, 0, 0, 255] : List Byte).length ≤ 4 :=
  ⟨_, _, oneShot_inv _, rfl, rfl, rfl, rfl, by decide, by decide, by decide⟩
/-- V63: the stream cut before its last byte, with no error from the push and `Truncated` from DEC_FINISH. -/
theorem witness_DecodeFailsAsStreamingFails :
    ∃ s1 s2 s3 : State, (oneShot []).Inv ∧ (oneShot []).phase = .idle ∧
      (oneShot []).stream.readBytes 0 (v1Stream.take 22).length = .ok (v1Stream.take 22) ∧
      step { oneShot [] with cmds := [.decBegin] } = .next s1 ∧
      step { s1 with cmds := [.decPush (v1Stream.take 22)] } = .next s2 ∧
      step { s2 with cmds := [.decFinish] } = .next s3 ∧ s3.reply = some (.error .truncated .none) ∧
      s2.hdrValid = true ∧ s2.total * s2.channels.toNat ≤ 4 :=
  ⟨_, _, _, oneShot_inv _, rfl, rfl, rfl, rfl, rfl, by decide, by decide, by decide⟩
theorem witness_DecodeStaysWithinItsCapacity :
    (∃ t, (oneShot [.decode 23 4]).Inv ∧ step (oneShot [.decode 23 4]) = .next t ∧
      t.reply = some (.decoded ⟨1, 1, 4, 0⟩ 4)) ∧
    (∃ t, (oneShot [.decode 23 3]).Inv ∧ step (oneShot [.decode 23 3]) = .next t ∧
      t.reply = some (.error .outputBufferTooSmall .none)) :=
  ⟨⟨_, oneShot_inv _, rfl, by decide⟩, ⟨_, oneShot_inv _, rfl, rfl⟩⟩
theorem witness_DecodeOfEncodedImageIsTheImage :
    ∃ s1 s2 s3 d1 d2 : State, (oneShot []).Inv ∧ (oneShot []).phase = .idle ∧
      step { oneShot [] with cmds := [.encBegin 1 1 4 0] } = .next s1 ∧
      s1.reply = some (.bytes (v1Stream.take 14)) ∧
      step { s1 with cmds := [.encPush [resetPixel]] } = .next s2 ∧ s2.reply = some (.bytes []) ∧
      step { s2 with cmds := [.encFinish] } = .next s3 ∧ s3.reply = some (.bytes (v1Stream.drop 14)) ∧
      step { oneShot [] with cmds := [.decBegin] } = .next d1 ∧
      step { d1 with cmds := [.decPush (v1Stream.take 14 ++ [] ++ v1Stream.drop 14)] } = .next d2 :=
  ⟨_, _, _, _, _, oneShot_inv _, rfl, rfl, by decide, rfl, by decide, rfl, by decide, rfl, rfl⟩

/-! ### Witnesses: errors, refusals, reset, the invariant -/

theorem witness_ErrorIsLatchedAndReturned :
    (inImage .dChunks 4 0 [.decFinish]).Inv ∧
    ∃ t, step (inImage .dChunks 4 0 [.decFinish]) = .next t ∧ t.reply = some (.error .truncated .none) :=
  ⟨inImage_inv _ (.inr rfl) (by simp), _, rfl, by decide⟩
theorem witness_RefusedCommandChangesNothing :
    ∃ t, step (inImage .eBody 4 0 [.encFinish]) = .next t ∧ t.reply = some (.refused .pixelCountShort) :=
  ⟨_, rfl, by decide⟩
theorem witness_PhaseDecidesTheLegalCommands :
    (inImage .eBody 4 0 [.decBegin]).Inv ∧ Phase.eBody.accepts .decBegin = false ∧
    (inImage .eBody 4 0 [.encPush []]).Inv ∧ Phase.eBody.accepts (.encPush []) = true ∧
    ∃ t, step (inImage .eBody 4 0 [.encPush []]) = .next t :=
  ⟨inImage_inv _ (.inr rfl) (by simp), rfl, inImage_inv _ (.inr rfl) (by simp), rfl, _, rfl⟩
theorem witness_FailedAndDoneAcceptResetOnly :
    Command.decFinish ≠ .reset ∧ Command.decPush [0xAA] ≠ .reset ∧ Command.encFinish ≠ .reset ∧
    (inImage .failed 4 0 [.decFinish]).phase = .failed ∧ (inImage .eDone 4 4 [.encFinish]).phase = .eDone ∧
    (∀ c, (inImage .dDone 4 4 [c]).phase = .dDone ∧ (inImage .dDone 4 4 [c]).betweenCommands) :=
  ⟨by decide, by decide, by decide, by decide, by decide, fun _ => ⟨rfl, rfl, rfl, rfl⟩⟩
theorem witness_ResetGivesTheResetValues : (inImage .failed 4 0 [.reset]).cmds = [.reset] := rfl
theorem witness_ParametersAreFixed : ∃ t, step (inImage .failed 4 0 [.reset]) = .next t := ⟨_, rfl⟩
theorem witness_PhaseMovesForward :
    Command.decPush [0xC3] ≠ .reset ∧
    ∃ t, step (inImage .dChunks 4 0 [.decPush [0xC3]]) = .next t ∧ t.phase = .dTrailer := ⟨by decide, _, rfl, by decide⟩
theorem witness_HeaderRegistersAreReadOnly :
    (inImage .dChunks 4 0 [.decPush [0xC3]]).Inv ∧ (inImage .dChunks 4 0 [.decPush [0xC3]]).hdrValid = true ∧
    ∃ t, step (inImage .dChunks 4 0 [.decPush [0xC3]]) = .next t := ⟨inImage_inv _ (.inr rfl) (by simp), rfl, _, rfl⟩
/-- A command that leaves the registers valueless and one that fills them. -/
theorem witness_ValuelessHeaderRegistersAreNeverRead :
    (oneShot [.decBegin]).Inv ∧ (oneShot [.decBegin]).hdrValid = false ∧
    (∃ t, step (oneShot [.decBegin]) = .next t ∧ t.hdrValid = false) ∧
    (∃ t, step (oneShot [.decode 23 4]) = .next t ∧ t.hdrValid = true) :=
  ⟨oneShot_inv _, rfl, ⟨_, rfl, by decide⟩, ⟨_, rfl, by decide⟩⟩
theorem witness_PixelCountOnlyIncreases :
    (inImage .dChunks 4 2 [.decPush [0xC3]]).Inv ∧
    ∃ t, step (inImage .dChunks 4 2 [.decPush [0xC3]]) = .next t ∧ t.pxCount = 4 :=
  ⟨inImage_inv _ (.inr rfl) (by simp), _, rfl, by decide⟩
theorem witness_StepKeepsTheInvariant :
    (inImage .dChunks 4 2 [.decPush [0xC3]]).Inv ∧
    ∃ t, step (inImage .dChunks 4 2 [.decPush [0xC3]]) = .next t ∧ t ≠ inImage .dChunks 4 2 [.decPush [0xC3]] :=
  ⟨inImage_inv _ (.inr rfl) (by simp), _, rfl, by decide⟩
/-- A state with a step, and one whose ENCODE reads a byte the host has not provided. -/
theorem witness_LegalStatesNeverStop :
    (oneShot [.decode 23 4]).Inv ∧ (oneShot [.encode 1 2 4 0 8 40]).Inv ∧
    step (oneShot [.encode 1 2 4 0 8 40]) = .fault (.unprovidedByte .pix 4) := ⟨oneShot_inv _, oneShot_inv _, rfl⟩

end Sys2Proof.Tests
end

section
/-! PROOF. What one command can do, case by case, and that a DEC_PUSH of one record is `exec` of that record.
-/

namespace Sys2Proof.Machine

/-! ### The outcome of a command -/

/-- Everything a command that answers can do (00_scope.md R8), with the guards under which it does it. -/
inductive CommandStep (s : State) : Command → State → Prop
  | badPhase {c : Command} (hp : s.phase.accepts c = false) : CommandStep s c (refuse .badPhase s)
  | reset : CommandStep s .reset { resetInstance s with reply := some .nothing }
  | encBeginBad {w h : Dim} {c cs : Byte} {u : State} (hp : s.phase = .idle)
    (hu : checkFields w h c cs (openCommand .byValue s) = u) (hf : u.phase = .failed) :
    CommandStep s (.encBegin w h c cs) (closeFailed u)
  | encBegin {w h : Dim} {c cs : Byte} {u : State} (hp : s.phase = .idle)
    (hu : checkFields w h c cs (openCommand .byValue s) = u) (hf : u.phase ≠ .failed) :
    CommandStep s (.encBegin w h c cs) (closeCommand (.bytes (encode (.header w h c cs))) { u with phase := .eBody })
  | tooManyPixels {pixels : List Pixel} (hp : s.phase = .eBody) (hv : s.hdrValid = true)
    (hn : s.total < s.pxCount + pixels.length) : CommandStep s (.encPush pixels) (refuse .tooManyPixels s)
  | encPush {pixels : List Pixel} {u : State} (hp : s.phase = .eBody) (hv : s.hdrValid = true)
    (hn : s.pxCount + pixels.length ≤ s.total)
    (hu : encPixels (pixels.map (pushedPixel s.channels)) (openCommand .byValue s) = u) :
    CommandStep s (.encPush pixels) (closeCommand (.bytes u.out) u)
  | pixelCountShort (hp : s.phase = .eBody) (hv : s.hdrValid = true) (hn : s.pxCount ≠ s.total) :
    CommandStep s .encFinish (refuse .pixelCountShort s)
  | encFinish {u : State} (hp : s.phase = .eBody) (hv : s.hdrValid = true) (hn : s.pxCount = s.total)
    (hu : finishImage (openCommand .byValue s) = u) : CommandStep s .encFinish (closeCommand (.bytes u.out) u)
  | decBegin (hp : s.phase = .idle) : CommandStep s .decBegin (closeCommand .ok { s with phase := .dHeader })
  | decPushBad {frag : List Byte} {n : Nat} {u : State} (hp : s.phase.accepts (.decPush frag) = true)
    (hu : pushBytes frag 0 (openCommand .byValue s) = .next (n, u)) (hf : u.phase = .failed) :
    CommandStep s (.decPush frag) (closeFailed u)
  | decPush {frag : List Byte} {n : Nat} {u : State} (hp : s.phase.accepts (.decPush frag) = true)
    (hu : pushBytes frag 0 (openCommand .byValue s) = .next (n, u)) (hf : u.phase ≠ .failed) :
    CommandStep s (.decPush frag) (closeCommand (.pushed u.hdrEvent u.out n) u)
  | decFinish (hp : s.phase = .dDone) : CommandStep s .decFinish (closeCommand .ok s)
  | decFinishEarly (hp : s.phase.accepts .decFinish = true) (hd : s.phase ≠ .dDone) :
    CommandStep s .decFinish (closeFailed (raise .truncated .none s))
  | badLength {w h : Dim} {c cs : Byte} {plen cap : Nat} (hp : s.phase = .idle) (hc : c = 3 ∨ c = 4)
    (hl : plen ≠ w.toNat * h.toNat * c.toNat) :
    CommandStep s (.encode w h c cs plen cap) (refuse .badPixelBufferLength s)
  | encodeBad {w h : Dim} {c cs : Byte} {plen cap : Nat} {u : State} (hp : s.phase = .idle)
    (hl : (c = 3 ∨ c = 4) → plen = w.toNat * h.toNat * c.toNat)
    (hu : checkFields w h c cs (openCommand (.inSpaces 0) s) = u) (hf : u.phase = .failed) :
    CommandStep s (.encode w h c cs plen cap) (closeFailed u)
  | encodeSmall {w h : Dim} {c cs : Byte} {plen cap : Nat} {u : State} (hp : s.phase = .idle)
    (hl : (c = 3 ∨ c = 4) → plen = w.toNat * h.toNat * c.toNat)
    (hu : checkFields w h c cs (openCommand (.inSpaces 0) s) = u) (hf : u.phase ≠ .failed)
    (hcap : cap < worstCase u.total c) :
    CommandStep s (.encode w h c cs plen cap) (closeFailed (raise .outputBufferTooSmall .none u))
  | encode {w h : Dim} {c cs : Byte} {plen cap : Nat} {u v : State} (hp : s.phase = .idle)
    (hl : (c = 3 ∨ c = 4) → plen = w.toNat * h.toNat * c.toNat)
    (hu : checkFields w h c cs (openCommand (.inSpaces 0) s) = u) (hf : u.phase ≠ .failed)
    (hcap : worstCase u.total c ≤ cap)
    (hv : encodeWalk u.total 0 (emit (encode (.header w h c cs)) { u with phase := .eBody }) = .next v) :
    CommandStep s (.encode w h c cs plen cap) (closeCommand (.encoded (finishImage v).cursor) (finishImage v))
  | decodeShort {slen cap : Nat} (hp : s.phase = .idle) (hl : slen < headerLen) :
    CommandStep s (.decode slen cap) (failDecode cap (raise .truncated .none s))
  | decodeBadHeader {slen cap : Nat} {hb : List Byte} {u : State} (hp : s.phase = .idle) (hl : headerLen ≤ slen)
    (hr : s.stream.readBytes 0 headerLen = .ok hb)
    (hu : runRecord .header hb { openCommand (.inSpaces 0) s with phase := .dHeader } = .next u)
    (hf : u.phase = .failed) : CommandStep s (.decode slen cap) (failDecode cap u)
  | decodeSmall {slen cap : Nat} {hb : List Byte} {u : State} (hp : s.phase = .idle) (hl : headerLen ≤ slen)
    (hr : s.stream.readBytes 0 headerLen = .ok hb)
    (hu : runRecord .header hb { openCommand (.inSpaces 0) s with phase := .dHeader } = .next u)
    (hf : u.phase ≠ .failed) (hcap : cap < u.total * u.channels.toNat) :
    CommandStep s (.decode slen cap) (failDecode cap (raise .outputBufferTooSmall .none u))
  | decodeBadBody {slen cap : Nat} {hb : List Byte} {u v : State} (hp : s.phase = .idle) (hl : headerLen ≤ slen)
    (hr : s.stream.readBytes 0 headerLen = .ok hb)
    (hu : runRecord .header hb { openCommand (.inSpaces 0) s with phase := .dHeader } = .next u)
    (hf : u.phase ≠ .failed) (hcap : u.total * u.channels.toNat ≤ cap)
    (hv : decodeWalk (slen - headerLen) headerLen u = .next v) (hvf : v.phase = .failed) :
    CommandStep s (.decode slen cap) (failDecode cap v)
  | decode {slen cap : Nat} {hb : List Byte} {u v : State} (hp : s.phase = .idle) (hl : headerLen ≤ slen)
    (hr : s.stream.readBytes 0 headerLen = .ok hb)
    (hu : runRecord .header hb { openCommand (.inSpaces 0) s with phase := .dHeader } = .next u)
    (hf : u.phase ≠ .failed) (hcap : u.total * u.channels.toNat ≤ cap)
    (hv : decodeWalk (slen - headerLen) headerLen u = .next v) (hvf : v.phase ≠ .failed) :
    CommandStep s (.decode slen cap)
      (closeCommand (.decoded ⟨v.width, v.height, v.channels, v.colorspace⟩ (v.total * v.channels.toNat)) v)

theorem cmdEncBegin_next {w h : Dim} {c cs : Byte} {s t : State} (ht : cmdEncBegin w h c cs s = .next t) :
    CommandStep s (.encBegin w h c cs) t := by
  simp only [cmdEncBegin] at ht
  split at ht
  · next hp => cases ht; exact .badPhase (by simp [Phase.accepts, hp])
  next hp =>
  split at ht
  · next hf => cases ht; exact .encBeginBad (not_not.1 hp) rfl hf
  · next hf => cases ht; exact .encBegin (not_not.1 hp) rfl hf

theorem cmdEncPush_next {pixels : List Pixel} {s t : State} (ht : cmdEncPush pixels s = .next t) :
    CommandStep s (.encPush pixels) t := by
  simp only [cmdEncPush] at ht
  split at ht
  · next hp => cases ht; exact .badPhase (by simp [Phase.accepts, hp])
  next hp =>
  obtain ⟨hv, ht⟩ := readingHeader_next ht
  split at ht
  · next hn => cases ht; exact .tooManyPixels (not_not.1 hp) hv hn
  · next hn => cases ht; exact .encPush (not_not.1 hp) hv (Nat.le_of_not_lt hn) rfl

theorem cmdEncFinish_next {s t : State} (ht : cmdEncFinish s = .next t) : CommandStep s .encFinish t := by
  simp only [cmdEncFinish] at ht
  split at ht
  · next hp => cases ht; exact .badPhase (by simp [Phase.accepts, hp])
  next hp =>
  obtain ⟨hv, ht⟩ := readingHeader_next ht
  split at ht
  · next hn => cases ht; exact .pixelCountShort (not_not.1 hp) hv hn
  · next hn => cases ht; exact .encFinish (not_not.1 hp) hv (not_not.1 hn) rfl

theorem cmdDecBegin_next {s t : State} (ht : cmdDecBegin s = .next t) : CommandStep s .decBegin t := by
  simp only [cmdDecBegin] at ht
  split at ht
  · next hp => cases ht; exact .badPhase (by simp [Phase.accepts, hp])
  · next hp => cases ht; exact .decBegin (not_not.1 hp)

theorem cmdDecPush_next {frag : List Byte} {s t : State} (ht : cmdDecPush frag s = .next t) :
    CommandStep s (.decPush frag) t := by
  simp only [cmdDecPush] at ht
  split at ht
  · next hp => cases ht; exact .badPhase hp
  next hp =>
  have hp := Bool.eq_true_of_not_eq_false hp
  split at ht
  · next n u hu =>
    split at ht
    · next hf => cases ht; exact .decPushBad hp hu hf
    · next hf => cases ht; exact .decPush hp hu hf
  · cases ht
  · cases ht

theorem cmdDecFinish_next {s t : State} (ht : cmdDecFinish s = .next t) : CommandStep s .decFinish t := by
  simp only [cmdDecFinish] at ht
  split at ht
  · next hd => cases ht; exact .decFinish hd
  next hd =>
  split at ht
  · next hp => cases ht; exact .decFinishEarly hp hd
  · next hp => cases ht; exact .badPhase (Bool.eq_false_of_not_eq_true hp)

theorem cmdEncode_next {w h : Dim} {c cs : Byte} {plen cap : Nat} {s t : State}
    (ht : cmdEncode w h c cs plen cap s = .next t) : CommandStep s (.encode w h c cs plen cap) t := by
  simp only [cmdEncode] at ht
  split at ht
  · next hp => cases ht; exact .badPhase (by simp [Phase.accepts, hp])
  next hp =>
  have hp := not_not.1 hp
  split at ht
  · next hl => cases ht; exact .badLength hp hl.1 hl.2
  next hl =>
  have hl : (c = 3 ∨ c = 4) → plen = w.toNat * h.toNat * c.toNat := fun hc => by_contra fun hne => hl ⟨hc, hne⟩
  split at ht
  · next hf => cases ht; exact .encodeBad hp hl rfl hf
  next hf =>
  simp only [encodeBody] at ht
  split at ht
  · next hcap => cases ht; exact .encodeSmall hp hl rfl hf hcap
  next hcap =>
  split at ht
  · next hv => cases ht; exact .encode hp hl rfl hf (Nat.le_of_not_lt hcap) hv
  · cases ht
  · cases ht

theorem cmdDecode_next {slen cap : Nat} {s t : State} (ht : cmdDecode slen cap s = .next t) :
    CommandStep s (.decode slen cap) t := by
  simp only [cmdDecode] at ht
  split at ht
  · next hp => cases ht; exact .badPhase (by simp [Phase.accepts, hp])
  next hp =>
  have hp := not_not.1 hp
  split at ht
  · next hl => cases ht; exact .decodeShort hp hl
  next hl =>
  have hl := Nat.le_of_not_lt hl
  split at ht
  · cases ht
  next hr =>
  split at ht
  case h_2 => cases ht
  case h_3 => cases ht
  next hu =>
  split at ht
  · next hf => cases ht; exact .decodeBadHeader hp hl hr hu hf
  next hf =>
  simp only [decodeBody] at ht
  split at ht
  · next hcap => cases ht; exact .decodeSmall hp hl hr hu hf hcap
  next hcap =>
  have hcap := Nat.le_of_not_lt hcap
  split at ht
  · next hv =>
    split at ht
    · next hvf => cases ht; exact .decodeBadBody hp hl hr hu hf hcap hv hvf
    · next hvf => cases ht; exact .decode hp hl hr hu hf hcap hv hvf
  · cases ht
  · cases ht

/-- Whatever a command does is one of the cases. -/
theorem command_next {c : Command} {s t : State} (ht : command c s = .next t) : CommandStep s c t := by
  cases c with
  | reset => cases ht; exact .reset
  | encBegin w h c cs => exact cmdEncBegin_next ht
  | encPush pixels => exact cmdEncPush_next ht
  | encFinish => exact cmdEncFinish_next ht
  | decBegin => exact cmdDecBegin_next ht
  | decPush frag => exact cmdDecPush_next ht
  | decFinish => exact cmdDecFinish_next ht
  | encode w h c cs plen cap => exact cmdEncode_next ht
  | decode slen cap => exact cmdDecode_next ht

/-- Whatever a step does: it holds the state, or performs the oldest command. -/
theorem step_next {s t : State} (ht : step s = .next t) :
    (s.cmds = [] ∧ t = s) ∨ ∃ c rest, s.cmds = c :: rest ∧ CommandStep { s with cmds := rest } c t := by
  cases hc : s.cmds with
  | nil => rw [step_nil hc] at ht; cases ht; exact .inl ⟨rfl, rfl⟩
  | cons c rest => rw [step_cons hc] at ht; exact .inr ⟨c, rest, rfl, command_next ht⟩

/-! ### The parameters (00_scope.md R9) -/

/-- The frame of a header record. -/
theorem Walked.headerRecord {bytes : List Byte} {s t : State} (hl : bytes.length = headerLen) (hp : s.phase = .dHeader)
    (ht : runRecord .header bytes s = .next t) : Walked s t := by
  rcases decodeHeader_of_length hl with ⟨w, h, c, cs, hd⟩ | hd
  · have hr : runRecord .header bytes s = .next (Machine.acceptHeader w h c cs s) := by
      simp [runRecord, decode, hd, exec, execHeader, hp]
    cases hr.symm.trans ht
    exact .acceptHeader w h c cs hp
  · have hr : runRecord .header bytes s = .next (Machine.raise .malformedHeader .badMagic s) := by
      simp [runRecord, decode, hd]
    cases hr.symm.trans ht
    exact .raise _ _ (.inl hp)

/-- The frame of the header record that DECODE reads. -/
theorem Walked.decodeHeader {hb : List Byte} {s u : State} (hr : s.stream.readBytes 0 headerLen = .ok hb)
    (hu : runRecord .header hb { openCommand (.inSpaces 0) s with phase := .dHeader } = .next u) :
    Walked { openCommand (.inSpaces 0) s with phase := .dHeader } u :=
  .headerRecord (Memory.readBytes_eq_ok.1 hr).1 rfl hu

theorem pushBytes_cfg {bs : List Byte} {k n : Nat} {s t : State} (ht : pushBytes bs k s = .next (n, t)) :
    t.cfg = s.cfg :=
  pushBytes_induction (R := fun s t => t.cfg = s.cfg) (fun _ => rfl) (fun _ _ _ h1 h2 => h2.trans h1)
    (fun _ _ _ _ hb => (Walked.byte hb).cfg) ht

theorem decodeWalk_cfg {n ip : Nat} {s t : State} (ht : decodeWalk n ip s = .next t) : t.cfg = s.cfg :=
  decodeWalk_induction (R := fun s t => t.cfg = s.cfg) (fun _ => rfl) (fun _ _ _ h1 h2 => h2.trans h1)
    (fun _ _ _ _ hb => (Walked.byte hb).cfg) (fun _ _ => rfl) ht

theorem encodeWalk_cfg {n i : Nat} {s t : State} (ht : encodeWalk n i s = .next t) : t.cfg = s.cfg := by
  induction n generalizing i s with
  | zero => cases ht; rfl
  | succ n ih =>
    rw [encodeWalk] at ht
    split at ht
    · cases ht
    · exact (ih ht).trans (encPixel_cfg _ _)

theorem CommandStep.cfg {c : Command} {s t : State} (h : CommandStep s c t) : t.cfg = s.cfg := by
  cases h with
  | badPhase | reset | tooManyPixels | pixelCountShort | decBegin | decFinish | decFinishEarly | badLength
  | decodeShort => rfl
  | encBeginBad _ hu | encBegin _ hu | encodeBad _ _ hu | encodeSmall _ _ hu | encPush _ _ _ hu | encFinish _ _ _ hu =>
    simp [← hu]
  | decPushBad _ hu | decPush _ hu => simp [pushBytes_cfg hu]
  | encode _ _ hu _ _ hv => simp [encodeWalk_cfg hv, ← hu]
  | decodeBadHeader _ _ hr hu | decodeSmall _ _ hr hu => exact (Walked.decodeHeader hr hu).cfg
  | decodeBadBody _ _ hr hu _ _ hv | decode _ _ hr hu _ _ hv =>
    exact (decodeWalk_cfg hv).trans (Walked.decodeHeader hr hu).cfg

/-- Settles O53: no command writes the parameters, whichever of its cases it takes. -/
theorem parametersAreFixed : Obligations.ParametersAreFixed := by
  intro s t ht
  rcases step_next ht with ⟨-, rfl⟩ | ⟨c, rest, -, hs⟩
  · rfl
  · exact hs.cfg

/-! ### A push of one record (45_streaming.md R240 to R243) -/

/-- The phase of a record is one in which DEC_PUSH is legal. -/
theorem phaseOf_open (ctx : Context) :
    phaseOf ctx = .dHeader ∨ phaseOf ctx = .dChunks ∨ phaseOf ctx = .dTrailer ∨ phaseOf ctx = .dDone := by
  cases ctx <;> simp [phaseOf]

/-- DEC_PUSH returns the latched error or what its walk gathered, and nothing of the command is left. -/
theorem pushResult_next (k : Nat) (u : State) :
    pushResult (.next (k, u)) =
      .next
        { u with
          out := []
          hdrEvent := none
          walker := .byValue
          reply :=
            if u.phase = .failed then some (.error u.err.kind u.err.sub) else some (.pushed u.hdrEvent u.out k) } := by
  by_cases hf : u.phase = .failed
  · simp only [pushResult, if_pos hf]; rfl
  · simp only [pushResult, if_neg hf]; rfl

/-- Settles O20: the bytes of the record gather and run as `exec` of it, and DEC_PUSH returns what that left. -/
theorem stepRunsTheDecodedRecord : Obligations.StepRunsTheDecodedRecord := by
  intro s ctx bytes i rest hp hcarry hfacc hcmds hd
  have hopen := phaseOf_open ctx
  rw [← hp] at hopen
  rw [step_cons hcmds, command, cmdDecPush_open (s := { s with cmds := rest }) hopen,
    pushBytes_record (s := openCommand .byValue { s with cmds := rest }) hp hcarry hfacc hd, openCommand]
  cases exec i { s with cmds := rest, out := [], hdrEvent := none, walker := .byValue } with
  | fault f => rfl
  | refused r => rfl
  | next t =>
    have hend : (if ctx = .chunk then endChunk t else t) =
        if ctx = .chunk ∧ t.pxCount = t.total then { t with phase := .dTrailer } else t := by
      rw [endChunk, ite_and]
    simp only [hend, pushResult_next]

end Sys2Proof.Machine
end

section
/-! PROOF. The invariant of the states between commands: it holds at power-on, and every command keeps it.
-/

namespace Sys2Proof.Machine

/-! ### Parts of the invariant -/

/-- A clear latch outside FAILED. -/
theorem errInv_of_clear {s : State} (he : s.err = ⟨.none, .none⟩) (hp : s.phase ≠ .failed) : s.errInv := by
  simp [State.errInv, he, hp]

/-- What holds before a stream is begun. -/
theorem State.Running.idle {s : State} (h : s.Running) (hp : s.phase = .idle) :
    s.hdrValid = false ∧ s.fresh ∧ s.carry = [] ∧ s.facc = [] := by
  simpa only [State.phaseInv, hp] using h.phase

/-- What holds while an image is encoded. -/
theorem State.Running.body {s : State} (h : s.Running) (hp : s.phase = .eBody) :
    s.hdrValid = true ∧ s.pxCount ≤ s.total ∧ s.run ≤ 61 ∧ s.carry = [] ∧ s.facc = [] := by
  simpa only [State.phaseInv, hp] using h.phase

/-- With the reset pixels in place, what is said of pixels holds. -/
theorem State.Running.of_fresh {s : State} (hc : s.cfg.legal = true) (hm : s.pix.wf ∧ s.stream.wf)
    (hh : s.hdrValid = true → s.headerLegal) (hp : s.phaseInv) (hfr : s.fresh) (he : s.errInv) : s.Running :=
  have ⟨hslots, hstored, halpha⟩ := hfr.pixels
  ⟨hc, hm, hh, hp, hslots, hstored, halpha, he⟩

/-! ### Power-on, RESET and refusals -/

/-- The reset values meet the invariant under any legal parameters and over any canonical spaces (10_state.md R41). -/
theorem inv_of_resetValues {s : State} (hc : s.cfg.legal = true) (hm : s.pix.wf ∧ s.stream.wf) (hp : s.phase = .idle)
    (hv : s.hdrValid = false) (hfr : s.fresh) (he : s.err = ⟨.none, .none⟩) (hb : s.carry = [] ∧ s.facc = [])
    (hw : s.betweenCommands) : s.Inv := by
  refine (State.Running.of_fresh hc hm (by simp [hv]) ?_ hfr (errInv_of_clear he (by simp [hp]))).inv hw
  simpa only [State.phaseInv, hp] using ⟨hv, hfr, hb⟩

/-- RESET puts the reset values back (70_reset_and_hazards.md R290). -/
theorem State.Inv.reset {s : State} (h : s.Inv) : { resetInstance s with reply := some .nothing }.Inv :=
  inv_of_resetValues h.config h.spaces rfl rfl ⟨rfl, rfl, rfl, rfl⟩ rfl ⟨rfl, rfl⟩ ⟨rfl, rfl, rfl⟩

/-- Settles O58: the reset values, the default parameters and two empty spaces. -/
theorem resetMeetsTheInvariant : Obligations.ResetMeetsTheInvariant :=
  inv_of_resetValues (by decide) ⟨.nil, .nil⟩ rfl rfl ⟨rfl, rfl, rfl, rfl⟩ rfl ⟨rfl, rfl⟩ ⟨rfl, rfl, rfl⟩

/-- Settles O52: the step is `resetInstance`, field by field. -/
theorem resetGivesTheResetValues : Obligations.ResetGivesTheResetValues := by
  intro s rest hcmds
  refine ⟨_, step_cons hcmds, rfl, rfl, fun k => ?_, rfl, rfl, rfl, rfl, rfl, rfl, rfl, rfl, rfl, rfl, rfl, rfl⟩
  exact Vector.getElem_replicate k.isLt

/-- A refusal changes the reply alone (60_exceptions.md R272). -/
theorem State.Inv.refuse {s : State} (h : s.Inv) (r : RefuseReason) : (refuse r s).Inv :=
  (h.running.own s.cmds _ s.out s.hdrEvent s.walker s.freeCount).inv h.between

/-! ### Opening a stream -/

theorem State.Running.openCommand {s : State} (h : s.Running) (w : Walker) : (openCommand w s).Running :=
  h.own s.cmds s.reply [] none w s.freeCount

section
variable {s : State} {w ht : Dim} {c cs : Byte}

/-- The field checks fail on illegal fields, and on no others. -/
theorem checkFields_failed_iff (hp : s.phase = .idle) :
    (checkFields w ht c cs s).phase = .failed ↔ ¬ acceptedFields s.cfg w ht c cs := by
  by_cases ha : acceptedFields s.cfg w ht c cs
  · simp [checkFields_accepted ha, ha, hp]
  · simp [checkFields_rejected ha, ha]

theorem accepted_of_checkFields (hp : s.phase = .idle) (hf : (checkFields w ht c cs s).phase ≠ .failed) :
    acceptedFields s.cfg w ht c cs :=
  not_not.1 (mt (checkFields_failed_iff hp).2 hf)

/-- The decoder waits for a header (45_streaming.md R238). -/
theorem State.Running.beginHeader (h : s.Running) (hp : s.phase = .idle) : { s with phase := .dHeader }.Running := by
  obtain ⟨hv, hfr, hc, hf⟩ := h.idle hp
  exact .of_fresh h.config h.spaces h.header ⟨hv, hfr, hc, by simp [hf]⟩ hfr
    (errInv_of_clear (h.noErr (by simp [hp])) nofun)

/-- Illegal fields raise. -/
theorem State.Running.rejectFields (h : s.Running) (hp : s.phase = .idle)
    (hf : (checkFields w ht c cs s).phase = .failed) : (checkFields w ht c cs s).Running := by
  obtain ⟨hk, hs⟩ := fieldError_spec s.cfg w ht c cs
  rw [checkFields_rejected ((checkFields_failed_iff hp).1 hf)]
  exact h.raise _ _ hk hs (.inl hp)

/-- The encoder's body begins with an accepted header (45_streaming.md R231). -/
theorem State.Running.beginBody (h : s.Running) (hp : s.phase = .idle)
    (hf : (checkFields w ht c cs s).phase ≠ .failed) : { checkFields w ht c cs s with phase := .eBody }.Running := by
  have ha := accepted_of_checkFields hp hf
  obtain ⟨-, hfr, hc, hfa⟩ := h.idle hp
  have ⟨_, hrun, _, hpx⟩ := hfr
  rw [checkFields_accepted ha]
  refine .of_fresh h.config h.spaces (fun _ => ⟨ha, rfl⟩) ?_ hfr (errInv_of_clear (h.noErr (by simp [hp])) nofun)
  simp [State.phaseInv, hrun, hpx, hc, hfa]

/-- ENCODE's capacity check fails with the header accepted and no pixel counted (44_oneshot.md R211). -/
theorem State.Running.smallBuffer (h : s.Running) (hp : s.phase = .idle)
    (hf : (checkFields w ht c cs s).phase ≠ .failed) :
    (Machine.raise .outputBufferTooSmall .none (checkFields w ht c cs s)).Running := by
  have ha := accepted_of_checkFields hp hf
  obtain ⟨-, hfr, hc, hfa⟩ := h.idle hp
  have ⟨_, hrun, _, hpx⟩ := hfr
  have he := h.noErr (by simp [hp])
  rw [checkFields_accepted ha]
  refine .of_fresh h.config h.spaces (fun _ => ⟨ha, rfl⟩) ?_ hfr ?_
  · simp [State.phaseInv, hrun, hpx, hc, hfa]
  · simp [State.errInv, he]

end

/-! ### The end of an image -/

/-- The pending run and the end marker keep the invariant once every pixel is counted (45_streaming.md R236). -/
theorem State.Running.finishImage {s : State} (h : s.Running) (hp : s.phase = .eBody) (hn : s.pxCount = s.total) :
    (finishImage s).Running := by
  obtain ⟨hv, -, -, hc, hf⟩ := h.body hp
  have hindex := indexGet_congr (s := s) (t := Machine.finishImage s) (by simp)
  have hrun : (Machine.finishImage s).run = 0 := by simp [Machine.finishImage]
  refine ⟨by simpa using h.config, ⟨by simpa using h.spaces.1, emit_stream_wf (flushRun_stream_wf h.spaces.2) _⟩,
    fun _ => by simpa [State.headerLegal] using h.header hv, ?_, fun k => hindex k ▸ h.slots k, ?_, ?_,
    errInv_of_clear (by simpa using h.noErr (by simp [hp])) (by simp)⟩
  · simp [State.phaseInv, hv, hn, hc, hf, hrun]
  · simpa only [State.prevStored, hindex, finishImage_prev] using h.stored
  · intro _ h3 _
    simpa only [hindex, finishImage_prev] using h.alpha hv (by simpa using h3) (.inr (.inl hp))

/-- ENCODE's walk pushes as many pixels as it is told, with alpha 255 in a 3-channel image. -/
theorem encodeWalk_next {n i : Nat} {s t : State} (hc : s.channels = 3 ∨ s.channels = 4)
    (ht : encodeWalk n i s = .next t) :
    ∃ ps : List Pixel, ps.length = n ∧ (s.channels = 3 → ∀ p ∈ ps, p.a = 255) ∧ t = encPixels ps s := by
  rcases encodeWalk_spec (n := n) (i := i) hc with ⟨ps, hl, ha, -, hw⟩ | ⟨a, hw, -⟩
  · cases hw.symm.trans ht; exact ⟨ps, hl, ha, rfl⟩
  · cases hw.symm.trans ht

/-- The emission of bytes keeps the invariant. -/
theorem State.Running.emit {s : State} (h : s.Running) (bytes : List Byte) : (emit bytes s).Running := by
  have hindex := indexGet_congr (s := s) (t := Machine.emit bytes s) (by simp)
  refine ⟨by simpa using h.config, ⟨by simpa using h.spaces.1, emit_stream_wf h.spaces.2 _⟩, ?_, ?_, ?_, ?_, ?_, ?_⟩
  · simpa [State.headerLegal] using h.header
  · simpa [State.phaseInv, State.fresh] using h.phase
  · exact fun k => hindex k ▸ h.slots k
  · simpa only [State.prevStored, hindex, emit_prev] using h.stored
  · simpa only [State.alphaFixed, hindex, emit_prev, emit_hdrValid, emit_channels, emit_cfg, emit_phase] using h.alpha
  · simpa [State.errInv] using h.error

/-! ### The header that DECODE reads -/

/-- Fourteen bytes are a header record to accept or to reject, or have a wrong magic, whatever the state
(45_streaming.md R241). -/
theorem runRecord_header {bytes : List Byte} (hl : bytes.length = headerLen) :
    (∃ w h c cs, ∀ s : State, s.phase = .dHeader → runRecord .header bytes s = .next (acceptHeader w h c cs s)) ∨
      ∀ s : State, runRecord .header bytes s = .next (raise .malformedHeader .badMagic s) := by
  rcases decodeHeader_of_length hl with ⟨w, h, c, cs, hd⟩ | hd
  · exact .inl ⟨w, h, c, cs, fun s hp => by simp [runRecord, decode, hd, exec, execHeader, hp]⟩
  · exact .inr fun s => by simp [runRecord, decode, hd]

/-- An accepted header opens the body of the image, at a phase of the decoder. -/
theorem acceptHeader_phase {w h : Dim} {c cs : Byte} {s : State} (hp : s.phase = .dHeader)
    (hf : (acceptHeader w h c cs s).phase ≠ .failed) :
    (acceptHeader w h c cs s).phase = .dChunks ∨ (acceptHeader w h c cs s).phase = .dTrailer := by
  by_cases ha : acceptedFields s.cfg w h c cs
  · rw [acceptHeader_accepted (by simp [hp]) ha, bodyPhase]
    split <;> simp
  · simp [acceptHeader_rejected ha] at hf

/-- The header of a DECODE keeps the invariant and, unless it fails, leaves the decoder before the image's body. -/
theorem State.Running.decodeHeader {s u : State} {hb : List Byte} (h : s.Running) (hp : s.phase = .idle)
    (hr : s.stream.readBytes 0 headerLen = .ok hb)
    (hu : runRecord .header hb { Machine.openCommand (.inSpaces 0) s with phase := .dHeader } = .next u) :
    u.Running ∧ (u.phase ≠ .failed → u.phase = .dChunks ∨ u.phase = .dTrailer) := by
  have ho : { Machine.openCommand (.inSpaces 0) s with phase := .dHeader }.Running := (h.openCommand _).beginHeader hp
  obtain ⟨-, -, -, hfa⟩ := h.idle hp
  rcases runRecord_header (Memory.readBytes_eq_ok.1 hr).1 with ⟨w, ht, c, cs, ha⟩ | hbad
  · cases (ha _ rfl).symm.trans hu
    exact ⟨ho.acceptHeader rfl hfa w ht c cs, acceptHeader_phase rfl⟩
  · cases (hbad _).symm.trans hu
    exact ⟨ho.raise _ _ (by simp) (by simp) (.inr (.inl rfl)), fun hf => absurd rfl hf⟩

/-! ### Every command -/

/-- A push into an open decoder keeps the invariant. -/
theorem State.Running.pushed {s u : State} {frag : List Byte} {n : Nat} (h : s.Running)
    (hp : s.phase.accepts (.decPush frag) = true)
    (hu : pushBytes frag 0 (Machine.openCommand .byValue s) = .next (n, u)) : u.Running := by
  obtain ⟨m, t, ht, hr⟩ := (h.openCommand .byValue).push frag 0 (accepts_decPush.1 hp)
  cases ht.symm.trans hu
  exact hr

/-- The walk of a DECODE keeps the invariant. -/
theorem State.Running.walked {s t : State} {n ip : Nat} (h : s.Running) (hp : s.phase = .dChunks ∨ s.phase = .dTrailer)
    (ht : Machine.decodeWalk n ip s = .next t) : t.Running := by
  have hopen : s.phase = .dHeader ∨ s.phase = .dChunks ∨ s.phase = .dTrailer ∨ s.phase = .dDone := by tauto
  rcases h.decodeWalk n ip (.inl hopen) with ⟨u, hu, hr, -⟩ | ⟨a, hu, -⟩
  · cases hu.symm.trans ht; exact hr
  · cases hu.symm.trans ht

/-- Whatever bytes a failed DECODE leaves in `PIX`, the space is canonical (44_oneshot.md R222). -/
theorem State.Running.failDecode {s : State} (h : s.Running) (cap : Nat) : (failDecode cap s).Inv :=
  State.Running.close (s := unspecifiedPix cap s)
    ⟨h.config, ⟨Memory.wf_writeBytes h.spaces.1 _ _, h.spaces.2⟩, h.header, h.phase, h.slots, h.stored, h.alpha,
      h.error⟩ _

/-- ENC_PUSH (45_streaming.md R233). -/
theorem State.Running.encPush {s : State} {pixels : List Pixel} (h : s.Running) (hp : s.phase = .eBody)
    (hn : s.pxCount + pixels.length ≤ s.total) :
    (encPixels (pixels.map (pushedPixel s.channels)) (Machine.openCommand .byValue s)).Running := by
  refine (h.openCommand .byValue).pixels hp (by simpa using hn) fun h3 p hmem => ?_
  obtain ⟨q, -, rfl⟩ := List.mem_map.1 hmem
  exact pushedPixel_a h3 q

/-- ENCODE once its header is accepted (44_oneshot.md R212, R213). -/
theorem State.Running.encodeImage {s v : State} {bytes : List Byte} (h : s.Running) (hp : s.phase = .eBody)
    (hn : s.pxCount = 0) (hv : encodeWalk s.total 0 (Machine.emit bytes s) = .next v) :
    (Machine.finishImage v).Running := by
  obtain ⟨hval, -⟩ := h.body hp
  obtain ⟨ps, hl, ha, rfl⟩ := encodeWalk_next (by simpa using h.channels hval) hv
  have hpixels := (h.emit bytes).pixels (by simpa using hp) (by simp [hn, hl]) ha
  exact hpixels.finishImage (by simpa using hp) (by simp [hn, hl])

/-- Every command keeps the invariant. -/
theorem CommandStep.inv {c : Command} {s t : State} (hs : CommandStep s c t) (h : s.Inv) : t.Inv := by
  have hr := h.running
  have ho := hr.openCommand
  cases hs with
  | badPhase | tooManyPixels | pixelCountShort | badLength => exact h.refuse _
  | reset => exact h.reset
  | encBeginBad hp hu hf | encodeBad hp _ hu hf => subst hu; exact ((ho _).rejectFields hp hf).close _
  | encBegin hp hu hf => subst hu; exact ((ho _).beginBody hp hf).close _
  | encPush hp _ hn hu => subst hu; exact (hr.encPush hp hn).close _
  | encFinish hp _ hn hu => subst hu; exact ((ho _).finishImage hp hn).close _
  | decBegin hp => exact (hr.beginHeader hp).close _
  | decPushBad hp hu | decPush hp hu => exact (hr.pushed hp hu).close _
  | decFinish => exact hr.close _
  | decFinishEarly hp hd =>
    have hopen : s.phase = .dHeader ∨ s.phase = .dChunks ∨ s.phase = .dTrailer ∨ s.phase = .dDone :=
      accepts_decPush (frag := []).1 hp
    exact (hr.raise _ _ (by simp) (by simp) (by tauto)).close _
  | encodeSmall hp _ hu hf => subst hu; exact ((ho _).smallBuffer hp hf).close _
  | encode hp _ hu hf _ hv =>
    subst hu
    obtain ⟨-, ⟨-, -, -, hn⟩, -⟩ := hr.idle hp
    exact (((ho _).beginBody hp hf).encodeImage rfl (by simpa using hn) hv).close _
  | decodeShort hp => exact (hr.raise _ _ (by simp) (by simp) (.inl hp)).failDecode _
  | decodeBadHeader hp _ hb hu => exact (hr.decodeHeader hp hb hu).1.failDecode _
  | decodeSmall hp _ hb hu hf =>
    obtain ⟨hru, hbody⟩ := hr.decodeHeader hp hb hu
    exact (hru.raise _ _ (by simp) (by simp) (.inr (.inr (hbody hf)))).failDecode _
  | decodeBadBody hp _ hb hu hf _ hv =>
    obtain ⟨hru, hbody⟩ := hr.decodeHeader hp hb hu
    exact (hru.walked (hbody hf) hv).failDecode _
  | decode hp _ hb hu hf _ hv =>
    obtain ⟨hru, hbody⟩ := hr.decodeHeader hp hb hu
    exact (hru.walked (hbody hf) hv).close _

/-- The list of commands is no part of the invariant. -/
theorem State.Inv.withCmds {s : State} (h : s.Inv) (cmds : List Command) : { s with cmds := cmds }.Inv :=
  (h.running.own cmds s.reply s.out s.hdrEvent s.walker s.freeCount).inv h.between

/-- Settles O59: a step holds the state or performs one command, and every command keeps the invariant. -/
theorem stepKeepsTheInvariant : Obligations.StepKeepsTheInvariant := by
  intro s t h ht
  rcases step_next ht with ⟨-, rfl⟩ | ⟨c, rest, -, hs⟩
  · exact h
  · exact hs.inv (h.withCmds rest)

end Sys2Proof.Machine
end

section
/-! PROOF. Which records and which commands run, what a failed command returns, and the registers that only a header or
RESET writes.
-/

namespace Sys2Proof.Machine

/-! ### Records and their phase (41_chunk_decode.md R130) -/

/-- A chunk is executed under the one guard of all chunks. -/
theorem exec_chunk_guarded {i : Instr} (hi : i.context = .chunk) (s : State) : ∃ t, exec i s = guardChunk s t := by
  cases i with
  | header _ _ _ _ => cases hi
  | endMarker => cases hi
  | _ => exact ⟨_, rfl⟩

theorem guardChunk_outOfPhase {s : State} (hp : s.phase ≠ .dChunks) (t : State) :
    guardChunk s t = .refused .recordOutOfPhase :=
  if_pos hp

theorem guardChunk_valueless {s : State} (hp : s.phase = .dChunks) (hv : s.hdrValid = false) (t : State) :
    guardChunk s t = .fault .headerValueless := by
  simp [guardChunk, readingHeader, hp, hv]

theorem guardChunk_noPixelDue {s : State} (hp : s.phase = .dChunks) (hv : s.hdrValid = true) (hn : s.total ≤ s.pxCount)
    (t : State) : guardChunk s t = .refused .noPixelDue := by
  simp [guardChunk, hp, hv, hn]

/-- A record outside the phase of its context is refused. -/
theorem exec_outOfPhase {i : Instr} {s : State} (hp : s.phase ≠ phaseOf i.context) :
    exec i s = .refused .recordOutOfPhase := by
  cases i with
  | header | endMarker => exact if_neg hp
  | _ => exact guardChunk_outOfPhase hp _

/-- Settles O16: the two framing records ask for their phase, the six chunks share one guard. -/
theorem recordsRunInTheirPhaseOnly : Obligations.RecordsRunInTheirPhaseOnly := by
  intro i s
  refine ⟨exec_outOfPhase, fun hi hp hv => ?_, fun hi hp hv hn => ?_⟩ <;> obtain ⟨t, ht⟩ := exec_chunk_guarded hi s
  · rw [ht, guardChunk_valueless hp hv]
  · rw [ht, guardChunk_noPixelDue hp hv hn]

/-! ### Commands and their phase (10_state.md R26) -/

/-- Every command asks first whether its phase allows it. -/
theorem command_badPhase {c : Command} {s : State} (hp : s.phase.accepts c = false) :
    command c s = .next (refuse .badPhase s) := by
  cases c with
  | reset => simp [Phase.accepts] at hp
  | decPush frag => simp [command, cmdDecPush, hp]
  | decFinish =>
    have hd : s.phase ≠ .dDone := fun hd => by simp [Phase.accepts, hd] at hp
    simp [command, cmdDecFinish, hp, hd]
  | encBegin | encPush | encFinish | decBegin | encode | decode => exact if_pos (by simpa [Phase.accepts] using hp)

/-- A command that its phase allows is not refused with `BadPhase`. -/
theorem CommandStep.reply_ne_badPhase {c : Command} {s t : State} (hs : CommandStep s c t)
    (hp : s.phase.accepts c = true) : t.reply ≠ some (.refused .badPhase) := by
  cases hs with
  | badPhase hb => simp [hb] at hp
  | _ => nofun

/-- Settles O50: the phase is asked first, and its `BadPhase` is the only one. -/
theorem phaseDecidesTheLegalCommands : Obligations.PhaseDecidesTheLegalCommands := by
  intro s c rest _ hcmds
  rw [step_cons hcmds]
  exact ⟨command_badPhase (s := { s with cmds := rest }), fun hp t ht => (command_next ht).reply_ne_badPhase hp⟩

/-! ### Failed commands (60_exceptions.md R270, R271) -/

/-- A command that returns an error has closed as failed, and it began outside FAILED. -/
theorem CommandStep.error {c : Command} {s t : State} {kind : ErrKind} {sub : SubCause} (hs : CommandStep s c t)
    (hr : t.reply = some (.error kind sub)) :
    s.phase ≠ .failed ∧ ∃ u : State, u.phase = .failed ∧ t = closeFailed u := by
  cases hs with
  | encBeginBad hp _ hf | encodeBad hp _ _ hf => exact ⟨by simp [hp], _, hf, rfl⟩
  | decPushBad hp _ hf => exact ⟨fun h => by simp [Phase.accepts, h] at hp, _, hf, rfl⟩
  | decFinishEarly hp => exact ⟨fun h => by simp [Phase.accepts, h] at hp, _, rfl, rfl⟩
  | encodeSmall hp | decodeShort hp | decodeSmall hp => exact ⟨by simp [hp], _, rfl, rfl⟩
  | decodeBadHeader hp _ _ _ hf | decodeBadBody hp _ _ _ _ _ _ hf =>
    exact ⟨by simp [hp], unspecifiedPix _ _, hf, rfl⟩
  | _ => cases hr

/-- Settles O48: what a failed command returns is the latch, which the invariant ties to FAILED. -/
theorem errorIsLatchedAndReturned : Obligations.ErrorIsLatchedAndReturned := by
  intro s t kind sub hinv ht hne hr
  rcases step_next ht with ⟨hnil, -⟩ | ⟨c, rest, -, hs⟩
  · exact absurd hnil hne
  obtain ⟨hlatch, -⟩ := (hs.inv (hinv.withCmds rest)).error
  obtain ⟨hopen, u, hf, rfl⟩ := hs.error hr
  cases hr
  exact ⟨hf, rfl, fun hk => hlatch.1 hk hf, hinv.running.noErr hopen, rfl, rfl⟩

/-! ### What only a header or RESET writes (10_state.md R27, R30, R32, R33) -/

/-- Pixels are counted up, and the header registers keep what they hold. -/
structure Counts (s t : State) : Prop where
  pxCount : s.pxCount ≤ t.pxCount
  header : s.phase ≠ .dHeader → t.hdrValid = s.hdrValid ∧ t.width = s.width ∧ t.height = s.height ∧
    t.channels = s.channels ∧ t.colorspace = s.colorspace ∧ t.total = s.total

theorem Walked.counts {s t : State} (h : Walked s t) : Counts s t where
  pxCount := h.pxCount
  header hp := by
    obtain ⟨e1, e2, e3, e4, e5, e6, -⟩ := h.header hp
    exact ⟨e1, e2, e3, e4, e5, e6⟩

/-- The opening and the closing of a command touch neither. -/
theorem Counts.command {s u : State} {w : Walker} {r : Result} (h : Counts (openCommand w s) u) :
    Counts s (closeCommand r u) :=
  ⟨h.pxCount, h.header⟩

/-- In a stream already begun, every command but RESET counts up and keeps the header registers. -/
theorem CommandStep.counts {c : Command} {s t : State} (hs : CommandStep s c t) (hc : c ≠ .reset)
    (hi : s.phase ≠ .idle) : Counts s t := by
  cases hs with
  | badPhase | tooManyPixels | pixelCountShort | badLength | decFinish | decFinishEarly =>
    exact ⟨Nat.le_refl _, fun _ => ⟨rfl, rfl, rfl, rfl, rfl, rfl⟩⟩
  | reset => exact absurd rfl hc
  | encPush _ _ _ hu | encFinish _ _ _ hu => subst hu; constructor <;> simp
  | decPushBad _ hu | decPush _ hu => exact (Walked.push (s := openCommand .byValue s) hi hu).counts.command
  | _ => exact absurd ‹s.phase = .idle› hi

/-- A legal state whose header is valid has begun its image. -/
theorem State.Inv.begun {s : State} (h : s.Inv) (hv : s.hdrValid = true) : s.phase ≠ .idle ∧ s.phase ≠ .dHeader := by
  have hp := h.phase
  constructor <;> intro he <;> simp [State.phaseInv, he, hv] at hp

/-- `px_count` never passes `total`. -/
theorem State.Inv.pxCount_le {s : State} (h : s.Inv) (hv : s.hdrValid = true) : s.pxCount ≤ s.total := by
  have hp := h.phase
  cases he : s.phase <;> simp [State.phaseInv, he, hv] at hp <;> omega

/-- Settles O55: with a valid header the image has begun, and there the header registers keep what they hold. -/
theorem headerRegistersAreReadOnly : Obligations.HeaderRegistersAreReadOnly := by
  intro s t c rest hinv hv hcmds hc ht
  rw [step_cons hcmds] at ht
  obtain ⟨hi, hh⟩ := hinv.begun hv
  rw [← hv]
  exact ((command_next ht).counts hc hi).header hh

/-- Settles O57: before a stream nothing is counted, in it the count rises, and the invariant bounds it. -/
theorem pixelCountOnlyIncreases : Obligations.PixelCountOnlyIncreases := by
  intro s t c rest hinv hcmds hc ht
  rw [step_cons hcmds] at ht
  have hs := command_next ht
  refine ⟨?_, (hs.inv (hinv.withCmds rest)).pxCount_le⟩
  by_cases hi : s.phase = .idle
  · obtain ⟨-, ⟨-, -, -, hn⟩, -⟩ := hinv.running.idle hi
    omega
  · exact (hs.counts hc hi).pxCount

end Sys2Proof.Machine
end

section
/-! PROOF. While `hdr_valid` is 0 no command reads the header registers: other values in them give the same next state,
but for the registers themselves as long as no header is accepted.
-/

namespace Sys2Proof.Machine

/-! ### One byte, read backwards -/

/-- Each case of a byte is what `DecByte` does. -/
theorem ByteStep.decByte_eq {b : Byte} {s t : State} (h : ByteStep b s t) : decByte b s = .next t := by
  cases h with
  | headerMore hp hl => simp only [decByte, hp, decByteHeader, if_neg hl]
  | headerBad hp hl hd => simp only [decByte, hp, decByteHeader, if_pos hl, runRecord, hd]
  | headerDone hp hl w h c cs hd =>
    simp only [decByte, hp, decByteHeader, if_pos hl, runRecord, hd, exec, execHeader, if_true]
  | chunkMore hp hl => simp only [decByte, hp, decByteChunks, if_neg hl]
  | chunkDone hp hl i hd hi t he =>
    have hch : decByte b s = decByteChunks b s := by simp only [decByte, hp]
    simp only [hch, decByteChunks, if_pos hl, runRecord, hd, he]
  | trailerMore hp hl => simp only [decByte, hp, decByteTrailer, if_neg hl]
  | trailerBad hp hl hd =>
    have hdec := ((decodeTrailer_of_length hl).resolve_left fun h => hd h.1).2
    simp only [decByte, hp, decByteTrailer, if_pos hl, runRecord, decode, hdec]
  | trailerDone hp hl hd =>
    have hdec := ((decodeTrailer_of_length hl).resolve_right fun h => h.1 hd).2
    simp only [decByte, hp, decByteTrailer, if_pos hl, runRecord, decode, hdec, exec, execEndMarker, if_true]

/-! ### Other values in the registers -/

/-- The header registers and `total` set to given values. -/
def State.withRegisters (r : Header) (n : Nat) (s : State) : State :=
  { s with width := r.width, height := r.height, channels := r.channels, colorspace := r.colorspace, total := n }

/-- The same state, or, with no valid header, the same but for the header registers. -/
def SameButRegisters (r : Header) (n : Nat) (t t' : State) : Prop :=
  t' = t ∨ (t.hdrValid = false ∧ t' = t.withRegisters r n)

/-- Where the one outcome is a next state, the other is the same, in the sense of `SameButRegisters`. -/
def SameOutcome (r : Header) (n : Nat) (o o' : Host.Outcome State Fault Refusal) : Prop :=
  ∀ t, o = .next t → ∃ t', o' = .next t' ∧ SameButRegisters r n t t'

section
variable {r : Header} {n : Nat}

theorem SameOutcome.refl (o : Host.Outcome State Fault Refusal) : SameOutcome r n o o :=
  fun t ht => ⟨t, ht, .inl rfl⟩

theorem SameOutcome.next {t : State} (hv : t.hdrValid = false) :
    SameOutcome r n (.next t) (.next (t.withRegisters r n)) := by
  rintro u ⟨⟩
  exact ⟨_, rfl, .inr ⟨hv, rfl⟩⟩

theorem SameOutcome.ite {p : Prop} [Decidable p] {a b a' b' : Host.Outcome State Fault Refusal}
    (h1 : p → SameOutcome r n a a') (h2 : ¬ p → SameOutcome r n b b') :
    SameOutcome r n (if p then a else b) (if p then a' else b') := by
  split
  · exact h1 ‹_›
  · exact h2 ‹_›

/-- A read of the header registers is a fault, so nothing is claimed (10_state.md R30). -/
theorem SameOutcome.valueless {s : State} (hv : s.hdrValid = false) (k o : Host.Outcome State Fault Refusal) :
    SameOutcome r n (readingHeader s k) o := by
  intro t ht
  exact absurd (readingHeader_next ht).1 (by simp [hv])

/-- Fields are judged alike: the header is accepted, with the same state, or fails, with the registers kept. -/
def JudgedAlike (r : Header) (n : Nat) (u u' : State) : Prop :=
  u' = u ∨ (u.phase = .failed ∧ u.hdrValid = false ∧ u' = u.withRegisters r n)

theorem JudgedAlike.same {u u' : State} (h : JudgedAlike r n u u') : SameButRegisters r n u u' :=
  h.imp id And.right

/-- What follows a judgement needs care in the failed case only. -/
theorem SameOutcome.judged {u u' : State} (hu : JudgedAlike r n u u') {fail : State → State}
    (hfail : fail (u.withRegisters r n) = (fail u).withRegisters r n) (hv : (fail u).hdrValid = u.hdrValid)
    {accept : State → Host.Outcome State Fault Refusal} :
    SameOutcome r n (if u.phase = .failed then .next (fail u) else accept u)
      (if u'.phase = .failed then .next (fail u') else accept u') := by
  rcases hu with rfl | ⟨hf, huv, rfl⟩
  · exact .refl _
  · rw [if_pos hf, if_pos (show (u.withRegisters r n).phase = .failed from hf), hfail]
    exact .next (hv.trans huv)

/-- The field checks overwrite the registers or fail, and read none of them. -/
theorem checkFields_withRegisters (w h : Dim) (c cs : Byte) {s : State} (hv : s.hdrValid = false) :
    JudgedAlike r n (checkFields w h c cs s) (checkFields w h c cs (s.withRegisters r n)) := by
  by_cases ha : acceptedFields s.cfg w h c cs
  · rw [checkFields_accepted ha, checkFields_accepted (s := s.withRegisters r n) ha]
    exact .inl rfl
  · rw [checkFields_rejected ha, checkFields_rejected (s := s.withRegisters r n) ha]
    exact .inr ⟨rfl, hv, rfl⟩

/-- So does a header record. -/
theorem acceptHeader_withRegisters (w h : Dim) (c cs : Byte) {s : State} (hp : s.phase = .dHeader)
    (hv : s.hdrValid = false) :
    JudgedAlike r n (acceptHeader w h c cs s) (acceptHeader w h c cs (s.withRegisters r n)) := by
  have hp : s.phase ≠ .failed := by simp [hp]
  by_cases ha : acceptedFields s.cfg w h c cs
  · rw [acceptHeader_accepted hp ha, acceptHeader_accepted (s := s.withRegisters r n) hp ha]
    exact .inl rfl
  · rw [acceptHeader_rejected ha, acceptHeader_rejected (s := s.withRegisters r n) ha]
    exact .inr ⟨rfl, hv, rfl⟩

/-- So do the fourteen bytes of one. -/
theorem headerRecord_withRegisters {bytes : List Byte} {s : State} (hl : bytes.length = headerLen)
    (hp : s.phase = .dHeader) (hv : s.hdrValid = false) :
    ∃ u u', runRecord .header bytes s = .next u ∧ runRecord .header bytes (s.withRegisters r n) = .next u' ∧
      JudgedAlike r n u u' := by
  rcases runRecord_header hl with ⟨w, h, c, cs, ha⟩ | hbad
  · exact ⟨_, _, ha s hp, ha (s.withRegisters r n) hp, acceptHeader_withRegisters w h c cs hp hv⟩
  · exact ⟨_, _, hbad s, hbad _, .inr ⟨rfl, hv, rfl⟩⟩

/-! ### The decoder -/

/-- One byte: a chunk needs a valid header, a header record overwrites the registers, nothing else reads them. -/
theorem decByte_withRegisters {b : Byte} {s : State} (hv : s.hdrValid = false) :
    SameOutcome r n (decByte b s) (decByte b (s.withRegisters r n)) := by
  intro t ht
  have kept {t : State} (hb : ByteStep b (s.withRegisters r n) (t.withRegisters r n)) (htv : t.hdrValid = false) :
      ∃ t', decByte b (s.withRegisters r n) = .next t' ∧ SameButRegisters r n t t' :=
    ⟨_, hb.decByte_eq, .inr ⟨htv, rfl⟩⟩
  cases decByte_next ht with
  | headerMore hp hl => exact kept (.headerMore hp hl) hv
  | headerBad hp hl hd => exact kept (.headerBad hp hl hd) hv
  | headerDone hp hl w h c cs hd =>
    refine ⟨_, (ByteStep.headerDone (s := s.withRegisters r n) hp hl w h c cs hd).decByte_eq, ?_⟩
    exact (acceptHeader_withRegisters w h c cs (s := { s with facc := [] }) hp hv).same
  | chunkMore hp hl => exact kept (.chunkMore hp hl) hv
  | chunkDone hp hl i hd hi u he =>
    obtain ⟨-, hvalid, -⟩ := exec_chunk_next hi he
    cases hv.symm.trans hvalid
  | trailerMore hp hl => exact kept (.trailerMore hp hl) hv
  | trailerBad hp hl hd => exact kept (.trailerBad hp hl hd) hv
  | trailerDone hp hl hd => exact kept (.trailerDone hp hl hd) hv

/-- A whole push: byte by byte, until a header is accepted. -/
theorem pushBytes_withRegisters {bs : List Byte} {k m : Nat} {s t : State} (hv : s.hdrValid = false)
    (ht : pushBytes bs k s = .next (m, t)) :
    ∃ t', pushBytes bs k (s.withRegisters r n) = .next (m, t') ∧ SameButRegisters r n t t' := by
  induction bs generalizing k s with
  | nil => cases ht; exact ⟨_, rfl, .inr ⟨hv, rfl⟩⟩
  | cons b bs ih =>
    have hst : (s.withRegisters r n).stopped = s.stopped := rfl
    simp only [pushBytes, hst] at ht ⊢
    split at ht
    · next hs => cases ht; exact ⟨_, if_pos hs, .inr ⟨hv, rfl⟩⟩
    next hs =>
    simp only [if_neg hs]
    split at ht
    case h_2 | h_3 => cases ht
    next u hu =>
    obtain ⟨u', hu', rfl | ⟨huv, rfl⟩⟩ := decByte_withRegisters (r := r) (n := n) hv u hu
    · simp only [hu']; exact ⟨t, ht, .inl rfl⟩
    · simp only [hu']; exact ih huv ht

/-! ### The commands -/

theorem cmdEncBegin_withRegisters {w h : Dim} {c cs : Byte} {s : State} (hv : s.hdrValid = false) :
    SameOutcome r n (cmdEncBegin w h c cs s) (cmdEncBegin w h c cs (s.withRegisters r n)) :=
  .ite (fun _ => .next hv) fun _ =>
    .judged (checkFields_withRegisters w h c cs (s := openCommand .byValue s) hv) (fail := closeFailed) rfl rfl
      (accept := fun u => .next (closeCommand (.bytes (encode (.header w h c cs))) { u with phase := .eBody }))

theorem cmdDecPush_withRegisters {frag : List Byte} {s : State} (hv : s.hdrValid = false) :
    SameOutcome r n (cmdDecPush frag s) (cmdDecPush frag (s.withRegisters r n)) := by
  refine .ite (fun _ => .next hv) fun _ t ht => ?_
  split at ht
  case h_2 | h_3 => cases ht
  next k u hu =>
  obtain ⟨u', hu', hsame⟩ := pushBytes_withRegisters (r := r) (n := n) (s := openCommand .byValue s) hv hu
  have hopen : openCommand .byValue (s.withRegisters r n) = (openCommand .byValue s).withRegisters r n := rfl
  simp only [hopen, hu']
  rcases hsame with rfl | ⟨huv, rfl⟩
  · exact ⟨t, ht, .inl rfl⟩
  · exact SameOutcome.ite (fun _ => .next (t := closeFailed u) huv) (fun _ => .next (t := closeCommand _ u) huv) t ht

theorem cmdEncode_withRegisters {w h : Dim} {c cs : Byte} {plen cap : Nat} {s : State} (hv : s.hdrValid = false) :
    SameOutcome r n (cmdEncode w h c cs plen cap s) (cmdEncode w h c cs plen cap (s.withRegisters r n)) :=
  .ite (fun _ => .next hv) fun _ => .ite (fun _ => .next hv) fun _ =>
    .judged (checkFields_withRegisters w h c cs (s := openCommand (.inSpaces 0) s) hv) (fail := closeFailed) rfl rfl

theorem cmdDecode_withRegisters {slen cap : Nat} {s : State} (hv : s.hdrValid = false) :
    SameOutcome r n (cmdDecode slen cap s) (cmdDecode slen cap (s.withRegisters r n)) := by
  refine .ite (fun _ => .next hv) fun _ => .ite (fun _ => .next hv) fun _ => ?_
  have hstream : (s.withRegisters r n).stream = s.stream := rfl
  rw [hstream]
  cases hr : s.stream.readBytes 0 headerLen with
  | error a => exact .refl _
  | ok hb =>
    obtain ⟨u, u', hu, hu', hj⟩ := headerRecord_withRegisters (r := r) (n := n)
      (s := { openCommand (.inSpaces 0) s with phase := .dHeader }) (Memory.readBytes_eq_ok.1 hr).1 rfl hv
    have hopen : { openCommand (.inSpaces 0) (s.withRegisters r n) with phase := .dHeader } =
        { openCommand (.inSpaces 0) s with phase := .dHeader }.withRegisters r n := rfl
    simp only [hopen, hu, hu']
    exact .judged hj (fail := failDecode cap) rfl rfl

/-- No command reads the header registers while they hold no value. -/
theorem command_withRegisters {c : Command} {s : State} (hv : s.hdrValid = false) :
    SameOutcome r n (command c s) (command c (s.withRegisters r n)) := by
  cases c with
  | reset => exact .refl _
  | encBegin w h c cs => exact cmdEncBegin_withRegisters hv
  | encPush pixels => exact .ite (fun _ => .next hv) fun _ => .valueless hv _ _
  | encFinish => exact .ite (fun _ => .next hv) fun _ => .valueless hv _ _
  | decBegin => exact .ite (fun _ => .next hv) fun _ => .next hv
  | decPush frag => exact cmdDecPush_withRegisters hv
  | decFinish => exact .ite (fun _ => .next hv) fun _ => .ite (fun _ => .next hv) fun _ => .next hv
  | encode w h c cs plen cap => exact cmdEncode_withRegisters hv
  | decode slen cap => exact cmdDecode_withRegisters hv

/-- A step holds the state, registers and all, or performs a command. -/
theorem step_withRegisters {s : State} (hv : s.hdrValid = false) :
    SameOutcome r n (step s) (step (s.withRegisters r n)) := by
  cases hcmds : s.cmds with
  | nil =>
    rw [step_nil hcmds, step_nil (s := s.withRegisters r n) hcmds]
    exact .next hv
  | cons c rest =>
    rw [step_cons hcmds, step_cons (s := s.withRegisters r n) hcmds]
    exact command_withRegisters (s := { s with cmds := rest }) hv

end

/-- Settles O56: whatever values stand in the registers, the step is the same but for them. -/
theorem valuelessHeaderRegistersAreNeverRead : Obligations.ValuelessHeaderRegistersAreNeverRead :=
  fun _ t w h c cs n _ hv ht => step_withRegisters (r := ⟨w, h, c, cs⟩) (n := n) hv t ht

end Sys2Proof.Machine
end

section
/-! PROOF. The header's bytes, and that a legal state always has a next step but for bytes the host has not provided.
-/

namespace Sys2Proof.Machine

/-! ### The header's bytes (20_memory.md R54, 43_framer.md R195) -/

/-- Settles O5: the decoder compares the magic first, and `be32` is the big-endian value of its bytes. -/
theorem headerFieldsAreBigEndian : Obligations.HeaderFieldsAreBigEndian := by
  intro m0 m1 m2 m3 w0 w1 w2 w3 h0 h1 h2 h3 c cs rest
  exact ⟨fun hm => ⟨be32 w0 w1 w2 w3, be32 h0 h1 h2 h3, if_pos hm, be32_toNat _ _ _ _, be32_toNat _ _ _ _⟩,
    fun hm => if_neg hm⟩

/-! ### Where a legal state may stop (44_oneshot.md R210, R215; log 6) -/

/-- The only fault of a legal state: ENCODE or DECODE names a byte of its space that the host has not provided. -/
inductive State.Lacks (s : State) : Command → Fault → Prop
  | encode {w h : Dim} {c cs : Byte} {plen cap a : Nat} (hr : s.pix.read a = none) (ha : a < plen) :
    s.Lacks (.encode w h c cs plen cap) (.unprovidedByte .pix a)
  | decode {slen cap a : Nat} (hr : s.stream.read a = none) (ha : a < slen) :
    s.Lacks (.decode slen cap) (.unprovidedByte .stream a)

/-- The outcome is a next state, or one of the faults given. -/
inductive Answers (P : Fault → Prop) : Host.Outcome State Fault Refusal → Prop
  | next (t : State) : Answers P (.next t)
  | fault {f : Fault} (hf : P f) : Answers P (.fault f)

section
variable {P : Fault → Prop} {s : State}

theorem Answers.ite {p : Prop} [Decidable p] {a b : Host.Outcome State Fault Refusal} (ha : p → Answers P a)
    (hb : ¬ p → Answers P b) : Answers P (if p then a else b) := by
  split
  · exact ha ‹_›
  · exact hb ‹_›

/-- The encoder's body has a valid header to read (10_state.md R30). -/
theorem Answers.readingHeader {k : Host.Outcome State Fault Refusal} (h : s.Running) (hp : s.phase = .eBody)
    (hk : Answers P k) : Answers P (readingHeader s k) := by
  obtain ⟨hv, -⟩ := h.body hp
  rwa [readingHeader_of_valid hv]

/-! ### The commands -/

/-- A push into an open decoder runs through. -/
theorem cmdDecPush_answers (h : s.Running) (frag : List Byte) : Answers P (cmdDecPush frag s) := by
  refine .ite (fun _ => .next _) fun hp => ?_
  have hopen := accepts_decPush.1 (Bool.eq_true_of_not_eq_false hp)
  obtain ⟨n, t, ht, -⟩ := (h.openCommand .byValue).push frag 0 hopen
  simp only [ht]
  exact .ite (fun _ => .next _) fun _ => .next _

/-- The walk of ENCODE stops at an unprovided byte of the image only. -/
theorem encodeBody_answers {hdr : Instr} {c : Byte} {cap : Nat} (hc : s.channels = 3 ∨ s.channels = 4)
    (hP : ∀ a, s.pix.read a = none → a < s.total * s.channels.toNat → P (.unprovidedByte .pix a)) :
    Answers P (encodeBody hdr c cap s) := by
  refine .ite (fun _ => .next _) fun _ => ?_
  rcases encodeWalk_spec (n := s.total) (i := 0) (s := emit (encode hdr) { s with phase := .eBody }) (by simpa using hc)
    with ⟨ps, -, -, -, hw⟩ | ⟨a, hw, hr, -, ha⟩
  · simp only [hw]
    exact .next _
  · simp only [hw]
    exact .fault (hP a (by simpa using hr) (by simpa using ha))

/-- ENCODE walks the image only with accepted fields, so that `plen` is the image's length. -/
theorem cmdEncode_answers {w h : Dim} {c cs : Byte} {plen cap : Nat} :
    Answers (s.Lacks (.encode w h c cs plen cap)) (cmdEncode w h c cs plen cap s) := by
  refine .ite (fun _ => .next _) fun hp => .ite (fun _ => .next _) fun hl => .ite (fun _ => .next _) fun hf => ?_
  have ha := accepted_of_checkFields (s := openCommand (.inSpaces 0) s) (not_not.1 hp) hf
  have hlen : plen = w.toNat * h.toNat * c.toNat := by_contra fun hne => hl ⟨ha.1, hne⟩
  rw [checkFields_accepted ha]
  exact encodeBody_answers ha.1 fun a hr hlt => .encode hr (hlen ▸ hlt)

/-- The walk of DECODE stops at an unprovided byte behind the header only. -/
theorem decodeBody_answers {slen cap : Nat} (h : s.Running) (hp : s.phase = .dChunks ∨ s.phase = .dTrailer)
    (hl : headerLen ≤ slen) (hP : ∀ a, s.stream.read a = none → a < slen → P (.unprovidedByte .stream a)) :
    Answers P (decodeBody slen cap s) := by
  refine .ite (fun _ => .next _) fun _ => ?_
  rcases h.decodeWalk (slen - headerLen) headerLen (.inl (by tauto)) with ⟨t, hw, -⟩ | ⟨a, hw, hr, -, ha⟩
  · simp only [hw]
    exact .ite (fun _ => .next _) fun _ => .next _
  · simp only [hw]
    exact .fault (hP a hr (by omega))

/-- Fourteen bytes run as a header record, whatever they hold. -/
theorem headerRecord_runs {bytes : List Byte} (hl : bytes.length = headerLen) (hp : s.phase = .dHeader) :
    ∃ u, runRecord .header bytes s = .next u := by
  rcases runRecord_header hl with ⟨w, h, c, cs, haccept⟩ | hreject
  · exact ⟨_, haccept s hp⟩
  · exact ⟨_, hreject s⟩

/-- DECODE reads its header whole, then walks. -/
theorem cmdDecode_answers {slen cap : Nat} (h : s.Running) :
    Answers (s.Lacks (.decode slen cap)) (cmdDecode slen cap s) := by
  refine .ite (fun _ => .next _) fun hp => .ite (fun _ => .next _) fun hl => ?_
  have hp := not_not.1 hp
  have hl := Nat.le_of_not_lt hl
  cases hr : s.stream.readBytes 0 headerLen with
  | error a =>
    obtain ⟨hnone, -, ha⟩ := Memory.readBytes_error hr
    exact .fault (.decode hnone (by omega))
  | ok hb =>
    obtain ⟨u, hu⟩ := headerRecord_runs (s := { openCommand (.inSpaces 0) s with phase := .dHeader })
      (Memory.readBytes_eq_ok.1 hr).1 rfl
    obtain ⟨hru, hbody⟩ := h.decodeHeader hp hr hu
    have hstream : u.stream = s.stream := (Walked.decodeHeader hr hu).stream
    simp only [hu]
    exact .ite (fun _ => .next _) fun hf =>
      decodeBody_answers hru (hbody hf) hl fun a hnone ha => .decode (hstream ▸ hnone) ha

/-- From a legal state every command answers, or it lacks a byte. -/
theorem command_answers (h : s.Running) (c : Command) : Answers (s.Lacks c) (command c s) := by
  cases c with
  | reset => exact .next _
  | decBegin => exact .ite (fun _ => .next _) fun _ => .next _
  | encBegin | decFinish => exact .ite (fun _ => .next _) fun _ => .ite (fun _ => .next _) fun _ => .next _
  | encPush | encFinish =>
    exact .ite (fun _ => .next _) fun hp => .readingHeader h (not_not.1 hp) (.ite (fun _ => .next _) fun _ => .next _)
  | decPush frag => exact cmdDecPush_answers h frag
  | encode => exact cmdEncode_answers
  | decode => exact cmdDecode_answers h

end

/-- Settles O60: a step holds the state, or performs a command, which answers or lacks a byte of its space. -/
theorem legalStatesNeverStop : Obligations.LegalStatesNeverStop := by
  intro s hinv
  cases hcmds : s.cmds with
  | nil => exact .inl ⟨s, step_nil hcmds⟩
  | cons c rest =>
    rw [step_cons hcmds]
    have hanswer := command_answers (hinv.withCmds rest).running c
    generalize command c { s with cmds := rest } = o at hanswer ⊢
    cases hanswer with
    | next t => exact .inl ⟨t, rfl⟩
    | fault hlacks =>
      cases hlacks with
      | encode hr ha => exact .inr ⟨.pix, _, _, rest, rfl, rfl, .inl ⟨rfl, hr, _, _, _, _, _, _, rfl, ha⟩⟩
      | decode hr ha => exact .inr ⟨.stream, _, _, rest, rfl, rfl, .inr ⟨rfl, hr, _, _, rfl, ha⟩⟩

end Sys2Proof.Machine
end

section
/-! PROOF. The records and their bytes: decoding undoes encoding, every complete chunk is the encoding of one record, and
the map of the first bytes.
-/

namespace Sys2Proof

/-! ### The fields of a chunk, by its opcode (30_encoding.md R84, R87) -/

section
variable {b b1 : Byte} {rest : List Byte}

theorem decode_index (h : opcode b = .index) :
    decode .chunk (b :: rest) = .ok (.index (b.extractLsb' 0 6), rest) := by
  simp only [decode, decodeChunk, h]

theorem decode_diff (h : opcode b = .diff) :
    decode .chunk (b :: rest) =
      .ok (.diff (b.extractLsb' 4 2) (b.extractLsb' 2 2) (b.extractLsb' 0 2), rest) := by
  simp only [decode, decodeChunk, h]

theorem decode_luma (h : opcode b = .luma) :
    decode .chunk (b :: b1 :: rest) =
      .ok (.luma (b.extractLsb' 0 6) (b1.extractLsb' 4 4) (b1.extractLsb' 0 4), rest) := by
  simp only [decode, decodeChunk, h]

theorem decode_luma_short (h : opcode b = .luma) : decode .chunk [b] = .error .short := by
  simp only [decode, decodeChunk, h]

theorem decode_run (h : opcode b = .run) : decode .chunk (b :: rest) = .ok (.run (b.extractLsb' 0 6), rest) := by
  simp only [decode, decodeChunk, h]

end

/-! ### Decoding undoes encoding (30_encoding.md R86, R87, R89) -/

theorem diff_high (t fr fg fb : BitVec 2) : (t ++ fr ++ fg ++ fb).extractLsb' 4 2 = fr := by
  rw [BitVec.extractLsb'_append_eq_of_le (by decide), BitVec.extractLsb'_append_eq_of_le (by decide), field_low]

theorem diff_middle (t fr fg fb : BitVec 2) : (t ++ fr ++ fg ++ fb).extractLsb' 2 2 = fg := by
  rw [BitVec.extractLsb'_append_eq_of_le (by decide), field_low]

/-- Settles O1: a chunk's first byte gives its opcode, and each field is cut out where it was put in. -/
theorem decodeOfEncodeIsIdentity : Obligations.DecodeOfEncodeIsIdentity := by
  intro i rest hi
  cases i with
  | header w h c cs => simp [Instr.context, decode, encode, magic, be32Bytes, decodeHeader, be32_be32Bytes]
  | index slot => exact (decode_index (rest := rest) (opcode_index slot)).trans (by rw [field_low])
  | diff fr fg fb =>
    exact (decode_diff (rest := rest) (opcode_diff fr fg fb)).trans (by rw [diff_high, diff_middle, field_low])
  | luma fg6 frg fbg =>
    exact (decode_luma (rest := rest) (opcode_luma fg6)).trans (by rw [field_low, field_high, field_low])
  | run m => exact (decode_run (rest := rest) (opcode_run m (of_decide_eq_true hi))).trans (by rw [field_low])
  | rgb r g b => rfl
  | rgba r g b a => rfl
  | endMarker => simp [Instr.context, decode, encode, decodeTrailer, endMarkerBytes, endLen]

/-- Bytes that begin with the encoding of a record decode to it. -/
theorem decode_of_encode_append {ctx : Context} {i : Instr} {rest bytes : List Byte} (hi : i.encodable = true)
    (hc : i.context = ctx) (hb : encode i ++ rest = bytes) : decode ctx bytes = .ok (i, rest) := by
  rw [← hc, ← hb]
  exact decodeOfEncodeIsIdentity i rest hi

/-- Settles O6: each word is the encoding of its record, bit for bit. -/
theorem specWordsDecodeToTheirRecords : Obligations.SpecWordsDecodeToTheirRecords := by
  refine ⟨?_, ?_, ?_, ?_, ?_, ?_, ?_, ?_⟩ <;> exact decode_of_encode_append rfl rfl rfl

/-! ### The map of the first bytes, as encodings (30_encoding.md R84) -/

theorem encode_index_of_range :
    ∀ b : Byte, b.toNat ≤ 0x3F → encode (.index (BitVec.ofNat 6 b.toNat)) = [b] := by decide

theorem encode_diff_of_range :
    ∀ b : Byte, 0x40 ≤ b.toNat → b.toNat ≤ 0x7F →
      encode (.diff (BitVec.ofNat 2 (b.toNat / 16)) (BitVec.ofNat 2 (b.toNat / 4)) (BitVec.ofNat 2 b.toNat)) = [b] := by
  decide

theorem luma_tag_append :
    ∀ b : Byte, 0x80 ≤ b.toNat → b.toNat ≤ 0xBF → 0b10#2 ++ BitVec.ofNat 6 b.toNat = b := by decide

theorem nibbles_append : ∀ b : Byte, BitVec.ofNat 4 (b.toNat / 16) ++ BitVec.ofNat 4 b.toNat = b := by decide

theorem encode_luma_of_range {b0 b1 : Byte} (hl : 0x80 ≤ b0.toNat) (hu : b0.toNat ≤ 0xBF) :
    encode (.luma (BitVec.ofNat 6 b0.toNat) (BitVec.ofNat 4 (b1.toNat / 16)) (BitVec.ofNat 4 b1.toNat)) = [b0, b1] := by
  simp only [encode, luma_tag_append b0 hl hu, nibbles_append]

theorem encode_run_of_range :
    ∀ b : Byte, 0xC0 ≤ b.toNat → b.toNat ≤ 0xFD →
      (Instr.run (BitVec.ofNat 6 b.toNat)).encodable = true ∧ encode (.run (BitVec.ofNat 6 b.toNat)) = [b] := by
  decide

/-- Settles O3: the bytes of each range begin with the encoding of the range's chunk. -/
theorem firstByteMapCoversEveryByte : Obligations.FirstByteMapCoversEveryByte := by
  intro b0 b1 b2 b3 b4 rest
  refine ⟨fun hu => ?_, fun hl hu => ?_, fun hl hu => ?_, fun hl hu => ?_, fun he => ?_, fun he => ?_⟩
  · exact decode_of_encode_append rfl rfl (by rw [encode_index_of_range b0 hu]; rfl)
  · exact decode_of_encode_append rfl rfl (by rw [encode_diff_of_range b0 hl hu]; rfl)
  · exact decode_of_encode_append rfl rfl (by rw [encode_luma_of_range hl hu]; rfl)
  · obtain ⟨hi, hb⟩ := encode_run_of_range b0 hl hu
    exact decode_of_encode_append hi rfl (by rw [hb]; rfl)
  · obtain rfl : b0 = 0xFE := BitVec.eq_of_toNat_eq he
    exact decode_of_encode_append rfl rfl rfl
  · obtain rfl : b0 = 0xFF := BitVec.eq_of_toNat_eq he
    exact decode_of_encode_append rfl rfl rfl

/-! ### The length of a chunk (30_encoding.md R83) -/

/-- The length that goes with each range of first bytes. -/
theorem chunkLen_ranges :
    ∀ b : Byte, (b.toNat = 0xFE ∧ chunkLen b = 4) ∨ (b.toNat = 0xFF ∧ chunkLen b = 5) ∨
      (0x80 ≤ b.toNat ∧ b.toNat ≤ 0xBF ∧ chunkLen b = 2) ∨ (b.toNat < 0x80 ∧ chunkLen b = 1) ∨
      (0xC0 ≤ b.toNat ∧ b.toNat ≤ 0xFD ∧ chunkLen b = 1) := by decide

/-- A chunk that is cut short does not decode. -/
theorem decode_chunk_short {b : Byte} {tail : List Byte} (h : (b :: tail).length < chunkLen b) :
    decode .chunk (b :: tail) = .error .short := by
  rcases chunkLen_ranges b with ⟨he, hn⟩ | ⟨he, hn⟩ | ⟨hl, hu, hn⟩ | ⟨-, hn⟩ | ⟨-, -, hn⟩ <;>
    simp only [hn, List.length_cons] at h
  · obtain rfl : b = 0xFE := BitVec.eq_of_toNat_eq he
    match tail, h with
    | [], _ | [_], _ | [_, _], _ => rfl
    | _ :: _ :: _ :: _, h => simp only [List.length_cons] at h; omega
  · obtain rfl : b = 0xFF := BitVec.eq_of_toNat_eq he
    match tail, h with
    | [], _ | [_], _ | [_, _], _ | [_, _, _], _ => rfl
    | _ :: _ :: _ :: _ :: _, h => simp only [List.length_cons] at h; omega
  · obtain rfl : tail = [] := List.length_eq_zero_iff.1 (by omega)
    exact decode_luma_short (by rw [← luma_tag_append b hl hu, opcode_luma])
  · omega
  · omega

/-- Bytes that are no fewer than their first byte asks for begin with the encoding of a chunk of that length. -/
theorem exists_encode_append {b : Byte} {tail : List Byte} (h : chunkLen b ≤ (b :: tail).length) :
    ∃ i rest, i.encodable = true ∧ i.context = .chunk ∧ (encode i).length = chunkLen b ∧
      encode i ++ rest = b :: tail := by
  rcases chunkLen_ranges b with ⟨he, hn⟩ | ⟨he, hn⟩ | ⟨hl, hu, hn⟩ | ⟨hu, hn⟩ | ⟨hl, hu, hn⟩ <;> rw [hn] at h ⊢
  · obtain rfl : b = 0xFE := BitVec.eq_of_toNat_eq he
    match tail, h with
    | x :: y :: z :: rest, _ => exact ⟨.rgb x y z, rest, rfl, rfl, rfl, rfl⟩
  · obtain rfl : b = 0xFF := BitVec.eq_of_toNat_eq he
    match tail, h with
    | x :: y :: z :: w :: rest, _ => exact ⟨.rgba x y z w, rest, rfl, rfl, rfl, rfl⟩
  · match tail, h with
    | x :: rest, _ => exact ⟨_, rest, rfl, rfl, rfl, by rw [encode_luma_of_range hl hu]; rfl⟩
  · by_cases hu' : b.toNat ≤ 0x3F
    · exact ⟨_, tail, rfl, rfl, rfl, by rw [encode_index_of_range b hu']; rfl⟩
    · exact ⟨_, tail, rfl, rfl, rfl, by rw [encode_diff_of_range b (by omega) (by omega)]; rfl⟩
  · obtain ⟨hi, hb⟩ := encode_run_of_range b hl hu
    exact ⟨_, tail, hi, rfl, rfl, by rw [hb]; rfl⟩

/-- Settles O4: the length is `chunkLen`; that many bytes are the encoding of a chunk, and fewer are cut short. -/
theorem chunkLengthIsFunctionOfFirstByte : Obligations.ChunkLengthIsFunctionOfFirstByte := by
  intro b0 tail
  refine ⟨chunkLen b0, chunkLen_ranges b0, rfl, fun h => ?_, decode_chunk_short⟩
  obtain ⟨i, rest, hi, hc, hl, hb⟩ := exists_encode_append h
  have hrest : (b0 :: tail).drop (chunkLen b0) = rest := by rw [← hb, ← hl, List.drop_left]
  exact ⟨i, hrest ▸ decode_of_encode_append hi hc hb⟩

/-! ### Encoding undoes decoding (30_encoding.md R81, R84, R91) -/

theorem encode_of_decode_header {bytes rest : List Byte} {i : Instr} (h : decodeHeader bytes = .ok (i, rest)) :
    i.encodable = true ∧ i.context = .header ∧ encode i ++ rest = bytes := by
  unfold decodeHeader at h
  split at h
  · split at h
    · next hm =>
      cases h
      exact ⟨rfl, rfl, by simp [encode, ← hm, be32Bytes_be32]⟩
    · cases h
  · cases h

theorem encode_of_decode_trailer {bytes rest : List Byte} {i : Instr} (h : decodeTrailer bytes = .ok (i, rest)) :
    i.encodable = true ∧ i.context = .trailer ∧ encode i ++ rest = bytes := by
  unfold decodeTrailer at h
  split at h
  · cases h
  · split at h
    · next hm =>
      cases h
      exact ⟨rfl, rfl, by rw [encode, ← hm, List.take_append_drop]⟩
    · cases h

/-- What decodes as a chunk was long enough, so it begins with the encoding of a chunk, and that is what it decodes to. -/
theorem encode_of_decode_chunk {bytes rest : List Byte} {i : Instr} (h : decode .chunk bytes = .ok (i, rest)) :
    i.encodable = true ∧ i.context = .chunk ∧ encode i ++ rest = bytes := by
  cases bytes with
  | nil => cases h
  | cons b tail =>
    by_cases hl : chunkLen b ≤ (b :: tail).length
    · obtain ⟨j, rest', hj, hc, -, hb⟩ := exists_encode_append hl
      cases (decode_of_encode_append hj hc hb).symm.trans h
      exact ⟨hj, hc, hb⟩
    · cases (decode_chunk_short (Nat.lt_of_not_le hl)).symm.trans h

/-- Settles O2, context by context. -/
theorem encodeOfDecodeIsIdentity : Obligations.EncodeOfDecodeIsIdentity := by
  intro ctx bytes i rest h
  cases ctx with
  | header => exact encode_of_decode_header h
  | chunk => exact encode_of_decode_chunk h
  | trailer => exact encode_of_decode_trailer h

end Sys2Proof
end

section
/-! PROOF. The hash: the formula wrapped at any width that keeps the low six bits.
-/

namespace Sys2Proof.Machine

theorem hash_toNat (p : Pixel) :
    (hash p).toNat = (p.r.toNat * 3 + p.g.toNat * 5 + p.b.toNat * 7 + p.a.toNat * 11) % 64 := by
  simp [hash]

/-- The formula wrapped at any width that keeps the low six bits. -/
theorem hash_eq_setWidth {n : Nat} (hn : 6 ≤ n) (p : Pixel) :
    hash p =
      (p.r.setWidth n * 3 + p.g.setWidth n * 5 + p.b.setWidth n * 7 + p.a.setWidth n * 11).setWidth 6 := by
  have hlow (k : Nat) : (BitVec.ofNat n k).setWidth 6 = BitVec.ofNat 6 k := BitVec.setWidth_ofNat_of_le hn k
  simp only [BitVec.setWidth_add _ _ hn, BitVec.setWidth_mul _ _ hn, BitVec.setWidth_setWidth_of_le _ hn,
    BitVec.ofNat_eq_ofNat, hlow]
  refine BitVec.eq_of_toNat_eq ?_
  simp only [hash_toNat, BitVec.toNat_setWidth, BitVec.toNat_add, BitVec.toNat_mul, BitVec.toNat_ofNat]
  omega

/-- Settles O7: 64 divides 2^16 and 2^8, so a sum wrapped at either width has the same low six bits. -/
theorem hashIsTheFormulaInAnyWidth : Obligations.HashIsTheFormulaInAnyWidth := by
  intro p
  refine ⟨hash_toNat p, by omega, hash_eq_setWidth (by decide) p, ?_⟩
  simpa only [BitVec.setWidth_eq] using hash_eq_setWidth (n := 8) (by decide) p

end Sys2Proof.Machine
end

section
/-! PROOF. The arithmetic of the deltas: a delta added to the previous channel gives the channel back
(42_chunk_encode.md R165, 41_chunk_decode.md R133).
-/

namespace Sys2Proof.Machine

/-- The signed reading of a narrowed integer is that integer modulo 256. -/
theorem sext8_u8_emod (v : Int) : sext8 (u8 v) % 256 = v % 256 := by
  have hv := u8_toNat v
  unfold sext8
  split <;> omega

/-- What differs from the previous channel by the delta, modulo 256, narrows to the channel. -/
theorem u8_eq_of_delta {v : Int} {x y : Byte} (h : (v - fld y) % 256 = delta x y % 256) : u8 v = x := by
  have hv := u8_toNat v
  have hdelta : delta x y % 256 = (fld x - fld y) % 256 := sext8_u8_emod _
  refine BitVec.eq_of_toNat_eq ?_
  unfold fld at *
  omega

/-- A biased field gives its value back, if the value fits. -/
theorem fld_biased {n : Nat} {d bias : Int} (hl : 0 ≤ d + bias) (hu : d + bias < 2 ^ n) :
    fld (biased n d bias) = d + bias := by
  have hcast : ((2 ^ n : Nat) : Int) = 2 ^ n := by push_cast; rfl
  rw [fld, biased, BitVec.toNat_ofInt, hcast, Int.emod_eq_of_lt hl hu, Int.toNat_of_nonneg hl]

/-- A channel delta that fits DIFF, added to the previous channel, gives the channel. -/
theorem u8_add_diff {x y : Byte} (hl : -2 ≤ delta x y) (hu : delta x y ≤ 1) :
    u8 (fld y + fld (biased 2 (delta x y) 2) - 2) = x := by
  rw [fld_biased (by omega) (by omega)]
  exact u8_eq_of_delta (y := y) (by omega)

/-- A green delta that fits LUMA, added to the previous green, gives the green. -/
theorem u8_add_luma {x y : Byte} (hl : -32 ≤ delta x y) (hu : delta x y ≤ 31) :
    u8 (fld y + (fld (biased 6 (delta x y) 32) - 32)) = x := by
  rw [fld_biased (by omega) (by omega)]
  exact u8_eq_of_delta (y := y) (by omega)

/-- A red or blue delta that fits LUMA relative to the green one. -/
theorem u8_add_luma_relative {x y : Byte} {dg : Int} (hgl : -32 ≤ dg) (hgu : dg ≤ 31)
    (hl : -8 ≤ delta2 (delta x y) dg) (hu : delta2 (delta x y) dg ≤ 7) :
    u8 (fld y + (fld (biased 6 dg 32) - 32) + (fld (biased 4 (delta2 (delta x y) dg) 8) - 8)) = x := by
  have hsecond : delta2 (delta x y) dg % 256 = (delta x y - dg) % 256 := sext8_u8_emod _
  rw [fld_biased (by omega) (by omega), fld_biased (by omega) (by omega)]
  exact u8_eq_of_delta (y := y) (by omega)

/-- The DIFF of deltas that fit gives the pixel (41_chunk_decode.md R134). -/
theorem valueDiff_delta {p : Pixel} {s : State} (ha : p.a = s.prev.a)
    (hfit : fitsDiff (delta p.r s.prev.r) (delta p.g s.prev.g) (delta p.b s.prev.b) = true) :
    valueDiff (biased 2 (delta p.r s.prev.r) 2) (biased 2 (delta p.g s.prev.g) 2) (biased 2 (delta p.b s.prev.b) 2) s =
      p := by
  simp only [fitsDiff, Bool.and_eq_true, decide_eq_true_eq] at hfit
  obtain ⟨⟨⟨⟨⟨hrl, hru⟩, hgl⟩, hgu⟩, hbl⟩, hbu⟩ := hfit
  exact Pixel.ext (u8_add_diff hrl hru) (u8_add_diff hgl hgu) (u8_add_diff hbl hbu) ha.symm

/-- The LUMA of deltas that fit gives the pixel (41_chunk_decode.md R135). -/
theorem valueLuma_delta {p : Pixel} {s : State} {dg drg dbg : Int} (ha : p.a = s.prev.a)
    (hdg : delta p.g s.prev.g = dg) (hdrg : delta2 (delta p.r s.prev.r) dg = drg)
    (hdbg : delta2 (delta p.b s.prev.b) dg = dbg) (hfit : fitsLuma dg drg dbg = true) :
    valueLuma (biased 6 dg 32) (biased 4 drg 8) (biased 4 dbg 8) s = p := by
  subst hdg hdrg hdbg
  simp only [fitsLuma, Bool.and_eq_true, decide_eq_true_eq] at hfit
  obtain ⟨⟨⟨⟨⟨hgl, hgu⟩, hrl⟩, hru⟩, hbl⟩, hbu⟩ := hfit
  exact Pixel.ext (u8_add_luma_relative hgl hgu hrl hru) (u8_add_luma hgl hgu) (u8_add_luma_relative hgl hgu hbl hbu)
    ha.symm

end Sys2Proof.Machine
end

section
/-! PROOF. The round trip: a decoder that reads what the streaming encoder emits follows it, pixel by pixel.
-/

namespace Sys2Proof.Machine

/-! ### What the decoder makes of the chunk the encoder selects -/

/-- `alpha_fix` leaves a pixel of the image alone. -/
theorem alphaFix_eq {s : State} {p : Pixel} (ha : s.channels = 4 ∨ p.a = 255) : alphaFix s p = p := by
  by_cases hc : s.channels = 4
  · exact if_pos hc
  · have h255 : (⟨p.r, p.g, p.b, 255⟩ : Pixel) = p := Pixel.ext rfl rfl rfl (ha.resolve_left hc).symm
    rw [alphaFix, if_neg hc, h255]
    split <;> rfl

/-- DIFF, LUMA or RGB, whichever is selected against `prev`, decodes to the pixel. -/
theorem exec_selectDelta {p : Pixel} {d : State} (hd : d.chunkReady) (ha : p.a = d.prev.a) :
    exec (selectDelta p d.prev) d = .next (deliver p d) := by
  simp only [selectDelta]
  split
  · next hfit =>
    exact (guardChunk_of_ready hd _).trans (by rw [valueDiff_delta ha hfit])
  · split
    · next hfit =>
      exact (guardChunk_of_ready hd _).trans (by rw [valueLuma_delta ha rfl rfl rfl hfit])
    · have hv : valueRgb p.r p.g p.b d = p := Pixel.ext rfl rfl rfl ha.symm
      exact (guardChunk_of_ready hd _).trans (by rw [hv])

/-- The chunk selected for a pixel decodes to the pixel, if the two sides hold the same `prev` and the same index. -/
theorem exec_selectChunk {p : Pixel} {e d : State} (hd : d.chunkReady) (hprev : d.prev = e.prev)
    (hindex : d.index = e.index) : exec (selectChunk p e) d = .next (deliver p d) := by
  unfold selectChunk
  split
  · next hhit =>
    have hv : valueIndex (hash p) d = p := (indexGet_congr hindex _).trans hhit
    exact (guardChunk_of_ready hd _).trans (by rw [hv])
  · split
    · next ha => rw [← hprev] at ha ⊢; exact exec_selectDelta hd ha
    · exact guardChunk_of_ready hd _

/-! ### Bytes that the decoder takes whole -/

/-- The decoder takes all of the bytes, and they lead from one state to the other. -/
def Reads (bytes : List Byte) (s t : State) : Prop := pushBytes bytes 0 s = .next (bytes.length, t)

theorem Reads.nil (s : State) : Reads [] s s := rfl

theorem Reads.append {a b : List Byte} {s t u : State} (ha : Reads a s t) (hb : Reads b t u) : Reads (a ++ b) s u := by
  unfold Reads at *
  rw [pushBytes_append, ha]
  simp only
  rw [pushBytes_offset, hb, List.length_append]

/-- The bytes of a record run as the record. -/
theorem Reads.record {i : Instr} {s t : State} (hi : i.encodable = true) (hp : s.phase = phaseOf i.context)
    (hc : s.carry = []) (hf : s.facc = []) (he : exec i s = .next t) :
    Reads (encode i) s (if i.context = .chunk then endChunk t else t) := by
  have hd : decode i.context (encode i) = .ok (i, []) := decode_of_encode_append hi rfl (List.append_nil _)
  rw [Reads, pushBytes_record hp hc hf hd, he]

/-- A header with legal fields is read as the header (45_streaming.md R241). -/
theorem Reads.header {w h : Dim} {c cs : Byte} {s : State} (hp : s.phase = .dHeader) (hc : s.carry = [])
    (hf : s.facc = []) (ha : acceptedFields s.cfg w h c cs) :
    Reads (encode (.header w h c cs)) s
      { s with
        width := w, height := h, channels := c, colorspace := cs, total := w.toNat * h.toNat, hdrValid := true
        hdrEvent := some ⟨w, h, c, cs⟩, phase := bodyPhase (w.toNat * h.toNat) } := by
  rw [← acceptHeader_accepted (by simp [hp]) ha]
  exact .record (i := .header w h c cs) rfl hp hc hf (if_pos hp)

/-- The end marker is read as the end marker (45_streaming.md R243). -/
theorem Reads.endMarker {s : State} (hp : s.phase = .dTrailer) (hc : s.carry = []) (hf : s.facc = []) :
    Reads (encode .endMarker) s { s with phase := .dDone } :=
  .record (i := .endMarker) rfl hp hc hf (if_pos hp)

theorem endChunk_phase {t : State} (hp : t.phase = .dChunks) (hn : t.pxCount ≤ t.total) :
    (endChunk t).phase = bodyPhase (t.total - t.pxCount) := by
  unfold endChunk bodyPhase
  by_cases h : t.pxCount = t.total
  · rw [if_pos h, if_pos (by omega)]
  · rw [if_neg h, if_neg (by omega), hp]

/-! ### A decoder that follows the encoder -/

/-- The decoder began at `d₀`, has read what the encoder `e` emitted in this command, and is now at `d`: of the pixels
`ps` that the image has so far, it lacks those of the pending run, which repeat its previous pixel. -/
structure Follows (d₀ : State) (ps : List Pixel) (e d : State) : Prop where
  read : Reads e.out d₀ d
  byValue : e.walker = .byValue ∧ d.walker = .byValue
  prev : d.prev = e.prev
  index : d.index = e.index
  channels : d.channels = e.channels ∧ (e.channels = 3 ∨ e.channels = 4)
  count : d.pxCount + e.run = ps.length
  pixels : d.out ++ (List.replicate e.run (pixelToBytes e.channels e.prev)).flatten =
    ps.flatMap (pixelToBytes e.channels)
  header : d.hdrValid = true
  phase : d.phase = bodyPhase (d.total - d.pxCount)
  buffers : d.carry = [] ∧ d.facc = []

section
variable {d₀ e d : State} {ps : List Pixel}

/-- While a pixel is due the decoder executes chunks. -/
theorem Follows.ready (h : Follows d₀ ps e d) (hlt : d.pxCount < d.total) : d.chunkReady := by
  obtain ⟨hch, hc⟩ := h.channels
  exact ⟨h.phase.trans (if_neg (by omega)), h.header, hlt, hch ▸ hc⟩

/-- The encoder's own count plays no part. -/
theorem Follows.setCount (h : Follows d₀ ps e d) (n : Nat) : Follows d₀ ps { e with pxCount := n } d :=
  ⟨h.read, h.byValue, h.prev, h.index, h.channels, h.count, h.pixels, h.header, h.phase, h.buffers⟩

/-- The RUN chunk of the pending run gives the decoder the pixels it lacks. -/
theorem Follows.runChunk (h : Follows d₀ ps e d) {m : BitVec 6} (hm : e.run = m.toNat + 1) (hmax : m.toNat ≤ 61)
    (hle : ps.length ≤ d.total) :
    ∃ d', d'.total = d.total ∧ Follows d₀ ps { emit (encode (.run m)) e with run := 0 } d' := by
  obtain ⟨he, hd⟩ := h.byValue
  obtain ⟨hch, hc⟩ := h.channels
  obtain ⟨hcarry, hfacc⟩ := h.buffers
  have hcount := h.count
  have hready := h.ready (by omega)
  have hexec : exec (.run m) d = .next (outPixels e.run d.prev d) := by
    have hn : min (m.toNat + 1) (d.total - d.pxCount) = e.run := by omega
    exact (guardChunk_of_ready hready _).trans (by rw [hn])
  have hread := h.read.append (.record (i := .run m) (decide_eq_true hmax) hready.1 hcarry hfacc hexec)
  obtain ⟨hout, -⟩ := outPixels_byValue e.run d.prev hd
  refine ⟨endChunk (outPixels e.run d.prev d), by simp, ?_⟩
  rw [emit_byValue he]
  refine ⟨hread, ⟨he, by simpa using hd⟩, by simpa using h.prev, by simpa using h.index, ⟨by simpa using hch, hc⟩,
    by simpa using hcount, ?_, by simpa using h.header, ?_, by simp [hcarry, hfacc]⟩
  · rw [endChunk_out, hout, hch, h.prev]
    simpa using h.pixels
  · rw [endChunk_phase (by simpa using hready.1) (by simp; omega)]
    simp

/-- A flush keeps the decoder in step. -/
theorem Follows.flushRun (h : Follows d₀ ps e d) (hmax : e.run ≤ 61) (hle : ps.length ≤ d.total) :
    ∃ d', d'.total = d.total ∧ Follows d₀ ps (flushRun e) d' := by
  unfold Machine.flushRun
  split
  · have hm : (BitVec.ofNat 6 (e.run - 1)).toNat = e.run - 1 := by rw [BitVec.toNat_ofNat]; omega
    exact h.runChunk (by omega) (by omega) hle
  · exact ⟨d, rfl, h⟩

/-- A pixel that extends the run waits in it, or completes it. -/
theorem Follows.extendRun (h : Follows d₀ ps e d) (hlt : ps.length < d.total) :
    ∃ d', d'.total = d.total ∧ Follows d₀ (ps ++ [e.prev]) (extendRun e) d' := by
  have hwait : Follows d₀ (ps ++ [e.prev]) { e with run := e.run + 1 } d := by
    refine ⟨h.read, h.byValue, h.prev, h.index, h.channels, ?_, ?_, h.header, h.phase, h.buffers⟩
    · simp [← h.count, Nat.add_assoc]
    · simp [← h.pixels, List.replicate_succ']
  unfold Machine.extendRun
  split
  · next hfull => exact hwait.runChunk hfull (by decide) (by simpa using hlt)
  · exact ⟨d, rfl, hwait⟩

/-- The chunk of a new pixel, with no run pending, gives the decoder the pixel. -/
theorem Follows.newPixel {e₀ : State} {p : Pixel} (h : Follows d₀ ps e d) (hrun : e.run = 0)
    (hlt : ps.length < d.total) (ha : e.channels = 4 ∨ p.a = 255) (hprev : e.prev = e₀.prev)
    (hindex : e.index = e₀.index) :
    ∃ d', d'.total = d.total ∧ Follows d₀ (ps ++ [p]) (writeBack p (emit (encode (selectChunk p e₀)) e)) d' := by
  obtain ⟨he, hd⟩ := h.byValue
  obtain ⟨hch, hc⟩ := h.channels
  obtain ⟨hcarry, hfacc⟩ := h.buffers
  have hcount := h.count
  have hready := h.ready (by omega)
  have hfix : alphaFix d p = p := alphaFix_eq (hch ▸ ha)
  obtain ⟨hctx, henc, -⟩ := selectChunk_context p e₀
  have hread := h.read.append (.record henc (hctx ▸ hready.1) hcarry hfacc
    (exec_selectChunk hready (h.prev.trans hprev) (h.index.trans hindex)))
  rw [if_pos hctx] at hread
  have hout : (deliver p d).out = d.out ++ pixelToBytes d.channels p := by
    rw [deliver, hfix]
    exact (outPixel_byValue (s := writeBack p d) p hd).1
  refine ⟨endChunk (deliver p d), by simp, ?_⟩
  rw [emit_byValue he]
  refine ⟨hread, ⟨he, by simpa using hd⟩, by simpa using hfix, by simp [hfix, h.index], ⟨by simpa using hch, hc⟩,
    by simp [hrun, ← hcount], ?_, by simpa using h.header, ?_, by simp [hcarry, hfacc]⟩
  · simpa [hrun, hout, hch] using h.pixels
  · rw [endChunk_phase (by simpa using hready.1) (by simp; omega)]
    simp

/-- One pixel. -/
theorem Follows.pixel {p : Pixel} (h : Follows d₀ ps e d) (hmax : e.run ≤ 61) (hlt : ps.length < d.total)
    (ha : e.channels = 4 ∨ p.a = 255) : ∃ d', d'.total = d.total ∧ Follows d₀ (ps ++ [p]) (encPixel p e) d' := by
  have hcounted := h.setCount (e.pxCount + 1)
  by_cases hp : p = e.prev
  · subst hp
    rw [encPixel_same]
    exact hcounted.extendRun hlt
  · obtain ⟨d₁, ht₁, hf⟩ := hcounted.flushRun hmax (Nat.le_of_lt hlt)
    obtain ⟨d', ht, hf'⟩ := hf.newPixel (e₀ := e) (p := p) (by simp) (ht₁ ▸ hlt) (by simpa using ha) (by simp) (by simp)
    rw [encPixel_new hp]
    exact ⟨d', ht.trans ht₁, hf'⟩

/-- All pixels of a fragment that the image has room for. -/
theorem Follows.encPixels {qs : List Pixel} (h : Follows d₀ ps e d) (hmax : e.run ≤ 61)
    (hle : (ps ++ qs).length ≤ d.total) (ha : ∀ q ∈ qs, e.channels = 4 ∨ q.a = 255) :
    ∃ d', d'.total = d.total ∧ (encPixels qs e).run ≤ 61 ∧ Follows d₀ (ps ++ qs) (encPixels qs e) d' := by
  induction qs generalizing ps e d with
  | nil => exact ⟨d, rfl, hmax, by rwa [List.append_nil]⟩
  | cons q qs ih =>
    rw [List.length_append, List.length_cons] at hle
    obtain ⟨d₁, ht₁, hf⟩ := h.pixel hmax (by omega) (ha q (by simp))
    obtain ⟨d', ht, hr, hf'⟩ := ih hf (encPixel_run_le hmax q) (by simp [ht₁]; omega)
      (fun r hr => by simpa using ha r (by simp [hr]))
    rw [List.append_assoc] at hf'
    exact ⟨d', ht.trans ht₁, hr, hf'⟩

/-- A command opens with no output, and the decoder begins where it is. -/
theorem Follows.openCommand (h : Follows d₀ ps e d) : Follows d ps (openCommand .byValue e) d :=
  ⟨.nil d, ⟨rfl, h.byValue.2⟩, h.prev, h.index, h.channels, h.count, h.pixels, h.header, h.phase, h.buffers⟩

/-- A command closes with its output returned. -/
theorem Follows.closeCommand (h : Follows d₀ ps e d) (r : Result) : Follows d ps (closeCommand r e) d :=
  ⟨.nil d, ⟨rfl, h.byValue.2⟩, h.prev, h.index, h.channels, h.count, h.pixels, h.header, h.phase, h.buffers⟩

/-- The flushed run and the end marker give the decoder the last pixels and the end (45_streaming.md R236, R243). -/
theorem Follows.finishImage (h : Follows d₀ ps e d) (hmax : e.run ≤ 61) (hn : ps.length = d.total) :
    ∃ d', Reads (finishImage e).out d₀ d' ∧ d'.phase = .dDone ∧ d'.prev = e.prev ∧ d'.index = e.index ∧
      d'.out = ps.flatMap (pixelToBytes e.channels) := by
  obtain ⟨d₁, ht, hf⟩ := h.flushRun hmax (Nat.le_of_eq hn)
  obtain ⟨hcarry, hfacc⟩ := hf.buffers
  have hcount := hf.count
  have hpixels := hf.pixels
  simp only [flushRun_run, flushRun_channels, List.replicate_zero, List.flatten_nil, List.append_nil] at hcount hpixels
  have hall : d₁.phase = .dTrailer := hf.phase.trans (if_pos (by omega))
  refine ⟨{ d₁ with phase := .dDone }, ?_, rfl, by simpa using hf.prev, by simpa using hf.index, hpixels⟩
  rw [Machine.finishImage, emit_byValue hf.byValue.1]
  exact hf.read.append (.endMarker hall hcarry hfacc)

end

/-! ### The commands of the two streams -/

/-- Between two commands of the encoder: the decoder follows, and the encoder's counters are those of the pixels. -/
structure InStep (ps : List Pixel) (e d : State) : Prop where
  follows : Follows d ps e d
  run : e.run ≤ 61
  pxCount : e.pxCount = ps.length
  total : d.total = e.total

section
variable {s t d : State} {ps : List Pixel} {b : List Byte}

theorem InStep.withCmds (h : InStep ps s d) (cmds : List Command) : InStep ps { s with cmds := cmds } d :=
  have f := h.follows
  ⟨⟨f.read, f.byValue, f.prev, f.index, f.channels, f.count, f.pixels, f.header, f.phase, f.buffers⟩, h.run, h.pxCount,
    h.total⟩

/-- ENC_BEGIN on one side; DEC_BEGIN and the header on the other: both sides hold the reset values that the format
depends on (70_reset_and_hazards.md R291). -/
theorem State.Inv.beginInStep {w h : Dim} {c cs : Byte} (hinv : s.Inv) (hidle : s.phase = .idle)
    (he : CommandStep s (.encBegin w h c cs) t) (hr : t.reply = some (.bytes b)) (hd : CommandStep s .decBegin d) :
    d.phase = .dHeader ∧ ∃ d₀, Reads b (openCommand .byValue { d with cmds := [] }) d₀ ∧
      d₀.hdrEvent = some ⟨w, h, c, cs⟩ ∧ (d₀.phase = .dTrailer ∨ d₀.phase = .dChunks) ∧ t.channels = c ∧
      InStep [] t d₀ := by
  obtain ⟨-, ⟨-, hrun, -, hcount⟩, hcarry, hfacc⟩ := hinv.running.idle hidle
  cases hd with
  | badPhase hb => simp [Phase.accepts, hidle] at hb
  | decBegin =>
  cases he with
  | encBegin _ hu hf =>
    have ha := accepted_of_checkFields (s := openCommand .byValue s) hidle (hu ▸ hf)
    rw [checkFields_accepted ha] at hu
    subst hu
    cases hr
    refine ⟨rfl, _, .header rfl hcarry hfacc ha, rfl, ite_eq_or_eq _ _ _, rfl, ?_, ?_, hcount, rfl⟩
    · refine ⟨.nil _, ⟨rfl, rfl⟩, rfl, rfl, ⟨rfl, ha.1⟩, ?_, ?_, rfl, ?_, hcarry, hfacc⟩
      · simp [hcount, hrun]
      · simp [hrun]
      · simp [hcount]
    · exact Nat.le_trans (Nat.le_of_eq hrun) (Nat.zero_le _)
  | _ => cases hr

/-- ENC_PUSH: the decoder reads what it returns and is in step again. -/
theorem InStep.encPush {pixels : List Pixel} (h : InStep ps s d) (hs : CommandStep s (.encPush pixels) t)
    (hr : t.reply = some (.bytes b)) :
    ∃ d', Reads b d d' ∧ t.channels = s.channels ∧ InStep (ps ++ pixels.map (pushedPixel s.channels)) t d' := by
  cases hs with
  | encPush _ _ hn hu =>
    subst hu
    cases hr
    obtain ⟨-, hc⟩ := h.follows.channels
    have hroom : (ps ++ pixels.map (pushedPixel s.channels)).length ≤ d.total := by
      simpa [h.total, ← h.pxCount] using hn
    have ha : ∀ q ∈ pixels.map (pushedPixel s.channels), s.channels = 4 ∨ q.a = 255 := by
      intro q hq
      obtain ⟨p, -, rfl⟩ := List.mem_map.1 hq
      exact hc.symm.imp id fun h3 => pushedPixel_a h3 p
    obtain ⟨d', ht, hmax, hf⟩ := h.follows.openCommand.encPixels h.run hroom ha
    exact ⟨d', hf.read, by simp, hf.closeCommand _, hmax, by simp [h.pxCount], by simp [ht, h.total]⟩
  | _ => cases hr

/-- ENC_FINISH: the decoder reads what it returns and has the whole image. -/
theorem InStep.encFinish (h : InStep ps s d) (hs : CommandStep s .encFinish t) (hr : t.reply = some (.bytes b)) :
    ∃ d', Reads b d d' ∧ d'.phase = .dDone ∧ d'.prev = t.prev ∧ d'.index = t.index ∧
      d'.out = ps.flatMap (pixelToBytes s.channels) := by
  cases hs with
  | encFinish _ _ hn hu =>
    subst hu
    cases hr
    have hall : ps.length = d.total := by rw [h.total, ← hn, h.pxCount]
    obtain ⟨d', hread, hdone, hprev, hindex, hout⟩ := h.follows.openCommand.finishImage h.run hall
    exact ⟨d', hread, hdone, by simpa using hprev, by simpa using hindex, hout⟩
  | _ => cases hr

/-- Past the header the header event stays what it is. -/
theorem Reads.hdrEvent {bytes : List Byte} (h : Reads bytes s t) (hp : s.phase = .dTrailer ∨ s.phase = .dChunks) :
    t.hdrEvent = s.hdrEvent := by
  have hbegun : s.phase ≠ .idle ∧ s.phase ≠ .dHeader := by rcases hp with hp | hp <;> simp [hp]
  obtain ⟨-, -, -, -, -, -, hkept⟩ := (Walked.push hbegun.1 h).header hbegun.2
  exact hkept

/-- A DEC_PUSH whose bytes are all taken returns what they gave (45_streaming.md R239). -/
theorem Reads.decPush {bytes : List Byte} (h : Reads bytes (openCommand .byValue s) d) (hp : s.phase = .dHeader)
    (hd : d.phase ≠ .failed) :
    command (.decPush bytes) s = .next (closeCommand (.pushed d.hdrEvent d.out bytes.length) d) := by
  have hread : pushBytes bytes 0 (openCommand .byValue s) = .next (bytes.length, d) := h
  rw [command, cmdDecPush_open (.inl hp), hread, pushResult, if_neg hd]

/-- The one command issued is what a step performs. -/
theorem commandStep_of_step {c : Command} (h : step { s with cmds := [c] } = .next t) :
    CommandStep { s with cmds := [] } c t := command_next h

end

/-- Settles O47: the decoder reads the header and is in step, follows through the pixels, and ends with the image. -/
theorem decodeOfEncodedImageIsTheImage : Obligations.DecodeOfEncodedImageIsTheImage := by
  intro s s1 s2 s3 d1 d2 w h c cs pixels b1 b2 b3 hinv hidle hs1 hb1 hs2 hb2 hs3 hb3 hd1 hd2
  obtain ⟨hopen, d₀, hheader, hevent, hbody, hc1, hstep1⟩ :=
    (hinv.withCmds []).beginInStep hidle (commandStep_of_step hs1) hb1 (commandStep_of_step hd1)
  obtain ⟨d', hpixels, hc2, hstep2⟩ := (hstep1.withCmds []).encPush (commandStep_of_step hs2) hb2
  obtain ⟨d, hfinish, hdone, hprev, hindex, hout⟩ := (hstep2.withCmds []).encFinish (commandStep_of_step hs3) hb3
  have hrest := hpixels.append hfinish
  have hpush := (hheader.append hrest).decPush hopen (by simp [hdone])
  rw [← List.append_assoc] at hpush
  obtain rfl := Host.Outcome.next.inj (hpush.symm.trans hd2)
  have hbytes : (pixels.map (pushedPixel c)).flatMap (pixelToBytes c) = pixels.flatMap (pixelToBytes c) := by
    simp [List.flatMap_map, pixelToBytes_pushedPixel]
  refine ⟨?_, hdone, hprev, hindex⟩
  simp only [closeCommand_reply, hrest.hdrEvent hbody, hevent, hout, hc1, hc2, List.nil_append, hbytes]

end Sys2Proof.Machine
end

section
/-! PROOF. The six chunks on the decode side: the bytes each is written in, the pixel it gives, and what it writes and
leaves alone.
-/

namespace Sys2Proof

/-! ### The bytes of the chunks as numbers (30_encoding.md R81, R86) -/

/-- Two fields in a row are the digits of a number. -/
theorem toNat_append_fields {n m : Nat} (x : BitVec n) (y : BitVec m) :
    (x ++ y).toNat = 2 ^ m * x.toNat + y.toNat := by
  rw [BitVec.toNat_append, ← Nat.shiftLeft_add_eq_or_of_lt y.isLt, Nat.shiftLeft_eq, Nat.mul_comm]

/-- A byte that is a tag and a 6-bit field. -/
theorem tag_append_eq_ofNat (tag : BitVec 2) (f : BitVec 6) :
    tag ++ f = BitVec.ofNat 8 (64 * tag.toNat + f.toNat) :=
  BitVec.eq_of_toNat_eq (by rw [toNat_append_fields, BitVec.toNat_ofNat]; omega)

theorem encode_index_eq (slot : Slot) : encode (.index slot) = [BitVec.ofNat 8 slot.toNat] := by
  simp [encode, tag_append_eq_ofNat]

theorem encode_diff_eq (fr fg fb : BitVec 2) :
    encode (.diff fr fg fb) = [BitVec.ofNat 8 (64 + 16 * fr.toNat + 4 * fg.toNat + fb.toNat)] := by
  refine congrArg (fun b => [b]) (BitVec.eq_of_toNat_eq ?_)
  simp only [toNat_append_fields, BitVec.toNat_ofNat]
  omega

theorem encode_luma_eq (fg6 : BitVec 6) (frg fbg : BitVec 4) :
    encode (.luma fg6 frg fbg) =
      [BitVec.ofNat 8 (128 + fg6.toNat), BitVec.ofNat 8 (16 * frg.toNat + fbg.toNat)] := by
  have hnibbles : frg ++ fbg = BitVec.ofNat 8 (16 * frg.toNat + fbg.toNat) :=
    BitVec.eq_of_toNat_eq (by rw [toNat_append_fields, BitVec.toNat_ofNat]; omega)
  simp [encode, tag_append_eq_ofNat, hnibbles]

theorem encode_run_eq (m : BitVec 6) : encode (.run m) = [BitVec.ofNat 8 (192 + m.toNat)] := by
  simp [encode, tag_append_eq_ofNat]

end Sys2Proof

namespace Sys2Proof.Machine

/-! ### The pixel of a chunk (41_chunk_decode.md R131, R143) -/

section
variable {s : State}

/-- The colour of a delivered pixel is that of the chunk's value; its alpha is the alpha policy's. -/
theorem deliver_prev_of_ready (h : s.chunkReady) (p : Pixel) :
    (deliver p s).prev =
      ⟨p.r, p.g, p.b, if s.channels = 3 ∧ s.cfg.rgbAlphaPolicy = .force255 then 255 else p.a⟩ := by
  obtain ⟨-, -, -, hc⟩ := h
  rw [deliver_prev]
  exact Pixel.ext (alphaFix_r s p) (alphaFix_g s p) (alphaFix_b s p) (alphaFix_a hc p)

/-! ### The output of a chunk (41_chunk_decode.md R141, 44_oneshot.md R218) -/

/-- By value, the bytes of the delivered pixel join the output. -/
theorem deliver_byValue (p : Pixel) (hw : s.walker = .byValue) :
    (deliver p s).out = s.out ++ pixelToBytes s.channels (deliver p s).prev ∧ (deliver p s).pix = s.pix := by
  rw [deliver_prev]
  exact outPixel_byValue (s := writeBack (alphaFix s p) s) _ hw

/-- In DECODE, the bytes of the delivered pixel are stored at `px_count * channels`. -/
theorem deliver_inSpaces (p : Pixel) {op : Nat} (hw : s.walker = .inSpaces op) :
    (deliver p s).out = s.out ∧
      (deliver p s).pix =
        s.pix.writeBytes (s.pxCount * s.channels.toNat) (pixelToBytes s.channels (deliver p s).prev) := by
  rw [deliver_prev]
  exact outPixel_inSpaces (s := writeBack (alphaFix s p) s) _ hw

end

/-- What `PIX` reads after the bytes of a pixel are stored at `k * channels`. -/
theorem read_writeBytes_pixel {c : Byte} (hc : c = 3 ∨ c = 4) (m : Memory) (k : Nat) (p : Pixel) (a : Nat) :
    (m.writeBytes (k * c.toNat) (pixelToBytes c p)).read a =
      if k * c.toNat ≤ a ∧ a < (k + 1) * c.toNat then (pixelToBytes c p)[a - k * c.toNat]? else m.read a := by
  rw [Memory.read_writeBytes, pixelToBytes_length hc, Nat.succ_mul]

/-- What `PIX` reads after a pixel is stored `n` times in a row from `k * channels` up. -/
theorem read_writeBytes_repeated {c : Byte} (hc : c = 3 ∨ c = 4) (m : Memory) (k n : Nat) (p : Pixel) (a : Nat) :
    (m.writeBytes (k * c.toNat) (List.replicate n (pixelToBytes c p)).flatten).read a =
      if k * c.toNat ≤ a ∧ a < (k + n) * c.toNat then (pixelToBytes c p)[(a - k * c.toNat) % c.toNat]?
      else m.read a := by
  have hpixel := pixelToBytes_length hc p
  have hall : (List.replicate n (pixelToBytes c p)).flatten.length = n * c.toNat := by simp [hpixel]
  rw [Memory.read_writeBytes, hall, ← Nat.add_mul]
  refine if_ctx_congr Iff.rfl (fun ha => ?_) fun _ => rfl
  rw [getElem?_flatten_replicate n _ _ (by rw [hpixel]; rw [Nat.add_mul] at ha; omega), hpixel]

/-! ### The chunks, one by one -/

/-- Settles O8: the value of INDEX is the slot's pixel, delivered. -/
theorem indexChunkGivesTheSlotsPixel : Obligations.IndexChunkGivesTheSlotsPixel := by
  intro s slot h
  refine ⟨decode_of_encode_append rfl rfl (encode_index_eq slot), _, guardChunk_of_ready h _, ?_⟩
  rw [deliver_prev_of_ready h]
  exact ⟨rfl, rfl, rfl, rfl⟩

/-- Settles O9: each colour channel is narrowed to a byte, which is reduction modulo 256. -/
theorem diffChunkAddsItsDeltas : Obligations.DiffChunkAddsItsDeltas := by
  intro s fr fg fb h
  refine ⟨decode_of_encode_append rfl rfl (encode_diff_eq fr fg fb), _, guardChunk_of_ready h _, ?_⟩
  rw [deliver_prev_of_ready h]
  exact ⟨u8_toNat _, u8_toNat _, u8_toNat _, rfl⟩

/-- Settles O10: as for DIFF, with the green delta and the two relative ones. -/
theorem lumaChunkAddsItsDeltas : Obligations.LumaChunkAddsItsDeltas := by
  intro s fg6 frg fbg h
  refine ⟨decode_of_encode_append rfl rfl (encode_luma_eq fg6 frg fbg), _, guardChunk_of_ready h _, ?_⟩
  rw [deliver_prev_of_ready h]
  exact ⟨u8_toNat _, u8_toNat _, u8_toNat _, rfl⟩

/-- Settles O11: the literal colour with the alpha of `prev`, delivered. -/
theorem rgbChunkIsLiteral : Obligations.RgbChunkIsLiteral := by
  intro s r g b h
  exact ⟨decode_of_encode_append rfl rfl rfl, _, guardChunk_of_ready h _, deliver_prev_of_ready h _⟩

/-- Settles O12: the four literal channels, delivered. -/
theorem rgbaChunkIsLiteral : Obligations.RgbaChunkIsLiteral := by
  intro s r g b a h
  exact ⟨decode_of_encode_append rfl rfl rfl, _, guardChunk_of_ready h _, deliver_prev_of_ready h _⟩

/-- Settles O13: a pixel is due, so the clamped count is at least 1, and the repeated pixels lie in a row. -/
theorem runChunkRepeatsThePreviousPixel : Obligations.RunChunkRepeatsThePreviousPixel := by
  intro s m h hm
  have ⟨_, _, hdue, hc⟩ := h
  refine ⟨decode_of_encode_append (decide_eq_true hm) rfl (encode_run_eq m), _, pixelToBytes s.channels s.prev, _, rfl,
    rfl, guardChunk_of_ready h _, by omega, outPixels_pxCount _ _ _, outPixels_prev _ _ _, outPixels_index _ _ _,
    outPixels_byValue _ _, fun op hw => ?_⟩
  obtain ⟨hout, hpix⟩ := outPixels_inSpaces (min (m.toNat + 1) (s.total - s.pxCount)) s.prev hw hc
  exact ⟨hout, fun a => hpix ▸ read_writeBytes_repeated hc _ _ _ _ a⟩

/-! ### All chunks -/

/-- Settles O14: every chunk but RUN delivers one pixel, which is written back and output. -/
theorem onePixelChunkWritesBackAndOutputs : Obligations.OnePixelChunkWritesBackAndOutputs := by
  intro s i h hi hrun
  have ⟨_, _, _, hc⟩ := h
  obtain ⟨p, hexec⟩ := exec_onePixel_of_ready h hi hrun
  refine ⟨_, pixelToBytes s.channels (deliver p s).prev, hexec, rfl, fun k => ?_, deliver_pxCount _ _,
    deliver_byValue p, fun op hw => ?_⟩
  · rw [deliver_prev]
    exact indexGet_deliver p s k
  · obtain ⟨hout, hpix⟩ := deliver_inSpaces p hw
    exact ⟨hout, fun a => hpix ▸ read_writeBytes_pixel hc _ _ _ a⟩

/-- Settles O15: a chunk that has run delivered one pixel or repeated `prev`, and both have their frame. -/
theorem chunkFrame : Obligations.ChunkFrame := by
  intro i s t hi ht
  obtain ⟨hp, hv, hdue, ⟨p, rfl⟩ | ⟨n, -, -, -, rfl⟩⟩ := exec_chunk_next hi ht
  · exact ⟨(deliver_frame p s).trans (by simp), hp, hv, hdue⟩
  · exact ⟨(outPixels_frame n s.prev s).trans (by simp), hp, hv, hdue⟩

end Sys2Proof.Machine
end

section
/-! PROOF. One pixel given to the streaming encoder: the pending run's byte, the chunk that the policy selects with its
bytes, and what the pixel writes and leaves alone.
-/

namespace Sys2Proof.Machine

/-! ### The pending run (42_chunk_encode.md R161 to R163) -/

/-- The byte of a pending run of `n` pixels, if there is one (42_chunk_encode.md R163). -/
def pendingByte (n : Nat) : List Byte := if n = 0 then [] else [BitVec.ofNat 8 (192 + (n - 1))]

/-- The RUN chunk of a run that fits its field is the pending byte. -/
theorem encode_pendingRun {n : Nat} (h0 : n ≠ 0) (hn : n ≤ 61) :
    encode (.run (BitVec.ofNat 6 (n - 1))) = pendingByte n := by
  have hm : (BitVec.ofNat 6 (n - 1)).toNat = n - 1 := by rw [BitVec.toNat_ofNat]; omega
  rw [encode_run_eq, hm, pendingByte, if_neg h0]

section
variable {s : State}

/-- By value, a flush puts the pending byte out and clears the run. -/
theorem flushRun_eq (hw : s.walker = .byValue) (hr : s.run ≤ 61) :
    flushRun s = { s with run := 0, out := s.out ++ pendingByte s.run } := by
  unfold flushRun
  split
  · next h => rw [emit_byValue hw, encode_pendingRun (by omega) hr]
  · next h =>
    have h0 : s.run = 0 := by omega
    ext1 <;> simp [pendingByte, h0]

/-- By value, a run that reaches 62 is put out as `FD` in the same step (42_chunk_encode.md R162). -/
theorem extendRun_eq (hw : s.walker = .byValue) :
    extendRun s =
      if s.run = 61 then { s with run := 0, out := s.out ++ [0xFD] } else { s with run := s.run + 1 } := by
  unfold extendRun runMax
  split
  · next h =>
    rw [if_pos (by omega), emit_byValue (s := { s with run := s.run + 1 }) hw]
    rfl
  · next h => rw [if_neg (by omega)]

end

/-- Settles O26: the pixel is counted and extends the run. -/
theorem equalPixelExtendsTheRun : Obligations.EqualPixelExtendsTheRun := by
  intro s hw _
  exact (encPixel_same s).trans (extendRun_eq (s := { s with pxCount := s.pxCount + 1 }) hw)

/-! ### A new pixel (42_chunk_encode.md R160, R172) -/

section
variable {s : State} {p : Pixel}

/-- By value, a new pixel puts out the pending byte and its chunk, and is written back. -/
theorem encPixel_new_byValue (hw : s.walker = .byValue) (hr : s.run ≤ 61) (hp : p ≠ s.prev) :
    encPixel p s =
      writeBack p
        { s with
          pxCount := s.pxCount + 1, run := 0
          out := s.out ++ pendingByte s.run ++ encode (selectChunk p s) } := by
  rw [encPixel_new hp, flushRun_eq (s := { s with pxCount := s.pxCount + 1 }) hw hr, emit_byValue (by exact hw)]

/-- The output of a new pixel whose chunk is known. -/
theorem encPixel_out_of_chunk {bytes : List Byte} (hw : s.walker = .byValue) (hr : s.run ≤ 61) (hp : p ≠ s.prev)
    (hchunk : encode (selectChunk p s) = bytes) : (encPixel p s).out = s.out ++ pendingByte s.run ++ bytes := by
  rw [encPixel_new_byValue hw hr hp, hchunk]
  rfl

end

/-- Settles O27: the chunk is the selected one, and the write-back is the only other change. -/
theorem newPixelIsStoredAfterTheFlush : Obligations.NewPixelIsStoredAfterTheFlush := by
  intro s p hw hp hr
  obtain ⟨hmin, hmax, -⟩ := selectChunk_length p s
  refine ⟨_, hmin, hmax, encPixel_out_of_chunk hw hr hp rfl, indexGet_encPixel_new hp, ?_⟩
  rw [encPixel_new_byValue hw hr hp]
  rfl

/-! ### The selected chunk (42_chunk_encode.md R164 to R171) -/

/-- Settles O28: the index is looked up before anything else. -/
theorem indexHitIsEmittedAsIndex : Obligations.IndexHitIsEmittedAsIndex := by
  intro s p hw hr hp hhit
  refine encPixel_out_of_chunk hw hr hp ?_
  rw [selectChunk, if_pos hhit, encode_index_eq]

/-- Settles O32: an index miss with another alpha is left to RGBA, and such a pixel cannot be `prev`. -/
theorem alphaChangeIsEmittedAsRgba : Obligations.AlphaChangeIsEmittedAsRgba := by
  intro s p hw hr hmiss ha
  refine encPixel_out_of_chunk hw hr (fun hp => ha (congrArg Pixel.a hp)) ?_
  rw [selectChunk, if_neg hmiss, if_neg ha]
  rfl

/-- An index miss with equal alpha is left to the deltas. -/
theorem selectChunk_of_miss {s : State} {p : Pixel} (hmiss : s.indexGet (hash p) ≠ p) (ha : p.a = s.prev.a) :
    selectChunk p s = selectDelta p s.prev := by
  rw [selectChunk, if_neg hmiss, if_pos ha]

/-! ### The deltas (42_chunk_encode.md R165) -/

/-- The signed reading of a narrowed integer is the one signed byte it is congruent to. -/
theorem sext8_u8_eq {v d : Int} (h : v % 256 = d % 256) (hl : -128 ≤ d) (hu : d ≤ 127) : sext8 (u8 v) = d := by
  have hv := u8_toNat v
  unfold sext8
  split <;> omega

section
variable {x y : Byte} {d dg : Int}

/-- A small integer that leads from the one channel to the other is their delta. -/
theorem delta_eq (h : (y.toNat + d) % 256 = x.toNat) (hl : -128 ≤ d) (hu : d ≤ 127) : delta x y = d :=
  sext8_u8_eq (by unfold fld; omega) hl hu

/-- A small relative delta is the second difference. -/
theorem delta2_add (hl : -128 ≤ d) (hu : d ≤ 127) : delta2 (dg + d) dg = d :=
  sext8_u8_eq (by omega) hl hu

/-- The delta leads from the one channel to the other. -/
theorem add_delta (x y : Byte) : (y.toNat + delta x y) % 256 = x.toNat := by
  have h : delta x y % 256 = (fld x - fld y) % 256 := sext8_u8_emod _
  unfold fld at h
  omega

/-- So do the green delta and the second difference together. -/
theorem add_delta2 (x y : Byte) (dg : Int) : (y.toNat + (dg + delta2 (delta x y) dg)) % 256 = x.toNat := by
  have h : delta2 (delta x y) dg % 256 = (delta x y - dg) % 256 := sext8_u8_emod _
  have hd := add_delta x y
  omega

/-- The number in a biased field that the value fits. -/
theorem toNat_biased {n : Nat} {bias : Int} (hl : 0 ≤ d + bias) (hu : d + bias < 2 ^ n) :
    (biased n d bias).toNat = (d + bias).toNat := by
  have h := fld_biased hl hu
  unfold fld at h
  omega

end

theorem fitsDiff_iff {dr dg db : Int} :
    fitsDiff dr dg db = true ↔ -2 ≤ dr ∧ dr ≤ 1 ∧ -2 ≤ dg ∧ dg ≤ 1 ∧ -2 ≤ db ∧ db ≤ 1 := by
  simp [fitsDiff, and_assoc]

theorem fitsLuma_iff {dg drg dbg : Int} :
    fitsLuma dg drg dbg = true ↔ -32 ≤ dg ∧ dg ≤ 31 ∧ -8 ≤ drg ∧ drg ≤ 7 ∧ -8 ≤ dbg ∧ dbg ≤ 7 := by
  simp [fitsLuma, and_assoc]

/-- Settles O29: the deltas given are the encoder's, so that DIFF fits, and its three fields hold them biased by 2. -/
theorem smallDeltasAreEmittedAsDiff : Obligations.SmallDeltasAreEmittedAsDiff := by
  intro s p dr dg db hw hr hp hmiss ha hpr hpg hpb hrl hru hgl hgu hbl hbu
  have hdr : delta p.r s.prev.r = dr := delta_eq hpr (by omega) (by omega)
  have hdg : delta p.g s.prev.g = dg := delta_eq hpg (by omega) (by omega)
  have hdb : delta p.b s.prev.b = db := delta_eq hpb (by omega) (by omega)
  have hfit := fitsDiff_iff.2 ⟨hrl, hru, hgl, hgu, hbl, hbu⟩
  refine encPixel_out_of_chunk hw hr hp ?_
  simp only [selectChunk_of_miss hmiss ha, selectDelta, hdr, hdg, hdb, if_pos hfit]
  rw [encode_diff_eq, toNat_biased (by omega) (by omega), toNat_biased (by omega) (by omega),
    toNat_biased (by omega) (by omega)]

/-- Settles O30: the deltas given are the encoder's, so that LUMA fits and DIFF does not, and its three fields hold them
biased by 32 and 8. -/
theorem mediumDeltasAreEmittedAsLuma : Obligations.MediumDeltasAreEmittedAsLuma := by
  intro s p dg drg dbg hw hr hp hmiss ha hpr hpg hpb hgl hgu hrl hru hbl hbu hnot
  have hdr : delta p.r s.prev.r = dg + drg := delta_eq hpr (by omega) (by omega)
  have hdg : delta p.g s.prev.g = dg := delta_eq hpg (by omega) (by omega)
  have hdb : delta p.b s.prev.b = dg + dbg := delta_eq hpb (by omega) (by omega)
  have hdrg : delta2 (dg + drg) dg = drg := delta2_add (by omega) (by omega)
  have hdbg : delta2 (dg + dbg) dg = dbg := delta2_add (by omega) (by omega)
  have hfit := fitsLuma_iff.2 ⟨hgl, hgu, hrl, hru, hbl, hbu⟩
  refine encPixel_out_of_chunk hw hr hp ?_
  simp only [selectChunk_of_miss hmiss ha, selectDelta, hdr, hdg, hdb, hdrg, hdbg, if_neg (mt fitsDiff_iff.1 hnot),
    if_pos hfit]
  rw [encode_luma_eq, toNat_biased (by omega) (by omega), toNat_biased (by omega) (by omega),
    toNat_biased (by omega) (by omega)]

/-- Settles O31: the encoder's own deltas lead from `prev` to the pixel, so that neither they nor the second differences
fit. -/
theorem largeDeltasAreEmittedAsRgb : Obligations.LargeDeltasAreEmittedAsRgb := by
  intro s p hw hr hp hmiss ha hnoDiff hnoLuma
  have hdiff (hfit : fitsDiff (delta p.r s.prev.r) (delta p.g s.prev.g) (delta p.b s.prev.b) = true) : False :=
    hnoDiff ⟨_, _, _, add_delta _ _, add_delta _ _, add_delta _ _, fitsDiff_iff.1 hfit⟩
  have hluma (hfit : fitsLuma (delta p.g s.prev.g) (delta2 (delta p.r s.prev.r) (delta p.g s.prev.g))
      (delta2 (delta p.b s.prev.b) (delta p.g s.prev.g)) = true) : False :=
    hnoLuma ⟨_, _, _, add_delta2 _ _ _, add_delta _ _, add_delta2 _ _ _, fitsLuma_iff.1 hfit⟩
  refine encPixel_out_of_chunk hw hr hp ?_
  simp only [selectChunk_of_miss hmiss ha, selectDelta, if_neg hdiff, if_neg hluma]
  rfl

/-- Settles O33: `prev` and every written slot have alpha 255 as the pixel has, and the reset pixel of a slot has not. -/
theorem threeChannelImagesNeverEmitRgba : Obligations.ThreeChannelImagesNeverEmitRgba := by
  intro s raw hinv hp hc
  obtain ⟨hv, -⟩ := hinv.running.body hp
  obtain ⟨hprev, -⟩ := hinv.alpha hv hc (.inr (.inl hp))
  have ha := pushedPixel_a hc raw
  rcases selectChunk_cases (pushedPixel s.channels raw) s with ⟨hhit, h⟩ | ⟨-, -, h⟩ | ⟨hne, -⟩
  · refine ⟨fun r g b a => by simp [h], fun k hk hz => ?_⟩
    obtain rfl := Instr.index.inj (h.symm.trans hk)
    have hzero : zeroPixel.a = 255 := by rw [← hz, hhit, ha]
    exact absurd hzero (by decide)
  · rcases h with ⟨_, _, _, h⟩ | ⟨_, _, _, h⟩ | h <;> simp [h]
  · exact absurd (ha.trans hprev.symm) hne

end Sys2Proof.Machine
end

section
/-! PROOF. The encoder's commands: how the pixels are grouped plays no part, the output of a push and of a finish, what
ENCODE may write, and that the shape of the image and its colour space pass through every chunk.
-/

namespace Sys2Proof.Machine

/-! ### The shape of the image (42_chunk_encode.md R178) -/

/-- Another width, height and colour space. -/
def State.withShape (w h : Dim) (cs : Byte) (s : State) : State :=
  { s with width := w, height := h, colorspace := cs }

section
variable (w h : Dim) (cs : Byte)

theorem outPixel_withShape (p : Pixel) (s : State) :
    outPixel p (s.withShape w h cs) = (outPixel p s).withShape w h cs := by
  unfold outPixel
  cases hw : s.walker <;> simp [State.withShape, hw]

theorem outPixels_withShape (n : Nat) (p : Pixel) (s : State) :
    outPixels n p (s.withShape w h cs) = (outPixels n p s).withShape w h cs := by
  induction n generalizing s with
  | zero => rfl
  | succ n ih => rw [outPixels, outPixel_withShape, ih, outPixels]

/-- `alpha_fix` reads the channels and the policy only, and the write-back reads no register. -/
theorem deliver_withShape (p : Pixel) (s : State) :
    deliver p (s.withShape w h cs) = (deliver p s).withShape w h cs :=
  outPixel_withShape w h cs (alphaFix s p) (writeBack (alphaFix s p) s)

/-- The shape passes through every chunk. -/
theorem exec_withShape {i : Instr} (hi : i.context = .chunk) (s : State) :
    exec i (s.withShape w h cs) = mapNext (State.withShape w h cs) (exec i s) := by
  have hguard := guardChunk_map (State.withShape w h cs) (s := s) rfl rfl rfl rfl
  have hone (p : Pixel) : guardChunk (s.withShape w h cs) (deliver p (s.withShape w h cs)) =
      mapNext (State.withShape w h cs) (guardChunk s (deliver p s)) := by
    rw [deliver_withShape, hguard]
  cases i with
  | header | endMarker => cases hi
  | run m => exact (congrArg (guardChunk _) (outPixels_withShape w h cs _ _ s)).trans (hguard _)
  | index | diff | luma | rgb | rgba => exact hone _

end

/-- Settles O39: the change passes through the encoder and through every chunk. -/
theorem colorspaceAndShapePlayNoPart : Obligations.ColorspaceAndShapePlayNoPart := by
  intro s w h cs
  refine ⟨fun p => ((encPasses_shape w h cs).pixel p trivial).1.symm, fun i t hi ht => ?_⟩
  refine (exec_withShape w h cs hi s).trans ?_
  rw [ht]
  rfl

/-! ### The length of the output (42_chunk_encode.md R174, 45_streaming.md R235) -/

theorem State.out_le_owed (s : State) : s.out.length ≤ s.owed := by
  unfold State.owed
  omega

theorem State.cursor_le_owed (s : State) : s.cursor ≤ s.owed := by
  unfold State.owed
  omega

/-- The bound for a sequence of pixels of a legal encoder, whose `prev` has alpha 255 in a 3-channel image. -/
theorem State.Running.encPixels_owed {s : State} (h : s.Running) (hp : s.phase = .eBody) {ps : List Pixel}
    (ha : s.channels = 3 → ∀ p ∈ ps, p.a = 255) :
    (encPixels ps s).owed ≤ s.owed + ps.length * (s.channels.toNat + 1) := by
  obtain ⟨hv, -⟩ := h.body hp
  refine Machine.encPixels_owed ((h.channels hv).symm.imp id fun h3 => ⟨h3, ?_, ha h3⟩)
  exact (h.alpha hv h3 (.inr (.inl hp))).1

/-- A command opens with no more than the pending byte owed. -/
theorem openCommand_owed (s : State) : (openCommand .byValue s).owed ≤ 1 := by
  simp only [State.owed, State.cursor, openCommand_out, openCommand_walker, List.length_nil]
  split <;> omega

/-- The end marker takes eight bytes more. -/
theorem finishImage_owed (s : State) : (finishImage s).owed = s.owed + endLen := by
  rw [← flushRun_owed s]
  exact emit_owed (encode .endMarker) (flushRun s)

/-- Settles O38: the bytes are part of what is owed, and one pixel adds at most one byte more than it has channels. -/
theorem pushOutputIsBounded : Obligations.PushOutputIsBounded := by
  intro s t ps rest bytes hinv hcmds ht hreply
  rw [step_cons hcmds] at ht
  cases command_next ht with
  | @encPush _ u hp _ _ hu =>
    cases hreply
    have ha (h3 : s.channels = 3) (p : Pixel) (hmem : p ∈ ps.map (pushedPixel s.channels)) : p.a = 255 := by
      obtain ⟨q, -, rfl⟩ := List.mem_map.1 hmem
      exact pushedPixel_a h3 q
    have hpixels := ((hinv.withCmds rest).running.openCommand .byValue).encPixels_owed hp ha
    rw [hu, List.length_map, openCommand_channels] at hpixels
    calc u.out.length ≤ u.owed := u.out_le_owed
      _ ≤ (openCommand .byValue { s with cmds := rest }).owed + ps.length * (s.channels.toNat + 1) := hpixels
      _ ≤ 1 + ps.length * (s.channels.toNat + 1) := Nat.add_le_add_right (openCommand_owed _) _
  | _ => cases hreply

/-! ### Pushing and finishing (45_streaming.md R233, R236, R237) -/

/-- What ENC_PUSH leaves before it closes: the pixels of its bytes, encoded one after the other. -/
def encPushed (pixels : List Pixel) (s : State) : State :=
  encPixels (pixels.map (pushedPixel s.channels)) (openCommand .byValue s)

/-- ENC_PUSH of pixels that the image has room for. -/
theorem command_encPush {s : State} {pixels : List Pixel} (hp : s.phase = .eBody) (hv : s.hdrValid = true)
    (hn : s.pxCount + pixels.length ≤ s.total) :
    command (.encPush pixels) s = .next (closeCommand (.bytes (encPushed pixels s).out) (encPushed pixels s)) := by
  simp only [command, cmdEncPush]
  rw [if_neg (not_not.2 hp), readingHeader_of_valid hv, if_neg (Nat.not_lt.2 hn)]
  rfl

/-- A push that has closed and a command that opens: nothing but the output and the reply of the push is gone. -/
theorem encPushed_reopened (pixels : List Pixel) (r : Result) (s : State) :
    (openCommand .byValue { closeCommand r (encPushed pixels s) with cmds := s.cmds }).withOutput
        (encPushed pixels s).out none s.reply =
      encPushed pixels s := by
  have hw := (encPixels_byValue (s := openCommand .byValue s) rfl (pixels.map (pushedPixel s.channels))).1
  ext1 <;> simp [State.withOutput, encPushed, hw]

/-- A push of two fragments is a push of the second, with the first's output before it. -/
theorem encPushed_append (a b : List Pixel) (r : Result) (s : State) :
    encPushed (a ++ b) s =
      (encPushed b { closeCommand r (encPushed a s) with cmds := s.cmds }).withOutput (encPushed a s).out none
        s.reply := by
  have hchannels : (closeCommand r (encPushed a s)).channels = s.channels := by simp [encPushed]
  have hpass := (encPasses_withOutput (encPushed a s).out none s.reply).pixels (b.map (pushedPixel s.channels))
    (s := openCommand .byValue { closeCommand r (encPushed a s) with cmds := s.cmds }) trivial
  rw [encPushed_reopened] at hpass
  rw [encPushed, List.map_append, encPixels_append]
  refine hpass.1.symm.trans ?_
  rw [← hchannels]
  rfl

/-- Settles O36: both groupings run, and the second push adds its output to that of the first. -/
theorem encodingIgnoresFragmentation : Obligations.EncodingIgnoresFragmentation := by
  intro s a b hp hv hn
  rw [List.length_append] at hn
  have happend := encPushed_append a b (.bytes (encPushed a { s with cmds := [] }).out) { s with cmds := [] }
  refine ⟨_, _, _, _, _, command_encPush (s := { s with cmds := [] }) hp hv (by simp; omega),
    command_encPush (s := { s with cmds := [] }) hp hv (by simp; omega), command_encPush ?_ ?_ ?_, rfl, rfl, ?_, ?_⟩
  · simpa [encPushed] using hp
  · simpa [encPushed] using hv
  · simp [encPushed]; omega
  · rw [happend]
    rfl
  · rw [happend]
    rfl

section
variable {s : State}

/-- By value, the end of an image puts out the pending byte and the end marker. -/
theorem finishImage_eq (hw : s.walker = .byValue) (hr : s.run ≤ 61) :
    finishImage s =
      { s with run := 0, phase := .eDone, out := s.out ++ pendingByte s.run ++ [0, 0, 0, 0, 0, 0, 0, 1] } := by
  rw [finishImage, flushRun_eq hw hr, emit_byValue (by exact hw)]
  rfl

/-- ENC_FINISH with every pixel given. -/
theorem command_encFinish (hp : s.phase = .eBody) (hv : s.hdrValid = true) (hn : s.pxCount = s.total) :
    command .encFinish s =
      .next
        (closeCommand (.bytes (finishImage (openCommand .byValue s)).out) (finishImage (openCommand .byValue s))) := by
  simp only [command, cmdEncFinish]
  rw [if_neg (not_not.2 hp), readingHeader_of_valid hv, if_neg (not_not.2 hn)]

/-- ENC_FINISH with pixels missing. -/
theorem command_encFinish_short (hp : s.phase = .eBody) (hv : s.hdrValid = true) (hn : s.pxCount ≠ s.total) :
    command .encFinish s = .next (refuse .pixelCountShort s) := by
  simp only [command, cmdEncFinish]
  rw [if_neg (not_not.2 hp), readingHeader_of_valid hv, if_pos hn]

end

/-- Settles O35: outside E_BODY the phase refuses, with pixels missing the count does, and else the image ends. -/
theorem encFinishFlushesAndEnds : Obligations.EncFinishFlushesAndEnds := by
  intro s rest hinv hcmds
  rw [step_cons hcmds]
  by_cases hp : s.phase = .eBody
  · obtain ⟨hv, -, hr, -⟩ := hinv.running.body hp
    rw [if_neg (not_not.2 hp)]
    by_cases hn : s.pxCount = s.total
    · obtain ⟨hout, hev, hw⟩ := hinv.between
      rw [if_neg (not_not.2 hn)]
      refine (command_encFinish (s := { s with cmds := rest }) hp hv hn).trans (congrArg Host.Outcome.next ?_)
      rw [finishImage_eq (by rfl) (by exact hr)]
      ext1 <;> simp [hout, hev, hw, pendingByte]
    · rw [if_pos hn]
      exact command_encFinish_short hp hv hn
  · rw [if_pos hp]
    exact command_badPhase (by simp [Phase.accepts, hp])

/-! ### What ENCODE writes (44_oneshot.md R212, R213, R222) -/

/-- ENCODE stores what the streaming encoder would return (44_oneshot.md R214). -/
theorem finishImage_encPixels_inStream (m : Memory) (bytes : List Byte) (ps : List Pixel) {e : State}
    (he : e.walker = .byValue) :
    finishImage (encPixels ps (emit bytes (e.inStream m []))) =
      (finishImage (encPixels ps (emit bytes e))).inStream m [] := by
  have h := encPasses_inStream m []
  obtain ⟨hpixels, hwalker⟩ := h.pixels ps (h.keepEmit e bytes he)
  rw [← h.emit e bytes he, ← hpixels, finishImage_inStream m [] hwalker]

/-- ENCODE begins with its cursor at 0, as a streaming command whose output is stored in STREAM begins. -/
theorem eq_inStream {u : State} (hw : u.walker = .inSpaces 0) (hout : u.out = []) :
    { u with walker := .byValue }.inStream u.stream [] = u := by
  ext1 <;> simp [State.inStream, hw, hout, Memory.writeBytes]

/-- The bytes that ENCODE has written lie from 0 up to its cursor. -/
theorem encodeImage_stream {u : State} (hw : u.walker = .inSpaces 0) (hout : u.out = []) (header : List Byte)
    (ps : List Pixel) :
    ∃ bytes, (finishImage (encPixels ps (emit header u))).stream = u.stream.writeBytes 0 bytes ∧
      (finishImage (encPixels ps (emit header u))).cursor = bytes.length := by
  have h := finishImage_encPixels_inStream u.stream header ps (e := { u with walker := .byValue }) rfl
  rw [eq_inStream hw hout] at h
  rw [h]
  exact ⟨_, rfl, rfl⟩

/-- The cursor is part of what is owed, and so bounded. -/
theorem encodeImage_cursor {u : State} (h : u.Running) (hp : u.phase = .eBody) (header : List Byte)
    {ps : List Pixel} (ha : u.channels = 3 → ∀ p ∈ ps, p.a = 255) :
    (finishImage (encPixels ps (emit header u))).cursor ≤
      u.owed + header.length + ps.length * (u.channels.toNat + 1) + endLen := by
  have hpixels := (h.emit header).encPixels_owed (by simpa using hp) (by simpa using ha)
  have hfinish := finishImage_owed (encPixels ps (emit header u))
  have hcursor := (finishImage (encPixels ps (emit header u))).cursor_le_owed
  rw [emit_owed, emit_channels] at hpixels
  omega

/-- The walk of ENCODE and the end of the image write bytes from 0 up, no more than the worst case. -/
theorem encodeWalk_writes {u v : State} {header : List Byte} (h : u.Running) (hp : u.phase = .eBody)
    (hw : u.walker = .inSpaces 0) (hout : u.out = []) (hrun : u.run = 0)
    (hv : encodeWalk u.total 0 (emit header u) = .next v) :
    (finishImage v).pix = u.pix ∧ ∃ bytes : List Byte,
      bytes.length ≤ header.length + u.total * (u.channels.toNat + 1) + endLen ∧
        (finishImage v).stream = u.stream.writeBytes 0 bytes ∧ (finishImage v).cursor = bytes.length := by
  obtain ⟨hvalid, -⟩ := h.body hp
  obtain ⟨ps, hl, ha, rfl⟩ := encodeWalk_next (by simpa using h.channels hvalid) hv
  obtain ⟨bytes, hstream, hcursor⟩ := encodeImage_stream hw hout header ps
  have hbound := encodeImage_cursor h hp header (by simpa using ha)
  have howed : u.owed = 0 := by simp [State.owed, State.cursor, hw, hout, hrun]
  rw [hcursor, hl, howed, Nat.zero_add] at hbound
  exact ⟨by simp, bytes, hbound, hstream, hcursor⟩

/-- ENCODE writes nothing, or bytes from 0 up that its capacity has room for, and it returns their number. -/
theorem encode_writes_within_capacity {s t : State} {w h : Dim} {c cs : Byte} {plen cap : Nat}
    (hs : CommandStep s (.encode w h c cs plen cap) t) (hinv : s.Inv) :
    t.pix = s.pix ∧ ((t.stream = s.stream ∧ ∀ n, t.reply ≠ some (.encoded n)) ∨
      ∃ bytes : List Byte, bytes.length ≤ cap ∧ t.stream = s.stream.writeBytes 0 bytes ∧
        t.reply = some (.encoded bytes.length)) := by
  cases hs with
  | badPhase | badLength => exact ⟨rfl, .inl ⟨rfl, nofun⟩⟩
  | encodeBad _ _ hu | encodeSmall _ _ hu => subst hu; exact ⟨by simp, .inl ⟨by simp, by simp⟩⟩
  | encode hp _ hu hf hcap hv =>
    subst hu
    have hr := hinv.running.openCommand (.inSpaces 0)
    obtain ⟨-, ⟨-, hrun, -, -⟩, -⟩ := hr.idle hp
    have hc : (checkFields w h c cs (openCommand (.inSpaces 0) s)).channels = c := by
      rw [checkFields_accepted (accepted_of_checkFields (s := openCommand (.inSpaces 0) s) hp hf)]
    obtain ⟨hpix, bytes, hbound, hstream, hcursor⟩ :=
      encodeWalk_writes (hr.beginBody hp hf) rfl (by simp) (by simp) (by simpa using hrun) hv
    refine ⟨hpix.trans (by simp), .inr ⟨bytes, ?_, hstream.trans (by simp), by simp [hcursor]⟩⟩
    rw [hc] at hbound
    exact hbound.trans hcap

/-- Settles O42: STREAM reads as before from the end of the bytes written on, and those are within the capacity. -/
theorem encodeStaysWithinItsCapacity : Obligations.EncodeStaysWithinItsCapacity := by
  intro s t w h c cs plen cap rest hinv hcmds ht
  rw [step_cons hcmds] at ht
  obtain ⟨hpix, ⟨hstream, hreply⟩ | ⟨bytes, hcap, hstream, hreply⟩⟩ :=
    encode_writes_within_capacity (command_next ht) (hinv.withCmds rest)
  · exact ⟨hpix, fun a _ => by rw [hstream], fun _ _ _ => hstream, fun n hn => absurd hn (hreply n)⟩
  · have hread (a : Nat) (ha : bytes.length ≤ a) : t.stream.read a = s.stream.read a := by
      rw [hstream]
      exact Memory.read_writeBytes_outside _ _ _ _ (.inr (by omega))
    refine ⟨hpix, fun a ha => hread a (hcap.trans ha), fun _ _ h => ?_, fun n hn => ?_⟩
    · cases hreply.symm.trans h
    · cases hreply.symm.trans hn
      exact ⟨hcap, hread⟩

end Sys2Proof.Machine
end

section
/-! PROOF. The framer: the header and the end marker as records, the errors of bytes that are neither, and how far a
push goes.
-/

namespace Sys2Proof

/-! ### Bytes that are no framing record (43_framer.md R195, R198) -/

/-- Fourteen bytes with another magic are no header. -/
theorem decode_header_badMagic {bytes : List Byte} (hl : bytes.length = headerLen) (hm : bytes.take 4 ≠ magic) :
    decode .header bytes = .error .badMagic := by
  rcases decodeHeader_of_length hl with ⟨w, h, c, cs, hd⟩ | hd
  · obtain ⟨-, -, hb⟩ := encode_of_decode_header hd
    exact absurd (hb ▸ rfl) hm
  · exact hd

/-- Eight bytes that differ from the end marker are no end marker. -/
theorem decode_trailer_badEndMarker {bytes : List Byte} (hl : bytes.length = endLen) (hm : bytes ≠ endMarkerBytes) :
    decode .trailer bytes = .error .badEndMarker := by
  rcases decodeTrailer_of_length hl with ⟨he, -⟩ | ⟨-, hd⟩
  · exact absurd he hm
  · exact hd

end Sys2Proof

namespace Sys2Proof.Machine

section
variable {s : State} {bytes : List Byte} {w h : Dim} {c cs : Byte}

/-- The first error is the one that is latched (60_exceptions.md R270). -/
theorem raise_of_clear (he : s.err.kind = .none) (kind : ErrKind) (sub : SubCause) :
    raise kind sub s = { s with phase := .failed, err := ⟨kind, sub⟩ } := by
  simp only [raise, if_pos he]

/-! ### The framing records (43_framer.md R194, R195, R198) -/

theorem exec_header (hp : s.phase = .dHeader) : exec (.header w h c cs) s = .next (acceptHeader w h c cs s) :=
  if_pos hp

/-- The bytes of a header, with nothing behind them, run as the judging of its fields. -/
theorem runRecord_header_judged (hp : s.phase = .dHeader)
    (hd : decode .header bytes = .ok (.header w h c cs, [])) :
    runRecord .header bytes s = .next (acceptHeader w h c cs s) := by
  rw [runRecord, hd]
  exact exec_header hp

theorem runRecord_badMagic (hl : bytes.length = headerLen) (hm : bytes.take 4 ≠ magic) (s : State) :
    runRecord .header bytes s = .next (raise .malformedHeader .badMagic s) := by
  rw [runRecord, decode_header_badMagic hl hm]

theorem runRecord_badEndMarker (hl : bytes.length = endLen) (hm : bytes ≠ endMarkerBytes) (s : State) :
    runRecord .trailer bytes s = .next (raise .missingEndMarker .none s) := by
  rw [runRecord, decode_trailer_badEndMarker hl hm]

end

/-- Settles O17: in D_HEADER the record is judged, and the checks pass. -/
theorem headerRecordIsAccepted : Obligations.HeaderRecordIsAccepted := by
  intro s w h c cs hp hc hcs hz hl
  rw [exec_header hp, acceptHeader_accepted (by simp [hp]) ⟨hc, hcs, hz, hl⟩, bodyPhase]

/-- Settles O18: in D_HEADER the record is judged, and `fieldError` names the first check that fails. -/
theorem headerRecordErrorsInOrder : Obligations.HeaderRecordErrorsInOrder := by
  intro s w h c cs hp he ha
  rw [exec_header hp, acceptHeader_rejected ha, raise_of_clear he]
  rfl

/-- Settles O19: in D_TRAILER the record's one guard holds. -/
theorem endRecordEndsTheStream : Obligations.EndRecordEndsTheStream :=
  fun _ hp => if_pos hp

/-! ### DEC_PUSH of bytes that are no framing record (43_framer.md R195, R198) -/

/-- A push that ends in the first error to be raised returns that error. -/
theorem pushResult_raise {s : State} (he : s.err.kind = .none) (k : Nat) (kind : ErrKind) (sub : SubCause) :
    pushResult (.next (k, raise kind sub s)) =
      .next
        { s with
          out := [], hdrEvent := none, walker := .byValue, phase := .failed, err := ⟨kind, sub⟩
          reply := some (.error kind sub) } := by
  rw [pushResult_next, raise_of_clear he]
  rfl

section
variable {s : State} {bytes : List Byte}

theorem pushBytes_badMagic (hp : s.phase = .dHeader) (hf : s.facc = []) (hl : bytes.length = headerLen)
    (hm : bytes.take 4 ≠ magic) :
    pushBytes bytes 0 s = .next (bytes.length, raise .malformedHeader .badMagic s) := by
  have hne : bytes ≠ [] := by rintro rfl; cases hl
  have hclear : { s with facc := [] } = s := by rw [← hf]
  rw [pushBytes_header hne hp (by simpa [hf] using hl), hclear, hf, List.nil_append,
    runRecord_badMagic hl hm, Nat.zero_add]

theorem pushBytes_badEndMarker (hp : s.phase = .dTrailer) (hf : s.facc = []) (hl : bytes.length = endLen)
    (hm : bytes ≠ endMarkerBytes) :
    pushBytes bytes 0 s = .next (bytes.length, raise .missingEndMarker .none s) := by
  have hne : bytes ≠ [] := by rintro rfl; cases hl
  have hclear : { s with facc := [] } = s := by rw [← hf]
  rw [pushBytes_trailer hne hp (by simpa [hf] using hl), hclear, hf, List.nil_append,
    runRecord_badEndMarker hl hm, Nat.zero_add]

end

/-- Settles O21: the bytes gather in the empty `facc`, are rejected when they are complete, and raise. -/
theorem badFramingBytesRaise : Obligations.BadFramingBytesRaise := by
  intro s bytes rest he hfacc hcmds
  rw [step_cons hcmds, command]
  refine ⟨fun hp hl hm => ?_, fun hp hl hm => ?_⟩
  · rw [cmdDecPush_open (by exact .inl hp), pushBytes_badMagic (by exact hp) (by exact hfacc) hl hm]
    exact pushResult_raise (by exact he) _ _ _
  · rw [cmdDecPush_open (by exact .inr (.inr (.inl hp))), pushBytes_badEndMarker (by exact hp) (by exact hfacc) hl hm]
    exact pushResult_raise (by exact he) _ _ _

/-! ### How far a push goes (45_streaming.md R239, R244) -/

/-- A decoder that has stopped without an error has seen the end marker. -/
theorem phase_of_stopped {s : State} (hs : s.stopped = true) (hf : s.phase ≠ .failed) : s.phase = .dDone := by
  simpa [State.stopped, hf] using hs

/-- A push that succeeds has taken every byte, unless it ends behind the end marker. -/
theorem CommandStep.pushed {frag px : List Byte} {ev : Option Header} {k : Nat} {s t : State}
    (hs : CommandStep s (.decPush frag) t) (hr : t.reply = some (.pushed ev px k)) :
    k ≤ frag.length ∧ (k < frag.length → t.phase = .dDone) := by
  cases hs with
  | decPush _ hu hf =>
    cases hr
    obtain ⟨hle, hstop⟩ := pushBytes_count hu
    rw [Nat.zero_add] at hle hstop
    exact ⟨hle, fun hlt => phase_of_stopped (hstop hlt) hf⟩
  | _ => cases hr

/-- A push behind the end marker takes nothing and returns nothing. -/
theorem command_decPush_done {frag : List Byte} {s : State} (hp : s.phase = .dDone) (hb : s.betweenCommands) :
    command (.decPush frag) s = .next { s with reply := some (.pushed none [] 0) } := by
  obtain ⟨hout, hev, hw⟩ := hb
  have hstop : (openCommand .byValue s).stopped = true := by simp [State.stopped, hp]
  rw [command, cmdDecPush_open (by simp [hp]), pushBytes_stopped hstop, pushResult_next]
  simp [openCommand, hp, hout, hev, hw]

/-- Settles O23: a push stops short only where the decoder has stopped, and in D_DONE it has stopped already. -/
theorem pushTakesAllBytesUpToTheEndMarker : Obligations.PushTakesAllBytesUpToTheEndMarker := by
  intro s frag rest hcmds
  rw [step_cons hcmds]
  exact ⟨fun t ev px k ht hr => (command_next ht).pushed hr,
    fun hp hb => command_decPush_done (s := { s with cmds := rest }) hp hb⟩

end Sys2Proof.Machine
end

section
/-! PROOF. The header at the start of a stream: what ENC_BEGIN emits, and the checks of ENC_BEGIN, ENCODE and DECODE in
their order.
-/

namespace Sys2Proof

/-! ### The bytes of a header (43_framer.md R190) -/

/-- A big-endian field, most significant byte first (20_memory.md R54). -/
theorem be32Bytes_eq (v : Dim) :
    be32Bytes v =
      [BitVec.ofNat 8 (v.toNat / 2 ^ 24), BitVec.ofNat 8 (v.toNat / 2 ^ 16), BitVec.ofNat 8 (v.toNat / 2 ^ 8),
        BitVec.ofNat 8 v.toNat] := by
  simp only [be32Bytes, BitVec.extractLsb', Nat.shiftRight_eq_div_pow, Nat.pow_zero, Nat.div_one]

end Sys2Proof

namespace Sys2Proof.Machine

section
variable {s : State} {w h : Dim} {c cs : Byte}

/-! ### ENC_BEGIN and ENCODE (45_streaming.md R231, 44_oneshot.md R211) -/

/-- Between commands in IDLE, a command that fails at its field checks changes the latch and the phase alone. -/
theorem closeFailed_rejected (hinv : s.Inv) (hp : s.phase = .idle) (ha : ¬ acceptedFields s.cfg w h c cs)
    (v : Walker) :
    closeFailed (checkFields w h c cs (openCommand v s)) =
      { s with
        phase := .failed, err := fieldError s.cfg w h c cs
        reply := some (.error (fieldError s.cfg w h c cs).kind (fieldError s.cfg w h c cs).sub) } := by
  obtain ⟨hout, hev, hw⟩ := hinv.between
  have he : s.err = ⟨.none, .none⟩ := hinv.running.noErr (by simp [hp])
  rw [checkFields_rejected (s := openCommand v s) ha, raise_of_clear (by simp [he])]
  ext1 <;> simp [hout, hev, hw]

/-- A command that ends between commands leaves nothing of its own but the reply. -/
theorem closeCommand_of_between (hb : s.betweenCommands) (r : Result) :
    closeCommand r s = { s with reply := some r } := by
  obtain ⟨hout, hev, hw⟩ := hb
  rw [closeCommand, ← hout, ← hev, ← hw]

theorem command_encBegin_accepted (hp : s.phase = .idle) (ha : acceptedFields s.cfg w h c cs) :
    command (.encBegin w h c cs) s =
      .next (closeCommand (.bytes (encode (.header w h c cs)))
        { s with
          phase := .eBody, hdrValid := true, width := w, height := h, channels := c, colorspace := cs
          total := w.toNat * h.toNat }) := by
  simp only [command, cmdEncBegin, checkFields_accepted (s := openCommand .byValue s) ha]
  rw [if_neg (not_not.2 hp), if_neg (by simp [hp])]
  rfl

theorem command_encBegin_rejected (hp : s.phase = .idle) (ha : ¬ acceptedFields s.cfg w h c cs) :
    command (.encBegin w h c cs) s = .next (closeFailed (checkFields w h c cs (openCommand .byValue s))) := by
  have hf := (checkFields_failed_iff (s := openCommand .byValue s) hp).2 ha
  simp only [command, cmdEncBegin]
  rw [if_neg (not_not.2 hp), if_pos hf]

end

/-- Settles O34: ENC_BEGIN asks its phase, then judges the fields. -/
theorem encBeginEmitsTheHeader : Obligations.EncBeginEmitsTheHeader := by
  intro s w h c cs rest hinv hcmds
  have hinv := hinv.withCmds rest
  rw [step_cons hcmds]
  refine ⟨fun hp ha => ?_, fun hp ha => ⟨fieldError s.cfg w h c cs, rfl, ?_⟩, fun hp => ?_⟩
  · rw [command_encBegin_accepted (by exact hp) (by exact ha), closeCommand_of_between (by exact hinv.between), encode,
      be32Bytes_eq, be32Bytes_eq]
    rfl
  · rw [command_encBegin_rejected (by exact hp) (by exact ha), closeFailed_rejected hinv hp ha]
  · exact command_badPhase (by simp [Phase.accepts, hp])

section
variable {s : State} {w h : Dim} {c cs : Byte} {plen cap : Nat}

theorem command_encode_badLength (hp : s.phase = .idle)
    (hl : (c = 3 ∨ c = 4) ∧ plen ≠ w.toNat * h.toNat * c.toNat) :
    command (.encode w h c cs plen cap) s = .next (refuse .badPixelBufferLength s) := by
  simp only [command, cmdEncode]
  rw [if_neg (not_not.2 hp), if_pos hl]

theorem command_encode_rejected (hp : s.phase = .idle)
    (hl : ¬ ((c = 3 ∨ c = 4) ∧ plen ≠ w.toNat * h.toNat * c.toNat)) (ha : ¬ acceptedFields s.cfg w h c cs) :
    command (.encode w h c cs plen cap) s =
      .next (closeFailed (checkFields w h c cs (openCommand (.inSpaces 0) s))) := by
  have hf := (checkFields_failed_iff (s := openCommand (.inSpaces 0) s) hp).2 ha
  simp only [command, cmdEncode]
  rw [if_neg (not_not.2 hp), if_neg hl, if_pos hf]

/-- The capacity is judged last, with the header registers written (44_oneshot.md R211). -/
theorem command_encode_small (hp : s.phase = .idle) (ha : acceptedFields s.cfg w h c cs)
    (hl : plen = w.toNat * h.toNat * c.toNat) (hcap : cap < worstCase (w.toNat * h.toNat) c) :
    command (.encode w h c cs plen cap) s =
      .next (closeFailed (raise .outputBufferTooSmall .none
        { s with
          hdrValid := true, width := w, height := h, channels := c, colorspace := cs
          total := w.toNat * h.toNat })) := by
  simp only [command, cmdEncode, checkFields_accepted (s := openCommand (.inSpaces 0) s) ha]
  rw [if_neg (not_not.2 hp), if_neg (by simp [hl]), if_neg (by simp [hp]), encodeBody, if_pos hcap]
  rfl

end

/-- Settles O41: ENCODE asks its phase, the length of its pixels, the fields and the capacity, one after the other. -/
theorem encodeChecksInOrder : Obligations.EncodeChecksInOrder := by
  intro s w h c cs plen cap rest hinv hcmds
  have hinv := hinv.withCmds rest
  rw [step_cons hcmds]
  refine ⟨fun hp => ?_, fun hp hl => command_encode_badLength hp hl,
    fun hp hl ha => ⟨fieldError s.cfg w h c cs, rfl, ?_⟩, fun hp ha hl hcap => ?_⟩
  · exact command_badPhase (by simp [Phase.accepts, hp])
  · rw [command_encode_rejected (by exact hp) hl (by exact ha), closeFailed_rejected hinv hp ha]
  · have he : s.err = ⟨.none, .none⟩ := hinv.running.noErr (by simp [hp])
    rw [command_encode_small (by exact hp) (by exact ha) hl hcap, raise_of_clear (by simp [he]), closeFailed,
      closeCommand_of_between (by exact hinv.between)]

/-! ### The error of illegal fields, check by check (43_framer.md R194) -/

section
variable {cfg : Config} {w h : Dim} {c cs : Byte}

theorem fieldError_badChannels (hc : ¬ (c = 3 ∨ c = 4)) :
    fieldError cfg w h c cs = ⟨.malformedHeader, .badChannels⟩ :=
  if_pos hc

theorem fieldError_badColorspace (hc : c = 3 ∨ c = 4) (hcs : ¬ (cs = 0 ∨ cs = 1)) :
    fieldError cfg w h c cs = ⟨.malformedHeader, .badColorspace⟩ := by
  rw [fieldError, if_neg (not_not.2 hc), if_pos hcs]

theorem fieldError_zeroDimension (hc : c = 3 ∨ c = 4) (hcs : cs = 0 ∨ cs = 1)
    (hz : (w = 0 ∨ h = 0) ∧ cfg.zeroDimAccept = false) :
    fieldError cfg w h c cs = ⟨.malformedHeader, .zeroDimension⟩ := by
  rw [fieldError, if_neg (not_not.2 hc), if_neg (not_not.2 hcs), if_pos hz]

theorem fieldError_dimensionsOverflow (hc : c = 3 ∨ c = 4) (hcs : cs = 0 ∨ cs = 1)
    (hz : ¬ ((w = 0 ∨ h = 0) ∧ cfg.zeroDimAccept = false)) :
    fieldError cfg w h c cs = ⟨.dimensionsOverflow, .none⟩ := by
  rw [fieldError, if_neg (not_not.2 hc), if_neg (not_not.2 hcs), if_neg hz]

/-- Dimensions that pass their check do not fail it. -/
theorem not_zeroDimension (hz : cfg.zeroDimAccept = true ∨ (w ≠ 0 ∧ h ≠ 0)) :
    ¬ ((w = 0 ∨ h = 0) ∧ cfg.zeroDimAccept = false) := by
  rintro ⟨hzero, hrefuse⟩
  rcases hz with haccept | ⟨hw, hh⟩
  · cases haccept.symm.trans hrefuse
  · exact hzero.elim hw hh

end

/-! ### DECODE (44_oneshot.md R216) -/

/-- The command fails with the error: it returns it, and the latch holds it (60_exceptions.md R270). -/
def FailsWith (kind : ErrKind) (sub : SubCause) (o : Host.Outcome State Fault Refusal) : Prop :=
  ∃ t, o = .next t ∧ t.reply = some (.error kind sub) ∧ t.phase = .failed ∧ t.err = ⟨kind, sub⟩

theorem failsWith_failDecode {u : State} (he : u.err.kind = .none) (cap : Nat) (kind : ErrKind) (sub : SubCause) :
    FailsWith kind sub (.next (failDecode cap (raise kind sub u))) := by
  refine ⟨_, rfl, ?_⟩
  simp [failDecode, he]

section
variable {s : State} {bytes : List Byte} {w h : Dim} {c cs : Byte} {slen cap : Nat} {kind : ErrKind} {sub : SubCause}

/-- An illegal header record raises its error. -/
theorem acceptHeader_raises (ha : ¬ acceptedFields s.cfg w h c cs) (hf : fieldError s.cfg w h c cs = ⟨kind, sub⟩) :
    acceptHeader w h c cs s = raise kind sub s := by
  rw [acceptHeader_rejected ha, hf]

theorem decode_failsWith_truncated (hp : s.phase = .idle) (he : s.err.kind = .none) (hl : slen < headerLen) :
    FailsWith .truncated .none (command (.decode slen cap) s) := by
  rw [command, cmdDecode, if_neg (not_not.2 hp), if_pos hl]
  exact failsWith_failDecode he cap _ _

/-- With its header bytes in STREAM, DECODE runs them as a header record. -/
theorem command_decode_header (hp : s.phase = .idle) (hl : headerLen ≤ slen)
    (hr : s.stream.readBytes 0 headerLen = .ok bytes) {u : State}
    (hu : runRecord .header bytes { openCommand (.inSpaces 0) s with phase := .dHeader } = .next u) :
    command (.decode slen cap) s =
      if u.phase = .failed then .next (failDecode cap u) else decodeBody slen cap u := by
  rw [command, cmdDecode, if_neg (not_not.2 hp), if_neg (Nat.not_lt.2 hl), hr]
  simp only [hu]

/-- A header record that raises fails the command. -/
theorem decode_failsWith_of_raise (hp : s.phase = .idle) (hl : headerLen ≤ slen)
    (hr : s.stream.readBytes 0 headerLen = .ok bytes) {u : State}
    (hu : runRecord .header bytes { openCommand (.inSpaces 0) s with phase := .dHeader } = .next (raise kind sub u))
    (he : u.err.kind = .none) : FailsWith kind sub (command (.decode slen cap) s) := by
  rw [command_decode_header hp hl hr hu, if_pos (raise_phase _ _ _)]
  exact failsWith_failDecode he _ _ _

/-- Bytes with another magic are rejected first. -/
theorem decode_failsWith_badMagic (hp : s.phase = .idle) (he : s.err.kind = .none) (hl : headerLen ≤ slen)
    (hr : s.stream.readBytes 0 headerLen = .ok bytes) (hm : bytes.take 4 ≠ magic) :
    FailsWith .malformedHeader .badMagic (command (.decode slen cap) s) := by
  have hlen := (Memory.readBytes_eq_ok.1 hr).1
  exact decode_failsWith_of_raise hp hl hr (runRecord_badMagic hlen hm _) he

/-- A header record is judged next. -/
theorem decode_failsWith_fieldError (hp : s.phase = .idle) (he : s.err.kind = .none) (hl : headerLen ≤ slen)
    (hr : s.stream.readBytes 0 headerLen = .ok bytes) (hd : decode .header bytes = .ok (.header w h c cs, []))
    (ha : ¬ acceptedFields s.cfg w h c cs) (hf : fieldError s.cfg w h c cs = ⟨kind, sub⟩) :
    FailsWith kind sub (command (.decode slen cap) s) :=
  decode_failsWith_of_raise hp hl hr
    ((runRecord_header_judged rfl hd).trans (congrArg _ (acceptHeader_raises ha hf))) he

theorem bodyPhase_ne_failed (n : Nat) : bodyPhase n ≠ .failed := by
  unfold bodyPhase
  split <;> simp

/-- The capacity is judged last. -/
theorem decode_failsWith_outputBufferTooSmall (hp : s.phase = .idle) (he : s.err.kind = .none) (hl : headerLen ≤ slen)
    (hr : s.stream.readBytes 0 headerLen = .ok bytes) (hd : decode .header bytes = .ok (.header w h c cs, []))
    (ha : acceptedFields s.cfg w h c cs) (hcap : cap < w.toNat * h.toNat * c.toNat) :
    FailsWith .outputBufferTooSmall .none (command (.decode slen cap) s) := by
  rw [command_decode_header hp hl hr (runRecord_header_judged rfl hd),
    acceptHeader_accepted (by simp) (by exact ha), if_neg (bodyPhase_ne_failed _), decodeBody, if_pos hcap]
  exact failsWith_failDecode (by exact he) cap _ _

end

/-- Settles O45: the bytes, the magic, the fields in the order of `fieldError`, the capacity. -/
theorem decodeChecksInOrder : Obligations.DecodeChecksInOrder := by
  intro s slen cap rest kind sub hinv hp hcmds hfault
  have he : s.err.kind = .none := by rw [hinv.running.noErr (by simp [hp])]
  rw [step_cons hcmds]
  rcases hfault with ⟨hl, rfl, rfl⟩ | ⟨bytes, hl, hr, ⟨hm, rfl, rfl⟩ | ⟨w, h, c, cs, hd, hfields⟩⟩
  · exact decode_failsWith_truncated hp he hl
  · exact decode_failsWith_badMagic hp he hl hr hm
  have hreject := decode_failsWith_fieldError (s := { s with cmds := rest }) (cap := cap) hp he hl hr hd
    (kind := kind) (sub := sub)
  rcases hfields with ⟨hc, rfl, rfl⟩ | ⟨hc, hcs, rfl, rfl⟩ | ⟨hc, hcs, hzero, hz, rfl, rfl⟩ |
    ⟨hc, hcs, hz, hlimit, rfl, rfl⟩ | ⟨ha, hcap, rfl, rfl⟩
  · exact hreject (fun ⟨hc', _⟩ => hc hc') (fieldError_badChannels hc)
  · exact hreject (fun ⟨_, hcs', _⟩ => hcs hcs') (fieldError_badColorspace hc hcs)
  · have hz := And.intro hzero hz
    exact hreject (fun ⟨_, _, hz', _⟩ => not_zeroDimension hz' hz) (fieldError_zeroDimension hc hcs hz)
  · exact hreject (fun ⟨_, _, _, hlimit'⟩ => Nat.not_le.2 hlimit hlimit')
      (fieldError_dimensionsOverflow hc hcs (not_zeroDimension hz))
  · exact decode_failsWith_outputBufferTooSmall hp he hl hr hd ha hcap

end Sys2Proof.Machine
end

section
/-! PROOF. DECODE writes below its capacity only, and once a stream has ended nothing but RESET changes the instance.
-/

namespace Sys2Proof.Machine

/-! ### After a stream (44_oneshot.md R221, 60_exceptions.md R272, R273) -/

theorem accepts_of_failed_or_eDone {p : Phase} {c : Command} (hp : p = .failed ∨ p = .eDone) (hc : c ≠ .reset) :
    p.accepts c = false := by
  cases c with
  | reset => exact absurd rfl hc
  | _ => rcases hp with rfl | rfl <;> rfl

theorem accepts_of_dDone {p : Phase} {c : Command} (hp : p = .dDone) (hc : c ≠ .reset)
    (hpush : ∀ frag, c ≠ .decPush frag) (hfinish : c ≠ .decFinish) : p.accepts c = false := by
  subst hp
  cases c with
  | reset => exact absurd rfl hc
  | decPush frag => exact absurd rfl (hpush frag)
  | decFinish => exact absurd rfl hfinish
  | _ => rfl

/-- DEC_FINISH behind the end marker (45_streaming.md R245). -/
theorem command_decFinish_done {s : State} (hp : s.phase = .dDone) (hb : s.betweenCommands) :
    command .decFinish s = .next { s with reply := some .ok } := by
  rw [command, cmdDecFinish, if_pos hp, closeCommand_of_between hb]

/-- Settles O51: the phase refuses every command but RESET and, in D_DONE, the two that find nothing left to do. -/
theorem failedAndDoneAcceptResetOnly : Obligations.FailedAndDoneAcceptResetOnly := by
  intro s c rest hc hcmds
  rw [step_cons hcmds]
  refine ⟨fun hp => command_badPhase (accepts_of_failed_or_eDone hp hc), fun hp hb => ?_⟩
  by_cases hpush : ∃ frag, c = .decPush frag
  · obtain ⟨frag, rfl⟩ := hpush
    exact ⟨_, command_decPush_done (s := { s with cmds := rest }) hp hb, .inl ⟨⟨frag, rfl⟩, rfl⟩⟩
  by_cases hfinish : c = .decFinish
  · subst hfinish
    exact ⟨_, command_decFinish_done (s := { s with cmds := rest }) hp hb, .inr (.inl ⟨rfl, rfl⟩)⟩
  have hpush := not_exists.1 hpush
  have hbad := command_badPhase (s := { s with cmds := rest }) (accepts_of_dDone hp hc hpush hfinish)
  exact ⟨_, hbad, .inr (.inr ⟨hpush, hfinish, rfl⟩)⟩

/-! ### Where DECODE writes (44_oneshot.md R216, R218, R222) -/

/-- STREAM is as before, and so is `PIX` from `cap` up. -/
structure WritesBelow (cap : Nat) (s t : State) : Prop where
  stream : t.stream = s.stream
  pix : ∀ a, cap ≤ a → t.pix.read a = s.pix.read a

/-- A failed DECODE leaves any values below its capacity only. -/
theorem WritesBelow.failDecode {cap : Nat} {s u : State} (h : WritesBelow cap s u) :
    WritesBelow cap s (failDecode cap u) where
  stream := h.stream
  pix a ha := (Memory.read_writeBytes_outside _ _ _ _ (.inr (by simpa using ha))).trans (h.pix a ha)

/-- A header record stores no pixel, whether it is accepted or not. -/
theorem acceptHeader_pix {w h : Dim} {c cs : Byte} {s : State} (hp : s.phase = .dHeader) :
    (acceptHeader w h c cs s).pix = s.pix := by
  by_cases ha : acceptedFields s.cfg w h c cs
  · rw [acceptHeader_accepted (by simp [hp]) ha]
  · rw [acceptHeader_rejected ha, raise_pix]

theorem headerRecord_pix {bytes : List Byte} {s t : State} (hl : bytes.length = headerLen) (hp : s.phase = .dHeader)
    (ht : runRecord .header bytes s = .next t) : t.pix = s.pix := by
  rcases runRecord_header hl with ⟨w, h, c, cs, haccept⟩ | hreject
  · cases (haccept s hp).symm.trans ht
    exact acceptHeader_pix hp
  · cases (hreject s).symm.trans ht
    rfl

/-- The header that DECODE reads writes nothing. -/
theorem WritesBelow.decodeHeader {cap : Nat} {hb : List Byte} {s u : State}
    (hr : s.stream.readBytes 0 headerLen = .ok hb)
    (hu : runRecord .header hb { openCommand (.inSpaces 0) s with phase := .dHeader } = .next u) :
    WritesBelow cap s u where
  stream := (Walked.decodeHeader hr hu).stream
  pix a _ := by rw [headerRecord_pix (Memory.readBytes_eq_ok.1 hr).1 rfl hu]; rfl

/-- In the body of an image that is decoded the header is valid. -/
theorem State.Running.hdrValid_of_body {s : State} (h : s.Running) (hp : s.phase = .dChunks ∨ s.phase = .dTrailer) :
    s.hdrValid = true := by
  have hi := h.phase
  rcases hp with hp | hp <;> simp only [State.phaseInv, hp] at hi <;> exact hi.1

/-- The walk of DECODE writes the image only, and its capacity has room for that. -/
theorem WritesBelow.walk {cap n ip : Nat} {s u v : State} (h : WritesBelow cap s u) (hu : u.Running)
    (hp : u.phase = .dChunks ∨ u.phase = .dTrailer) (hcap : u.total * u.channels.toNat ≤ cap)
    (hv : decodeWalk n ip u = .next v) : WritesBelow cap s v where
  stream := (Walked.walk (by tauto) hv).stream.trans h.stream
  pix a ha := (hu.decodeWalk_pix (hu.hdrValid_of_body hp) (by tauto) hv (hcap.trans ha)).trans (h.pix a ha)

/-- Every way a DECODE can end writes below its capacity. -/
theorem CommandStep.decode_writesBelow {slen cap : Nat} {s t : State} (hs : CommandStep s (.decode slen cap) t)
    (h : s.Running) : WritesBelow cap s t := by
  cases hs with
  | badPhase => exact ⟨rfl, fun _ _ => rfl⟩
  | decodeShort => exact WritesBelow.failDecode ⟨rfl, fun _ _ => rfl⟩
  | decodeBadHeader _ _ hr hu => exact (WritesBelow.decodeHeader hr hu).failDecode
  | decodeSmall _ _ hr hu =>
    have hheader := WritesBelow.decodeHeader (cap := cap) hr hu
    exact WritesBelow.failDecode ⟨hheader.stream, hheader.pix⟩
  | decodeBadBody hp _ hr hu hf hcap hv =>
    obtain ⟨hrun, hbody⟩ := h.decodeHeader hp hr hu
    exact ((WritesBelow.decodeHeader hr hu).walk hrun (hbody hf) hcap hv).failDecode
  | decode hp _ hr hu hf hcap hv =>
    obtain ⟨hrun, hbody⟩ := h.decodeHeader hp hr hu
    have hwalk := (WritesBelow.decodeHeader hr hu).walk hrun (hbody hf) hcap hv
    exact ⟨hwalk.stream, hwalk.pix⟩

/-- Settles O46: the header writes nothing, the walk the image, and a failure what is below the capacity. -/
theorem decodeStaysWithinItsCapacity : Obligations.DecodeStaysWithinItsCapacity := by
  intro s t slen cap rest hinv hcmds ht
  rw [step_cons hcmds] at ht
  obtain ⟨hstream, hpix⟩ := (command_next ht).decode_writesBelow (hinv.withCmds rest).running
  exact ⟨hstream, hpix⟩

end Sys2Proof.Machine
end

section
/-! PROOF. DECODE against the streaming decoder: it stores what DEC_PUSH returns, and it fails as the stream fails.
-/

namespace Sys2Proof.Machine

/-! ### DECODE and the streaming decoder (44_oneshot.md R217, R218, R220) -/

/-- The decoder that DEC_BEGIN opens, as the first DEC_PUSH finds it (45_streaming.md R238). -/
def State.opened (s : State) : State := openCommand .byValue { s with phase := .dHeader }

/-- Bytes that end inside the header gather in `facc`. -/
theorem pushBytes_shortHeader {bs : List Byte} {k : Nat} {s : State} (hp : s.phase = .dHeader)
    (hl : (s.facc ++ bs).length < headerLen) :
    pushBytes bs k s = .next (k + bs.length, { s with facc := s.facc ++ bs }) := by
  induction bs generalizing k s with
  | nil => simp [pushBytes]
  | cons b bs ih =>
    have hopen : s.stopped = false := by simp [State.stopped, hp]
    have hmore : (s.facc ++ [b]).length ≠ headerLen := by simp at hl ⊢; omega
    have hrest := ih (k := k + 1) (s := { s with facc := s.facc ++ [b] }) hp (by simpa using hl)
    simp only [pushBytes, hopen, Bool.false_eq_true, if_false, (ByteStep.headerMore hp hmore).decByte_eq]
    simpa [Nat.add_assoc, Nat.add_comm 1] using hrest

section
variable {s s₁ s₂ u v : State} {bytes : List Byte} {n cap : Nat}

/-- A push starts alike whatever the last reply was. -/
theorem pushBytes_setReply (r : Option Result) (h : pushBytes bytes 0 s = .next (n, v)) :
    pushBytes bytes 0 { s with reply := r } = .next (n, { v with reply := r }) := by
  have heq (t : State) : t.withOutput [] none r = { t with reply := r } := by simp [State.withOutput]
  rw [← heq, ← heq, (passes_withOutput [] none r).push bytes 0 trivial, h, mapNext]

/-- How a push ends: failed, or with what it gathered. -/
theorem pushResult_eq_next (h : pushResult (.next (n, v)) = .next s) :
    (v.phase = .failed ∧ s = closeFailed v) ∨
      (v.phase ≠ .failed ∧ s = closeCommand (.pushed v.hdrEvent v.out n) v) := by
  rw [pushResult] at h
  split at h
  · next hf => cases h; exact .inl ⟨hf, rfl⟩
  · next hf => cases h; exact .inr ⟨hf, rfl⟩

/-- DEC_BEGIN and a DEC_PUSH: the bytes are pushed into the opened decoder, and DEC_PUSH returns what they gave. -/
theorem opened_push (hp : s.phase = .idle) (hbegin : command .decBegin s = .next s₁)
    (hpush : command (.decPush bytes) { s₁ with cmds := s.cmds } = .next s₂) :
    ∃ n v, pushBytes bytes 0 s.opened = .next (n, v) ∧ pushResult (.next (n, v)) = .next s₂ := by
  rw [command, cmdDecBegin, if_neg (not_not.2 hp)] at hbegin
  cases hbegin
  rw [command, cmdDecPush_open (.inl rfl)] at hpush
  cases hw : pushBytes bytes 0 { s.opened with reply := some .ok } with
  | next q =>
    refine ⟨q.1, { q.2 with reply := s.reply }, pushBytes_setReply s.reply hw, ?_⟩
    rw [pushResult_next, ← hpush]
    exact ((congrArg pushResult hw).trans (pushResult_next _ _)).symm
  | fault | refused => cases (congrArg pushResult hw).symm.trans hpush

/-- Nothing is out before the header, so the opened decoder is one whose output is all its pixels. -/
theorem State.Inv.opened (h : s.Inv) (hp : s.phase = .idle) : s.opened.AllOut := by
  obtain ⟨-, ⟨-, -, -, hcount⟩, -⟩ := h.running.idle hp
  refine ⟨(h.running.openCommand .byValue).beginHeader hp, rfl, ?_⟩
  simp [State.opened, hcount]

/-- A push keeps it. -/
theorem State.AllOut.push (h : s.AllOut) (hv : pushBytes bytes 0 s = .next (n, v)) : v.AllOut :=
  pushBytes_induction (R := fun s t => s.AllOut → t.AllOut) (fun _ h => h) (fun _ _ _ h1 h2 h => h2 (h1 h))
    (fun _ _ _ _ hb h => h.byte hb) hv h

theorem State.eventTrue.push (h : s.eventTrue) (hv : pushBytes bytes 0 s = .next (n, v)) : v.eventTrue :=
  pushBytes_induction (R := fun s t => s.eventTrue → t.eventTrue) (fun _ h => h) (fun _ _ _ h1 h2 h => h2 (h1 h))
    (fun _ _ _ _ hb h => h.byte hb) hv h

/-- The bytes of a header, pushed, run as the record they are. -/
theorem pushBytes_headerRecord (hp : s.phase = .dHeader) (hf : s.facc = []) (hl : bytes.length = headerLen)
    (hu : runRecord .header bytes s = .next u) : pushBytes bytes 0 s = .next (headerLen, u) := by
  have hne : bytes ≠ [] := by rintro rfl; cases hl
  have hclear : { s with facc := [] } = s := by rw [← hf]
  rw [pushBytes_header hne hp (by simpa [hf] using hl), hf, List.nil_append, hclear, hu, hl, Nat.zero_add]

/-- A push into the opened decoder of a whole header and more: first the header record, then the body. -/
theorem opened_push_header (hf : s.facc = []) (hl : headerLen ≤ bytes.length)
    (hv : pushBytes bytes 0 s.opened = .next (n, v)) :
    ∃ u k, runRecord .header (bytes.take headerLen) s.opened = .next u ∧
      pushBytes (bytes.take headerLen) 0 s.opened = .next (headerLen, u) ∧
        pushBytes (bytes.drop headerLen) 0 u = .next (k, v) := by
  have hlen : (bytes.take headerLen).length = headerLen := List.length_take_of_le hl
  obtain ⟨u, hu⟩ := headerRecord_runs (s := s.opened) hlen rfl
  have hheader := pushBytes_headerRecord (s := s.opened) rfl hf hlen hu
  rw [← List.take_append_drop headerLen bytes, pushBytes_append, hheader] at hv
  simp only [pushBytes_offset _ headerLen] at hv
  split at hv
  case h_2 | h_3 => cases hv
  next k w hw =>
  cases hv
  exact ⟨u, k, hu, hheader, hw⟩

/-- Where the bytes of a DECODE end before the end marker is seen, it raises `Truncated` (44_oneshot.md R217). -/
def State.endWalk (s : State) : State := if s.stopped then s else raise .truncated .none s

/-- What DECODE makes of the end of its walk (44_oneshot.md R217). -/
def closeDecode (cap : Nat) (s : State) : State :=
  if s.phase = .failed then failDecode cap s
  else closeCommand (.decoded ⟨s.width, s.height, s.channels, s.colorspace⟩ (s.total * s.channels.toNat)) s

theorem endWalk_inPix (m : Memory) (s : State) : (s.inPix m).endWalk = s.endWalk.inPix m := by
  unfold State.endWalk
  rw [show (s.inPix m).stopped = s.stopped from rfl]
  split <;> rfl

/-- The body of a DECODE is the push of its bytes, stored in `PIX`. -/
theorem decodeBody_inPix {m : Memory} (hu : u.AllOut) (hr : u.stream.readBytes headerLen bytes.length = .ok bytes)
    (hv : pushBytes bytes 0 u = .next (n, v)) (hcap : u.total * u.channels.toNat ≤ cap) :
    decodeBody (headerLen + bytes.length) cap (u.inPix m) = .next (closeDecode cap (v.endWalk.inPix m)) := by
  have hwalk : decodeWalk bytes.length headerLen (u.inPix m) = .next (v.endWalk.inPix m) := by
    rw [decodeWalk_eq_pushBytes (s := u.inPix m) (fun _ _ _ hb => (Walked.byte hb).stream) hr,
      (passes_inPix m).push bytes 0 hu, hv, ← endWalk_inPix, State.endWalk, mapNext]
    simp only
    split <;> rfl
  rw [decodeBody, if_neg (show ¬ cap < (u.inPix m).total * (u.inPix m).channels.toNat from Nat.not_lt.2 hcap),
    Nat.add_sub_cancel_left, hwalk]
  simp only [closeDecode]
  split <;> rfl

/-- DECODE stores what the streaming decoder returns, and ends as it ends (44_oneshot.md R220). -/
theorem command_decode_opened (hinv : s.Inv) (hp : s.phase = .idle) (hl : headerLen ≤ bytes.length)
    (hr : s.stream.readBytes 0 bytes.length = .ok bytes) (hv : pushBytes bytes 0 s.opened = .next (n, v))
    (hcap : v.hdrValid = true → v.total * v.channels.toNat ≤ cap) :
    command (.decode bytes.length cap) s = .next (closeDecode cap (v.endWalk.inPix s.pix)) := by
  obtain ⟨-, -, -, hf⟩ := hinv.running.idle hp
  obtain ⟨u, k, hu, hheader, hbody⟩ := opened_push_header hf hl hv
  have hlen : (bytes.take headerLen).length = headerLen := List.length_take_of_le hl
  have hsplit : bytes.take headerLen ++ bytes.drop headerLen = bytes := List.take_append_drop _ _
  obtain ⟨hr1, hr2⟩ := Memory.readBytes_split (hsplit.symm ▸ hr)
  rw [hlen] at hr1
  rw [hlen, Nat.zero_add] at hr2
  have hout := hinv.opened hp
  have hstored := ((passes_inPix s.pix).runRecord .header (bytes.take headerLen) hout).trans (congrArg _ hu)
  rw [command_decode_header hp hl hr1 hstored]
  by_cases hfail : u.phase = .failed
  · have hstop : u.stopped = true := by simp [State.stopped, hfail]
    obtain ⟨-, rfl⟩ := Prod.mk.inj (Host.Outcome.next.inj ((pushBytes_stopped hstop _ 0).symm.trans hbody))
    rw [if_pos (by exact hfail), State.endWalk, if_pos hstop, closeDecode, if_pos (by exact hfail)]
  · have hphase : u.phase = .dChunks ∨ u.phase = .dTrailer := (hinv.running.decodeHeader hp hr1 hstored).2 hfail
    have hout := hout.push hheader
    have hbegun : u.phase ≠ .idle ∧ u.phase ≠ .dHeader := by rcases hphase with h | h <;> simp [h]
    obtain ⟨hvalid, -, -, hchannels, -, htotal, -⟩ := (Walked.push hbegun.1 hbody).header hbegun.2
    have hroom := hcap (hvalid.trans (hout.running.hdrValid_of_body hphase))
    rw [hchannels, htotal] at hroom
    have hstream : u.stream = s.stream := (Walked.decodeHeader hr1 hstored).stream
    have hbody := decodeBody_inPix (m := s.pix) hout (hstream.symm ▸ hr2) hbody hroom
    rw [if_neg (by exact hfail), ← hbody, List.length_drop, Nat.add_sub_cancel' hl]

/-! ### DECODE completes as the stream does (44_oneshot.md R220) -/

/-- A decoder past D_HEADER has been given a whole header. -/
theorem headerLen_le_of_body (hf : s.facc = []) (hv : pushBytes bytes 0 s.opened = .next (n, v))
    (hp : v.phase ≠ .dHeader) : headerLen ≤ bytes.length := by
  by_contra hl
  have hshort := pushBytes_shortHeader (s := s.opened) (bs := bytes) (k := 0) rfl
    (by rw [show s.opened.facc = [] from hf]; simpa using hl)
  cases hshort.symm.trans hv
  exact hp rfl

/-- What a decoder has put out at the end of a stream is the whole image. -/
theorem State.AllOut.length_of_done (h : v.AllOut) (hp : v.phase = .dDone) :
    v.out.length = v.total * v.channels.toNat := by
  have hi := h.running.phase
  simp only [State.phaseInv, hp] at hi
  obtain ⟨-, hcount, -⟩ := hi
  rw [h.length, hcount]

end

/-- Settles O43: DECODE ends as the stream does, with the output in `PIX`. -/
theorem decodeWritesWhatStreamingReturns : Obligations.DecodeWritesWhatStreamingReturns := by
  intro s s1 s2 bytes hdr px k cap hinv hidle hr hs1 hs2 hreply hdone hcap
  have hinv := hinv.withCmds []
  obtain ⟨n, v, hv, hs2⟩ := opened_push (s := { s with cmds := [] }) hidle hs1 hs2
  rcases pushResult_eq_next hs2 with ⟨-, rfl⟩ | ⟨hf, rfl⟩
  · cases hreply
  injection Option.some.inj hreply with hevent hpx _
  obtain ⟨-, -, -, hfacc⟩ := hinv.running.idle hidle
  have hlength := ((hinv.opened hidle).push hv).length_of_done hdone
  obtain rfl := State.eventTrue.push (s := State.opened { s with cmds := [] }) nofun hv hdr hevent
  subst hpx
  have hdone : v.phase = .dDone := hdone
  have hl := headerLen_le_of_body (s := { s with cmds := [] }) hfacc hv (by simp [hdone])
  have hend : v.endWalk = v := if_pos (by simp [State.stopped, hdone])
  have hdecode := command_decode_opened hinv hidle hl hr hv (fun _ => hlength ▸ hcap)
  rw [hend, closeDecode, if_neg (by exact hf)] at hdecode
  refine ⟨_, hdecode, ?_, Memory.readBytes_writeBytes _ _ _, fun a ha => ?_, rfl⟩
  · rw [hlength]; rfl
  · exact Memory.read_writeBytes_outside _ _ _ _ (.inr (by simpa using ha))

/-! ### DECODE fails as the stream does (44_oneshot.md R220, 60_exceptions.md R266, R267) -/

section
variable {s v t : State} {bytes : List Byte} {n cap : Nat} {kind : ErrKind} {sub : SubCause}

/-- A push that failed: DECODE fails with what it latched. -/
theorem decode_failsWith_of_failed (hinv : s.Inv) (hp : s.phase = .idle)
    (hr : s.stream.readBytes 0 bytes.length = .ok bytes) (hv : pushBytes bytes 0 s.opened = .next (n, v))
    (hcap : v.hdrValid = true → v.total * v.channels.toNat ≤ cap) (hf : v.phase = .failed) :
    FailsWith v.err.kind v.err.sub (command (.decode bytes.length cap) s) := by
  obtain ⟨-, -, -, hfacc⟩ := hinv.running.idle hp
  have hl := headerLen_le_of_body hfacc hv (by simp [hf])
  have hend : v.endWalk = v := if_pos (by simp [State.stopped, hf])
  rw [command_decode_opened hinv hp hl hr hv hcap, hend, closeDecode, if_pos (by exact hf)]
  exact ⟨_, rfl, rfl, hf, rfl⟩

/-- A push that ended before the end marker: DECODE fails with `Truncated`, inside its header or behind it. -/
theorem decode_failsWith_of_open (hinv : s.Inv) (hp : s.phase = .idle)
    (hr : s.stream.readBytes 0 bytes.length = .ok bytes) (hv : pushBytes bytes 0 s.opened = .next (n, v))
    (hcap : v.hdrValid = true → v.total * v.channels.toNat ≤ cap) (hopen : v.stopped = false)
    (he : v.err.kind = .none) : FailsWith .truncated .none (command (.decode bytes.length cap) s) := by
  by_cases hl : headerLen ≤ bytes.length
  · have hend : v.endWalk = raise .truncated .none v := if_neg (by simp [hopen])
    rw [command_decode_opened hinv hp hl hr hv hcap, hend, closeDecode, if_pos (by rfl)]
    exact failsWith_failDecode (u := v.inPix s.pix) he _ _ _
  · have he : s.err.kind = .none := by rw [hinv.running.noErr (by simp [hp])]
    exact decode_failsWith_truncated hp he (Nat.lt_of_not_le hl)

/-- DEC_FINISH fails with `Truncated`, in a decoder that has not stopped (45_streaming.md R245). -/
theorem CommandStep.decFinish_error (hs : CommandStep s .decFinish t) (he : s.err.kind = .none)
    (hr : t.reply = some (.error kind sub)) : s.stopped = false ∧ kind = .truncated ∧ sub = .none := by
  obtain ⟨hf, -⟩ := hs.error hr
  cases hs with
  | decFinishEarly _ hd =>
    rw [closeFailed_reply, raise_of_clear he] at hr
    cases hr
    exact ⟨by simp [State.stopped, hf, hd], rfl, rfl⟩
  | _ => cases hr

end

/-- Settles O44: the push fails and latches its error, or DEC_FINISH finds the stream too short. -/
theorem decodeFailsAsStreamingFails : Obligations.DecodeFailsAsStreamingFails := by
  intro s s1 s2 s3 bytes kind sub cap hinv hidle hr hs1 hs2 hs3 hreply hcap
  have hinv := hinv.withCmds []
  obtain ⟨n, v, hv, hs2⟩ := opened_push (s := { s with cmds := [] }) hidle hs1 hs2
  have hfinish := commandStep_of_step hs3
  rcases pushResult_eq_next hs2 with ⟨hf, rfl⟩ | ⟨hf, rfl⟩
  · rcases hreply with hreply | hreply
    · cases hreply
      exact decode_failsWith_of_failed hinv hidle hr hv hcap hf
    · exact absurd hf (hfinish.error hreply).1
  · rcases hreply with hreply | hreply
    · cases hreply
    · have he : v.err.kind = .none := by rw [((hinv.opened hidle).push hv).running.noErr hf]
      obtain ⟨hopen, rfl, rfl⟩ := hfinish.decFinish_error he hreply
      exact decode_failsWith_of_open hinv hidle hr hv hcap hopen he

end Sys2Proof.Machine
end

section
/-! PROOF. ENCODE against the streaming encoder: it stores what ENC_BEGIN, ENC_PUSH and ENC_FINISH return.
-/

namespace Sys2Proof.Machine

/-! ### The image of ENCODE and of the streaming encoder (44_oneshot.md R212 to R214) -/

/-- The encoder once the fields are accepted, before a byte is out (45_streaming.md R231). -/
def State.begun (w h : Dim) (c cs : Byte) (s : State) : State :=
  { s with
    phase := .eBody, hdrValid := true, width := w, height := h, channels := c, colorspace := cs
    total := w.toNat * h.toNat }

section
variable {s t : State} {w h : Dim} {c cs : Byte} {pixels : List Pixel} {b : List Byte} {cap plen : Nat}

/-- What the bytes of pixels are does not depend on the alpha lane that a 3-channel host does not hand over. -/
theorem flatMap_pushedPixel (c : Byte) (pixels : List Pixel) :
    (pixels.map (pushedPixel c)).flatMap (pixelToBytes c) = pixels.flatMap (pixelToBytes c) := by
  simp [List.flatMap_map, pixelToBytes_pushedPixel]

/-- ENC_BEGIN that returns bytes has accepted its fields and returns the header. -/
theorem CommandStep.begun (hs : CommandStep s (.encBegin w h c cs) t) (hr : t.reply = some (.bytes b)) :
    acceptedFields s.cfg w h c cs ∧ b = Sys2Proof.encode (.header w h c cs) ∧
      t = closeCommand (.bytes b) (s.begun w h c cs) := by
  cases hs with
  | encBegin hp hu hf =>
    have ha : acceptedFields s.cfg w h c cs :=
      accepted_of_checkFields (s := openCommand .byValue s) hp (hu ▸ hf)
    rw [checkFields_accepted (by exact ha)] at hu
    subst hu
    cases hr
    exact ⟨ha, rfl, rfl⟩
  | _ => cases hr

/-- ENC_PUSH that returns bytes returns those of its pixels. -/
theorem CommandStep.pushedPixels (hs : CommandStep s (.encPush pixels) t) (hr : t.reply = some (.bytes b)) :
    b = (encPushed pixels s).out ∧ t = closeCommand (.bytes b) (encPushed pixels s) := by
  cases hs with
  | encPush _ _ _ hu => subst hu; cases hr; exact ⟨rfl, rfl⟩
  | _ => cases hr

/-- ENC_FINISH that returns bytes has every pixel and returns the end of the image. -/
theorem CommandStep.finished (hs : CommandStep s .encFinish t) (hr : t.reply = some (.bytes b)) :
    s.pxCount = s.total ∧ b = (finishImage (openCommand .byValue s)).out ∧
      t = closeCommand (.bytes b) (finishImage (openCommand .byValue s)) := by
  cases hs with
  | encFinish _ _ hn hu => subst hu; cases hr; exact ⟨hn, rfl, rfl⟩
  | _ => cases hr

/-- A command that opens where another has closed: with the output of the earlier one before it, nothing is gone. -/
theorem withOutput_reopened (hw : s.walker = .byValue) (hev : s.hdrEvent = none) (o : List Byte) (r : Result)
    (r' : Option Result) :
    (openCommand .byValue (closeCommand r s)).withOutput (o ++ s.out) none r' = s.withOutput o none r' := by
  ext1 <;> simp [State.withOutput, hw, hev]

/-- The header emitted is output gathered before the pixels. -/
theorem emit_eq_withOutput (header : List Byte) (r : Result) (s : State) :
    emit header (openCommand .byValue s) =
      (openCommand .byValue (closeCommand r s)).withOutput header none s.reply := by
  rw [emit_byValue rfl]
  ext1 <;> simp [State.withOutput]

/-- The header, the pixels and the end of the image, put out by value in one command: the outputs of the three streaming
commands in a row (45_streaming.md R233, R236). -/
theorem finishImage_streamed (header : List Byte) (pixels : List Pixel) (r₁ r₂ : Result) (s : State) :
    finishImage (encPixels (pixels.map (pushedPixel s.channels)) (emit header (openCommand .byValue s))) =
      (finishImage (openCommand .byValue (closeCommand r₂ (encPushed pixels (closeCommand r₁ s))))).withOutput
        (header ++ (encPushed pixels (closeCommand r₁ s)).out) none s.reply := by
  have hpixels := ((encPasses_withOutput header none s.reply).pixels (pixels.map (pushedPixel s.channels))
    (s := openCommand .byValue (closeCommand r₁ s)) trivial).1
  have hwalker : (encPushed pixels (closeCommand r₁ s)).walker = .byValue := (encPixels_byValue rfl _).1
  rw [← finishImage_withOutput, withOutput_reopened hwalker (by simp [encPushed]), emit_eq_withOutput header r₁,
    ← hpixels]
  rfl

/-- ENCODE whose fields are accepted goes on to its body. -/
theorem command_encode_accepted (hp : s.phase = .idle) (hl : plen = w.toNat * h.toNat * c.toNat)
    (ha : acceptedFields s.cfg w h c cs) :
    command (.encode w h c cs plen cap) s =
      encodeBody (.header w h c cs) c cap (checkFields w h c cs (openCommand (.inSpaces 0) s)) := by
  have hf := mt (checkFields_failed_iff (s := openCommand (.inSpaces 0) s) hp).1 (not_not.2 ha)
  simp only [command, cmdEncode]
  rw [if_neg (not_not.2 hp), if_neg (by simp [hl]), if_neg hf]

/-- The body of ENCODE, with capacity for the worst case and a walk that ends (44_oneshot.md R211 to R213). -/
theorem encodeBody_of_walk {hdr : Instr} {u v : State} (hcap : worstCase u.total c ≤ cap)
    (hv : encodeWalk u.total 0 (emit (encode hdr) { u with phase := .eBody }) = .next v) :
    encodeBody hdr c cap u = .next (closeCommand (.encoded (finishImage v).cursor) (finishImage v)) := by
  rw [encodeBody, if_neg (Nat.not_lt.2 hcap), hv]

/-- ENCODE of an image that is there, with the capacity of the worst case. -/
theorem command_encode_image (hp : s.phase = .idle) (ha : acceptedFields s.cfg w h c cs)
    (hn : pixels.length = w.toNat * h.toNat)
    (hr : s.pix.readBytes 0 (pixels.length * c.toNat) = .ok (pixels.flatMap (pixelToBytes c)))
    (hcap : worstCase (w.toNat * h.toNat) c ≤ cap) {v : State}
    (hv : finishImage (encPixels (pixels.map (pushedPixel c))
      (emit (encode (.header w h c cs)) ((openCommand (.inSpaces 0) s).begun w h c cs))) = v) :
    command (.encode w h c cs (pixels.length * c.toNat) cap) s = .next (closeCommand (.encoded v.cursor) v) := by
  have halpha (h3 : c = 3) (p : Pixel) (hmem : p ∈ pixels.map (pushedPixel c)) : p.a = 255 := by
    obtain ⟨q, -, rfl⟩ := List.mem_map.1 hmem
    exact pushedPixel_a h3 q
  have hwalk := encodeWalk_pixels (ps := pixels.map (pushedPixel c)) (i := 0)
    (s := emit (encode (.header w h c cs)) ((openCommand (.inSpaces 0) s).begun w h c cs))
    (by simpa [State.begun] using ha.1) (by simpa [State.begun] using halpha)
    (by simpa [State.begun, flatMap_pushedPixel] using hr)
  rw [List.length_map, hn] at hwalk
  rw [command_encode_accepted hp (by rw [hn]) ha, checkFields_accepted (s := openCommand (.inSpaces 0) s) ha, ← hv]
  exact encodeBody_of_walk hcap hwalk

/-- ENCODE's image is what the three streaming commands leave, with their output stored in STREAM. -/
theorem finishImage_inSpaces (header : List Byte) (pixels : List Pixel) (r₁ r₂ : Result) (s : State) :
    finishImage (encPixels (pixels.map (pushedPixel c)) (emit header ((openCommand (.inSpaces 0) s).begun w h c cs))) =
      State.inStream s.stream []
        ((finishImage (openCommand .byValue (closeCommand r₂
          (encPushed pixels (closeCommand r₁ (s.begun w h c cs)))))).withOutput
            (header ++ (encPushed pixels (closeCommand r₁ (s.begun w h c cs))).out) none s.reply) := by
  have hopen : (openCommand (.inSpaces 0) s).begun w h c cs =
      (openCommand .byValue (s.begun w h c cs)).inStream s.stream [] := rfl
  rw [hopen, finishImage_encPixels_inStream _ _ _ rfl]
  exact congrArg _ (finishImage_streamed header pixels r₁ r₂ (s.begun w h c cs))

/-- Output stored and output returned: the closed states differ in STREAM and the reply. -/
theorem closeCommand_inStream (m : Memory) (o : List Byte) (ev : Option Header) (r r₀ : Result) (r' : Option Result)
    (s : State) :
    closeCommand r ((s.withOutput o ev r').inStream m []) =
      { closeCommand r₀ s with stream := m.writeBytes 0 (o ++ s.out), reply := some r } := rfl

/-- The one command issued, where no other is waiting. -/
theorem commandStep_of_single {a : Command} (hs : s.cmds = []) (ht : step { s with cmds := [a] } = .next t) :
    CommandStep s a t := by
  have hstep := commandStep_of_step ht
  rwa [← hs] at hstep

/-- ENCODE gives what the three streaming commands give for the same image (44_oneshot.md R214). -/
theorem command_encode_streamed {s₁ s₂ s₃ : State} {b₁ b₂ b₃ : List Byte} (hcmds : s.cmds = [])
    (hp : s.phase = .idle) (hcount : s.pxCount = 0)
    (h₁ : step { s with cmds := [.encBegin w h c cs] } = .next s₁) (hb₁ : s₁.reply = some (.bytes b₁))
    (h₂ : step { s₁ with cmds := [.encPush pixels] } = .next s₂) (hb₂ : s₂.reply = some (.bytes b₂))
    (h₃ : step { s₂ with cmds := [.encFinish] } = .next s₃) (hb₃ : s₃.reply = some (.bytes b₃))
    (hr : s.pix.readBytes 0 (pixels.length * c.toNat) = .ok (pixels.flatMap (pixelToBytes c)))
    (hcap : worstCase (w.toNat * h.toNat) c ≤ cap) :
    command (.encode w h c cs (pixels.length * c.toNat) cap) s =
      .next
        { s₃ with
          stream := s.stream.writeBytes 0 (b₁ ++ b₂ ++ b₃)
          reply := some (.encoded (b₁ ++ b₂ ++ b₃).length) } := by
  obtain ⟨ha, hout₁, rfl⟩ := (commandStep_of_single hcmds h₁).begun hb₁
  obtain ⟨hout₂, rfl⟩ := (commandStep_of_single (by exact hcmds) h₂).pushedPixels hb₂
  obtain ⟨hn, hout₃, rfl⟩ :=
    (commandStep_of_single (by simpa [encPushed, State.begun] using hcmds) h₃).finished hb₃
  have hn : pixels.length = w.toNat * h.toNat := by simpa [encPushed, State.begun, hcount] using hn
  rw [command_encode_image hp ha hn hr hcap (finishImage_inSpaces _ pixels (.bytes b₁) (.bytes b₂) s),
    ← hout₁, ← hout₂, closeCommand_inStream (r₀ := .bytes b₃), hout₃]
  rfl

end

/-- Settles O40: ENCODE is the three streaming commands in a row, with their output stored in STREAM. -/
theorem encodeWritesWhatStreamingReturns : Obligations.EncodeWritesWhatStreamingReturns := by
  intro s s1 s2 s3 w h c cs pixels b1 b2 b3 cap hinv hidle hs1 hb1 hs2 hb2 hs3 hb3 hr hcap
  obtain ⟨-, ⟨-, -, -, hcount⟩, -⟩ := hinv.running.idle hidle
  have hencode := command_encode_streamed (s := { s with cmds := [] }) rfl hidle hcount hs1 hb1 hs2 hb2 hs3 hb3 hr hcap
  exact ⟨_, hencode, rfl, Memory.readBytes_writeBytes _ _ _, rfl⟩

end Sys2Proof.Machine
end

section
/-! PROOF. The decoder's commands: how the stream is cut plays no part.
-/

namespace Sys2Proof.Machine

/-! ### The cut of a stream (45_streaming.md R239, R247) -/

section
variable {s t v w x : State} {a b : List Byte} {n : Nat}

theorem pushResult_failed (hf : v.phase = .failed) (n : Nat) : pushResult (.next (n, v)) = .next (closeFailed v) :=
  if_pos hf

theorem pushResult_succeeded (hf : v.phase ≠ .failed) (n : Nat) :
    pushResult (.next (n, v)) = .next (closeCommand (.pushed v.hdrEvent v.out n) v) :=
  if_neg hf

/-- DEC_PUSH in an open phase returns what its walk leaves. -/
theorem command_decPush_walked
    (hp : s.phase = .dHeader ∨ s.phase = .dChunks ∨ s.phase = .dTrailer ∨ s.phase = .dDone)
    (hv : pushBytes a 0 (openCommand .byValue s) = .next (n, v)) :
    command (.decPush a) s = pushResult (.next (n, v)) := by
  rw [command, cmdDecPush_open hp, hv]

/-- DEC_PUSH in an open phase answers only where its walk ends. -/
theorem walked_of_command_decPush
    (hp : s.phase = .dHeader ∨ s.phase = .dChunks ∨ s.phase = .dTrailer ∨ s.phase = .dDone)
    (ht : command (.decPush a) s = .next t) :
    ∃ n v, pushBytes a 0 (openCommand .byValue s) = .next (n, v) ∧ pushResult (.next (n, v)) = .next t := by
  cases command_next ht with
  | badPhase hbad => simp [accepts_decPush.2 hp] at hbad
  | decPushBad _ hv hf => exact ⟨_, _, hv, pushResult_failed hf _⟩
  | decPush _ hv hf => exact ⟨_, _, hv, pushResult_succeeded hf _⟩

/-- A walk over two fragments that ends is a walk over the first and, from where that ends, over the second. -/
theorem pushBytes_append_next (h : pushBytes (a ++ b) 0 s = .next (n, x)) :
    ∃ k w m, pushBytes a 0 s = .next (k, w) ∧ pushBytes b 0 w = .next (m, x) ∧ n = k + m := by
  rw [pushBytes_append] at h
  cases ha : pushBytes a 0 s with
  | fault | refused => simp [ha] at h
  | next q =>
    obtain ⟨k, w⟩ := q
    simp only [ha, pushBytes_offset b k] at h
    cases hb : pushBytes b 0 w with
    | fault | refused => simp [hb] at h
    | next q =>
      simp only [hb, Host.Outcome.next.injEq, Prod.mk.injEq] at h
      obtain ⟨rfl, rfl⟩ := h
      exact ⟨k, w, q.1, rfl, hb, rfl⟩

/-- A push that goes on is a push that starts afresh after a reply, with what was gathered before it put in front. -/
theorem pushBytes_reopened (hw : w.walker = .byValue) (r : Result) (hb : pushBytes b 0 w = .next (n, x)) :
    ∃ y, pushBytes b 0 (openCommand .byValue (closeCommand r w)) = .next (n, y) ∧
      x = y.withOutput w.out w.hdrEvent w.reply := by
  have hopen : (openCommand .byValue (closeCommand r w)).withOutput w.out w.hdrEvent w.reply = w := by
    ext1 <;> simp [State.withOutput, hw]
  have hpass := (passes_withOutput w.out w.hdrEvent w.reply).push b 0
    (s := openCommand .byValue (closeCommand r w)) trivial
  rw [hopen, hb] at hpass
  cases hy : pushBytes b 0 (openCommand .byValue (closeCommand r w)) with
  | fault | refused => simp [hy, mapNext] at hpass
  | next q =>
    simp only [hy, mapNext, Host.Outcome.next.injEq, Prod.mk.injEq] at hpass
    obtain ⟨rfl, rfl⟩ := hpass
    exact ⟨q.2, rfl, rfl⟩

end

/-- Settles O22: the push of `a ++ b` is the walk over `b` from where `a` leaves the decoder. If `a` has failed, that
walk is empty and the push of `b` is refused; else it is the push of `b`, with what `a` gathered put in front. -/
theorem decodingIgnoresFragmentation : Obligations.DecodingIgnoresFragmentation := by
  intro s t a b hopen ht
  obtain ⟨n, x, hx, ht⟩ := walked_of_command_decPush (s := { s with cmds := [] }) hopen ht
  obtain ⟨k, w, m, ha, hb, rfl⟩ := pushBytes_append_next hx
  have hfirst := command_decPush_walked (s := { s with cmds := [] }) hopen ha
  have hwalk : Walked (openCommand .byValue { s with cmds := [] }) w :=
    Walked.push (by rcases hopen with h | h | h | h <;> simp [h]) ha
  have hcmds : w.cmds = [] := hwalk.cmds
  by_cases hf : w.phase = .failed
  · have hstop : w.stopped = true := by simp [State.stopped, hf]
    obtain ⟨rfl, rfl⟩ := Prod.mk.inj (Host.Outcome.next.inj ((pushBytes_stopped hstop b 0).symm.trans hb))
    have hsecond := command_badPhase (c := .decPush b) (s := { closeFailed w with cmds := [] })
      (by simp [hf, Phase.accepts])
    rw [pushResult_failed hf] at hfirst ht
    cases ht
    refine ⟨_, _, hfirst, hsecond, ?_, nofun, fun _ _ hr => .inl hr⟩
    rw [← hcmds]
    rfl
  · rw [pushResult_succeeded hf] at hfirst
    obtain ⟨y, hy, rfl⟩ := pushBytes_reopened hwalk.walker (.pushed w.hdrEvent w.out k) hb
    have hsecond := command_decPush_walked (s := closeCommand (.pushed w.hdrEvent w.out k) w)
      ((hwalk.isOpen hopen).resolve_right hf) hy
    have hclosed : { closeCommand (.pushed w.hdrEvent w.out k) w with cmds := [] } =
      closeCommand (.pushed w.hdrEvent w.out k) w := by rw [← hcmds]; rfl
    rw [← hclosed] at hsecond
    by_cases hyf : y.phase = .failed
    · rw [pushResult_failed hyf] at hsecond
      rw [pushResult_failed (by exact hyf)] at ht
      cases ht
      exact ⟨_, _, hfirst, hsecond, rfl, nofun, fun _ _ hr => .inr ⟨⟨_, _, _, rfl⟩, hr⟩⟩
    · rw [pushResult_succeeded hyf] at hsecond
      rw [pushResult_succeeded (by exact hyf)] at ht
      cases ht
      refine ⟨_, _, hfirst, hsecond, rfl, fun ev px k' hr => ?_, nofun⟩
      cases hr
      exact ⟨_, _, _, _, _, _, rfl, rfl, rfl, rfl, rfl⟩

end Sys2Proof.Machine
end

section
/-! PROOF. The phase moves along the transition table; DEC_BEGIN, DEC_FINISH and a push past the image.
-/

namespace Sys2Proof.Machine

/-! ### The phase (45_streaming.md R246) -/

/-- FAILED is reached from every phase in which a command can fail. -/
theorem Phase.reaches_failed_of_open {p : Phase} (hp : p = .idle ∨ p = .dHeader ∨ p = .dChunks ∨ p = .dTrailer) :
    p.reaches .failed := by
  rcases hp with rfl | rfl | rfl | rfl <;> simp [Phase.reaches]

/-- The phases in which DEC_FINISH finds the stream unfinished. -/
theorem accepts_decFinish_early {p : Phase} :
    (p.accepts .decFinish = true ∧ p ≠ .dDone) ↔ p = .dHeader ∨ p = .dChunks ∨ p = .dTrailer := by
  cases p <;> simp [Phase.accepts]

theorem CommandStep.reaches {c : Command} {s t : State} (hs : CommandStep s c t) (hc : c ≠ .reset) :
    s.phase.reaches t.phase := by
  cases hs with
  | reset => exact absurd rfl hc
  | badPhase | tooManyPixels | pixelCountShort | badLength | decFinish => exact Phase.reaches_self
  | encPush _ _ _ hu => subst hu; simpa using Phase.reaches_self
  | encFinish hp _ _ hu => subst hu; simp [hp, Phase.reaches, finishImage]
  | decPushBad hp hu | decPush hp hu =>
    have hidle : s.phase ≠ .idle := fun h => by simp [Phase.accepts, h] at hp
    exact (Walked.push (s := openCommand .byValue s) hidle hu).phase
  | decFinishEarly hp hd => exact Phase.reaches_failed_of_open (.inr (accepts_decFinish_early.1 ⟨hp, hd⟩))
  | encBegin hp | decBegin hp | encode hp => simp [hp, Phase.reaches, finishImage]
  | encBeginBad hp _ hf | encodeBad hp _ _ hf | decodeBadHeader hp _ _ _ hf | decodeBadBody hp _ _ _ _ _ _ hf =>
    rw [hp]
    exact .inr (.inr (.inr (.inr (.inr hf))))
  | encodeSmall hp | decodeShort hp | decodeSmall hp => exact Phase.reaches_failed_of_open (.inl hp)
  | decode hp _ _ _ _ _ hv hvf =>
    have hdone := phase_of_stopped (decodeWalk_stopped hv) hvf
    rw [hp]
    exact .inr (.inr (.inr (.inr (.inl hdone))))

/-- Settles O54: each case of a command stays in its phase or takes a move of the table. -/
theorem phaseMovesForward : Obligations.PhaseMovesForward := by
  intro s t c rest hcmds hc ht
  rw [step_cons hcmds] at ht
  exact (command_next ht).reaches hc

/-! ### The ends of a stream (45_streaming.md R238, R245) -/

/-- Settles O24: DEC_BEGIN asks its phase, and in IDLE the invariant says that nothing has been gathered. -/
theorem decBeginOpensTheStream : Obligations.DecBeginOpensTheStream := by
  intro s rest hinv hcmds
  rw [step_cons hcmds]
  refine ⟨fun hp => ?_, fun hp => command_badPhase (by simp [Phase.accepts, hp])⟩
  obtain ⟨-, ⟨-, -, -, hcount⟩, hcarry, hfacc⟩ := hinv.running.idle hp
  have hclose := closeCommand_of_between (s := { s with cmds := rest, phase := .dHeader }) hinv.between .ok
  rw [command, cmdDecBegin, if_neg (not_not.2 hp)]
  exact ⟨hfacc, hcarry, hcount, congrArg _ hclose⟩

/-- DEC_FINISH before the end marker. -/
theorem command_decFinish_early {s : State} (hinv : s.Inv)
    (hp : s.phase = .dHeader ∨ s.phase = .dChunks ∨ s.phase = .dTrailer) :
    command .decFinish s =
      .next { s with phase := .failed, err := ⟨.truncated, .none⟩, reply := some (.error .truncated .none) } := by
  obtain ⟨haccepts, hd⟩ := accepts_decFinish_early.2 hp
  have he : s.err = ⟨.none, .none⟩ := hinv.running.noErr (by rcases hp with h | h | h <;> simp [h])
  rw [command, cmdDecFinish, if_neg hd, if_pos haccepts, raise_of_clear (by rw [he])]
  have hclose := closeCommand_of_between (s := { s with phase := .failed, err := ⟨.truncated, .none⟩ }) hinv.between
  exact congrArg _ (hclose _)

/-- Settles O25: the phase tells a finished stream from an unfinished one, and refuses in any other. -/
theorem decFinishVerifiesTheEnd : Obligations.DecFinishVerifiesTheEnd := by
  intro s rest hinv hcmds
  rw [step_cons hcmds]
  by_cases hearly : s.phase = .dHeader ∨ s.phase = .dChunks ∨ s.phase = .dTrailer
  · have hd : s.phase ≠ .dDone := (accepts_decFinish_early.2 hearly).2
    simp only [if_pos hearly, if_neg hd]
    exact command_decFinish_early (hinv.withCmds rest) hearly
  simp only [if_neg hearly]
  by_cases hd : s.phase = .dDone
  · rw [if_pos hd]
    exact command_decFinish_done (s := { s with cmds := rest }) hd hinv.between
  · have hbad : s.phase.accepts .decFinish = false :=
      Bool.eq_false_of_not_eq_true fun h => hearly (accepts_decFinish_early.1 ⟨h, hd⟩)
    rw [if_neg hd]
    exact command_badPhase (s := { s with cmds := rest }) hbad

/-! ### A push past the image (45_streaming.md R233, R234) -/

/-- ENC_PUSH of more pixels than the image has room for. -/
theorem command_encPush_tooMany {s : State} {pixels : List Pixel} (hp : s.phase = .eBody) (hv : s.hdrValid = true)
    (hn : s.total < s.pxCount + pixels.length) : command (.encPush pixels) s = .next (refuse .tooManyPixels s) := by
  simp only [command, cmdEncPush]
  rw [if_neg (not_not.2 hp), readingHeader_of_valid hv, if_pos hn]

/-- Settles O37: the count decides before a pixel is looked at, and an accepted push counts each of its pixels. -/
theorem excessPixelsAreRefusedWhole : Obligations.ExcessPixelsAreRefusedWhole := by
  intro s ps rest hp hv hcmds
  rw [step_cons hcmds]
  refine ⟨command_encPush_tooMany (s := { s with cmds := rest }) hp hv, fun hn => ?_⟩
  exact ⟨_, _, command_encPush (s := { s with cmds := rest }) hp hv hn, rfl, by simp [encPushed]⟩

end Sys2Proof.Machine
end

section
/-! PROOF. A refused command leaves the state as it was (60_exceptions.md R272).
-/

namespace Sys2Proof.Machine

/-- A command that answers `Refused` has done nothing but `refuse`: every other case returns another result. -/
theorem CommandStep.refused {c : Command} {s t : State} {r : RefuseReason} (hs : CommandStep s c t)
    (hr : t.reply = some (.refused r)) : t = refuse r s := by
  cases hs with
  | badPhase | tooManyPixels | pixelCountShort | badLength => cases hr; rfl
  | _ => cases hr

/-- Settles O49: the step takes the command from the list, and a refusal writes the reply alone. -/
theorem refusedCommandChangesNothing : Obligations.RefusedCommandChangesNothing := by
  intro s t c rest r hcmds ht hr
  rw [step_cons hcmds] at ht
  exact (command_next ht).refused hr

end Sys2Proof.Machine
end
